-- ==== Sys2Proof/Word.lean ====
section
/-! DEFINITION. The register word and its plainest facts: 32 bits, bit 0 the least significant (R18). -/

namespace Sys2Proof

/-- A register word or a buffer entry: 32 bits, numbered `[31:0]` (R18, R41). A symbol is a word whose
bits `[31:M]` are zero (R17). -/
abbrev Word := BitVec 32

/-- A byte offset in the 16 KiB window, `0x0000` to `0x3FFF` (R70, R71). The type has no other value,
so a transaction outside the window, which the block does not see, is not an input of the model. -/
abbrev Offset := BitVec 14

/-- The 32-bit value of the "undefined" logarithm and of the "no term" generator marker (R17). -/
def undef : Word := 0xFFFFFFFF

end Sys2Proof
end

