-- ==== Sys2Proof/Config.lean ====
section
/-! DEFINITION. What an implementation fixes: the parameters of the built block (R10 to R16) and the free values.
A free value is an `opaque` constant with no body: nothing constrains it, and no proof can see it. -/

namespace Sys2Proof

/-- The parameters of one built block, fixed for its life and read-only to the host (R10, R11, R12).
`pp` is the primitive polynomial as an integer whose bit `i` is the coefficient of `x^i`. -/
structure Params where
  /-- `M`, the symbol width in bits (R10). -/
  m : Nat
  /-- `T`, the number of correctable symbol errors of a codeword (R11). -/
  t : Nat
  /-- `PP`, the primitive polynomial (R12). -/
  pp : Nat
deriving DecidableEq, Repr

namespace Params

/-- `Q = 2^M`, the field size (R10). -/
def q (p : Params) : Nat := 2 ^ p.m

/-- `N = Q - 1`, the codeword length (R10). -/
def n (p : Params) : Nat := p.q - 1

/-- `NK = N - K = 2*T`, the parity length (R10). -/
def nk (p : Params) : Nat := 2 * p.t

/-- `K = N - 2*T`, the message length (R10). -/
def k (p : Params) : Nat := p.n - 2 * p.t

/-- The word whose bits `[M-1:0]` are ones: the bits a symbol may use (R17, R42). -/
def symbolMask (p : Params) : Word := BitVec.ofNat 32 (2 ^ p.m - 1)

end Params

/-- The reference instance: `M = 8`, `T = 16`, `PP = 0x11D`, an RS(255, 223) code (R14). -/
def Params.reference : Params := { m := 8, t := 16, pp := 0x11D }

/-- The toy instance: `M = 4`, `T = 2`, `PP = 0x13`, an RS(15, 11) code (R15). -/
def Params.toy : Params := { m := 4, t := 2, pp := 0x13 }

namespace Config

/-- FREE VALUE. An unspecified word (R43, R283), or one the spec does not state (rdata of a write). It is applied to the counter `Env.free` of State, which every
use advances, so each unspecified read may give another value. Log entries 3, 4 and 11. -/
opaque freeWord : Nat → Word

/-- FREE VALUE. The OPEN parameter `CmdLatency` (R16, R284): how many host transactions the port takes between the
acceptance of a long-running command and its core step. Always finite, otherwise unconstrained; it is applied to the
counter `Env.free`, so each command may have another latency. Log entry 5. The reset-time INIT, which no CMD write accepts, stays
pending for one transaction more (R270; log entry 15). -/
opaque cmdLatency : Nat → Nat

/-- FREE VALUE. `gf_div(a, 0)` "has no value" and no rule evaluates it (R127). Log entry 8. -/
opaque divByZero : Word → Word

end Config

end Sys2Proof
end

