-- ==== Sys2Proof/Machine/Tables.lean ====
section
/-! DEFINITION. Building the exponent and logarithm tables from the primitive polynomial (R120 to R122). -/

namespace Sys2Proof.Machine

/-- `[x, f x, f (f x), …]`, `len` entries. -/
def iterateFrom {α : Type} (f : α → α) (x : α) : Nat → List α
  | 0 => []
  | len + 1 => x :: iterateFrom f (f x) len

/-- The sum over GF(2) `g 0 xor … xor g (len-1)`; zero when `len = 0`. -/
def xorSum : Nat → (Nat → Word) → Word
  | 0, _ => 0
  | len + 1, g => xorSum len g ^^^ g len

/-- `2^i` as a field element, for `i < M`. -/
def powerOfTwo (i : Nat) : Word := 1#32 <<< i

/-- `EXP[M]`: the powers of two at the positions below `M` where PP has a coefficient 1, combined by XOR
(R121; the `x^M` coefficient does not enter, conflict C6). -/
def alphaToM (p : Params) : Word :=
  xorSum p.m fun i => if p.pp.testBit i then powerOfTwo i else 0

/-- The next power of alpha: a left shift, reduced by `EXP[M]` when bit `M-1` shifts out (R121). -/
def timesAlpha (p : Params) (x : Word) : Word :=
  let mask := powerOfTwo (p.m - 1)
  if mask ≤ x then alphaToM p ^^^ ((x ^^^ mask) <<< 1) else x <<< 1

/-- The exponent table `EXP[0..N]` of R121: powers of two below `M`, `EXP[M]`, then each entry from the one
before it, and `EXP[N] = EXP[0]` (conflict C8). -/
def buildExp (p : Params) : List Word :=
  (List.range p.m).map powerOfTwo ++ iterateFrom (timesAlpha p) (alphaToM p) (p.n - p.m) ++ [powerOfTwo 0]

/-- The logarithm table `LOG[0..Q-1]` of R122 over the exponent table `exp`: `LOG[x]` is the exponent `e` in
`[0, N-1]` with `EXP[e] = x` (R55), and `LOG[0]` is UNDEF. -/
def buildLog (p : Params) (exp : List Word) : List Word :=
  (List.range p.q).map fun x =>
    if x = 0 then undef else BitVec.ofNat 32 ((exp.take p.n).idxOf (BitVec.ofNat 32 x))

end Sys2Proof.Machine
end

