-- ==== Sys2Proof/Syntax.lean ====
section
/-! DEFINITION. The command set: one constructor for each row of the opcode table (R102). -/

namespace Sys2Proof

/-- The six commands of the block (R3, R102). No command has an operand field: each reads and writes fixed
state (R104, R105). -/
inductive Instr where
  /-- NOP, word `0x0000_0000`, immediate (R225). -/
  | nop
  /-- INIT, word `0x0000_0001`, long-running: build the field tables and the generator (R140). -/
  | init
  /-- ENCODE, word `0x0000_0002`, long-running: the parity of DATA (R152). -/
  | encode
  /-- DECODE, word `0x0000_0003`, long-running: decode RX into OUT (R200). -/
  | decode
  /-- SYNDROME, word `0x0000_0004`, long-running: the syndromes of RX (R201). -/
  | syndrome
  /-- CLRERR, word `0x0000_0005`, immediate: clear the command error (R226). -/
  | clrerr
deriving DecidableEq, Repr

end Sys2Proof
end

