-- ==== Sys2Proof/WellFormed.lean ====
section
/-! DEFINITION. Well-formedness: of the parameters of a block (R13), checked one by one, and of a command. -/

namespace Sys2Proof

/-- `2 <= M <= 8` (R13). -/
def Params.widthOk (p : Params) : Bool := 2 ≤ p.m && p.m ≤ 8

/-- `1 <= T` and `K = N - 2*T >= 1` (R13). -/
def Params.capabilityOk (p : Params) : Bool := 1 ≤ p.t && 2 * p.t + 1 ≤ p.n

/-- PP is an `(M+1)`-bit integer with `PP[M] = 1` (R12, R13). -/
def Params.degreeOk (p : Params) : Bool := p.pp.testBit p.m && p.pp < 2 ^ (p.m + 1)

/-- PP is primitive: the table build yields `EXP[0..N-1]` pairwise distinct (R13) and never zero (R123).
DEDUCED, log entry 2: the distinctness test alone would admit `x^2` at `M = 2`. -/
def Params.primitiveOk (p : Params) : Bool :=
  let powers := (Machine.buildExp p).take p.n
  decide (powers.Nodup) && powers.all (· != 0)

/-- A legal instance of the block (R13). The cheap checks come first, so that an ill-formed width never builds a table. -/
def Params.wf (p : Params) : Bool :=
  p.widthOk && p.capabilityOk && p.degreeOk && p.primitiveOk

/-- A built block: parameters together with the proof that they are legal. "A model refuses an ill-formed instance: it
defines no state for it" (R13): State holds one of these, so no state of an ill-formed block exists. -/
structure Block extends Params where
  wf : toParams.wf = true
deriving DecidableEq, Repr

/-- One pass over a list with the set of values seen so far kept as the bits of a number: no value comes twice. -/
def noRepeat (seen : Nat) : List Word → Bool
  | [] => true
  | x :: rest => !seen.testBit x.toNat && noRepeat (seen ||| 1 <<< x.toNat) rest

/-- The one-pass check finds every repetition, so it may stand for `List.Nodup` where the kernel evaluates a long list. -/
theorem nodup_of_noRepeat (seen : Nat) (l : List Word) (h : noRepeat seen l = true) :
    l.Nodup ∧ ∀ x ∈ l, seen.testBit x.toNat = false := by
  induction l generalizing seen with
  | nil => simp
  | cons x rest ih =>
    simp only [noRepeat, Bool.and_eq_true, Bool.not_eq_true'] at h
    obtain ⟨hnodup, hseen⟩ := ih _ h.2
    have hrest : ∀ y ∈ rest, y ≠ x ∧ seen.testBit y.toNat = false := by
      intro y hy
      have := hseen y hy
      simp only [Nat.testBit_or, Bool.or_eq_false_iff, Nat.one_shiftLeft, Nat.testBit_two_pow] at this
      exact ⟨fun e => by simp [e] at this, this.1⟩
    refine ⟨List.nodup_cons.2 ⟨fun hx => (hrest x hx).1 rfl, hnodup⟩, ?_⟩
    intro y hy
    rcases List.mem_cons.1 hy with rfl | hy
    · exact h.1
    · exact (hrest y hy).2

/-- Primitivity by the one-pass check. -/
theorem primitiveOk_of_noRepeat (p : Params)
    (hd : noRepeat 0 ((Machine.buildExp p).take p.n) = true)
    (hz : ((Machine.buildExp p).take p.n).all (· != 0) = true) : p.primitiveOk = true := by
  simp only [Params.primitiveOk, (nodup_of_noRepeat _ _ hd).1, hz, decide_true, Bool.and_self]

/-- The parameters of the reference block are legal (R14). -/
theorem reference_wf : Params.reference.wf = true := by
  have hp : Params.reference.primitiveOk = true :=
    primitiveOk_of_noRepeat _ (by decide +kernel) (by decide +kernel)
  have hrest : (Params.reference.widthOk && Params.reference.capabilityOk && Params.reference.degreeOk) = true := by
    decide +kernel
  simp only [Params.wf, hp, hrest, Bool.and_self]

/-- The reference block (R14). -/
def Block.reference : Block := { toParams := Params.reference, wf := reference_wf }

/-- The toy block (R15). -/
def Block.toy : Block := { toParams := Params.toy, wf := by decide +kernel }

/-- Every command is well formed: a command has no register field, no immediate and no mode field (R100, R105). -/
def Instr.wf : Instr → Bool
  | .nop => true
  | .init => true
  | .encode => true
  | .decode => true
  | .syndrome => true
  | .clrerr => true

end Sys2Proof
end

