-- ==== Sys2Proof/Decode.lean ====
section
/-! DEFINITION. The command decoder, total on 32-bit words (R100, R101, R103), and the encoder (R102). -/

namespace Sys2Proof

/-- Why a word is no command: each is an illegal encoding of R103. -/
inductive DecodeError where
  /-- A bit of the reserved field `w[31:4]` is set (R100, R103). -/
  | reservedBits
  /-- `w[31:4] = 0` and `w[3:0]` is one of 6 to 15 (R103). -/
  | reservedOpcode
deriving DecidableEq, Repr

/-- The field OP of a command word, `w[3:0]` (R100). -/
def opField (w : Word) : BitVec 4 := w.extractLsb' 0 4

/-- The field RSV of a command word, `w[31:4]`, which must be zero (R100). -/
def reservedField (w : Word) : BitVec 28 := w.extractLsb' 4 28

/-- Decoding a written word (R101): every word is exactly one command or is illegal. -/
def decode (w : Word) : Except DecodeError Instr :=
  if reservedField w = 0 then
    match (opField w).toNat with
    | 0 => .ok .nop
    | 1 => .ok .init
    | 2 => .ok .encode
    | 3 => .ok .decode
    | 4 => .ok .syndrome
    | 5 => .ok .clrerr
    | _ => .error .reservedOpcode
  else .error .reservedBits

/-- The opcode of a command, the field OP of its word and the value STATUS.LASTCMD shows (R102, R37). -/
def opcode : Instr → BitVec 4
  | .nop => 0
  | .init => 1
  | .encode => 2
  | .decode => 3
  | .syndrome => 4
  | .clrerr => 5

/-- The word of a command: OP in bits `[3:0]`, the reserved field zero (R100, R102). -/
def encode (i : Instr) : Word := 0#28 ++ opcode i

/-- The command the decoder reads from a word numbered as the opcode table numbers it: one 32-bit word, bit 0 the least
significant (R100, R106). Bits at or above `nbits` are zero. -/
def decodeTableWord (nbits w : Nat) : Option Instr :=
  let v := w % 2 ^ nbits
  if v < 2 ^ 32 then
    match decode (BitVec.ofNat 32 v) with
    | .ok i => some i
    | .error _ => none
  else none

end Sys2Proof
end

