-- ==== Sys2Proof/Machine/State.lean ====
section
/-! DEFINITION. The state of the machine: the built block, its registers, its buffers and tables, and what stands outside it
(pending bus transactions, the last response, the free counters). -/

namespace Sys2Proof.Machine

/-! ## Names -/

/-- A long-running command: it sets STATUS.BUSY until its core step (R27, R102). -/
inductive LongOp where
  | init
  | encode
  | decode
  | syndrome
deriving DecidableEq, Repr

/-- The command a long-running operation is. -/
def LongOp.instr : LongOp → Instr
  | .init => .init
  | .encode => .encode
  | .decode => .decode
  | .syndrome => .syndrome

/-- The sequencer state SEQ (R31). STATUS.BUSY is 1 exactly in the states `busy op`, so BUSY has no storage of its own. -/
inductive Seq where
  | idle
  | busy (op : LongOp)
deriving DecidableEq, Repr

/-- STATUS.ERRCAUSE (R240): the codes 4 to 15 are never produced and have no constructor. -/
inductive ErrCause where
  /-- Code 0: no error since the last clear. -/
  | noError
  /-- Code 1, ILLEGAL_CMD (R242). -/
  | illegalCmd
  /-- Code 2, CMD_WHILE_BUSY (R243). -/
  | cmdWhileBusy
  /-- Code 3, WRITE_WHILE_BUSY (R244). -/
  | writeWhileBusy
deriving DecidableEq, Repr

/-- RESULT.OUTCOME (R36): the codes 5, 6 and 7 are never produced and have no constructor. -/
inductive DecodeOutcome where
  /-- Code 0, NONE: no DECODE has completed since reset. -/
  | notRun
  /-- Code 1, NO_ERROR (R174). -/
  | noError
  /-- Code 2, CORRECTED (R198). -/
  | corrected
  /-- Code 3, UNCORR_HIGH_DEGREE (R187). -/
  | uncorrHighDegree
  /-- Code 4, UNCORR_ROOT_MISMATCH (R192). -/
  | uncorrRootMismatch
deriving DecidableEq, Repr

/-- The ten buffers and tables of the register map (R75). -/
inductive Buf where
  | data
  | parity
  | rx
  | out
  | errpos
  | errval
  | synd
  | gen
  | exp
  | log
deriving DecidableEq, Repr

/-! ## Registers -/

/-- The register RESULT by its fields (R36). -/
structure Result where
  /-- RESULT[2:0]. -/
  outcome : DecodeOutcome
  /-- RESULT[3]. -/
  synzero : Bool
  /-- RESULT[15:8]. -/
  locdeg : BitVec 8
  /-- RESULT[23:16]. -/
  rootcnt : BitVec 8
  /-- RESULT[31:24]. -/
  bmsteps : BitVec 8
deriving DecidableEq, Repr

/-- The registers that hold something: STATUS by its fields (R37), the sequencer state (R31) and RESULT (R36). ID, CONFIG and
PRIMPOLY are constants of the block (R33 to R35) and CMD holds nothing (R38). -/
structure Regs where
  /-- STATUS.READY. -/
  ready : Bool
  /-- STATUS.CMD_ERR. -/
  cmdErr : Bool
  /-- STATUS.ERRCAUSE. -/
  errCause : ErrCause
  /-- STATUS.LASTCMD, the last accepted command. -/
  lastCmd : Instr
  /-- SEQ, and with it STATUS.BUSY. -/
  seq : Seq
  /-- RESULT. -/
  result : Result
deriving DecidableEq, Repr

/-- The registers at the first host access after reset (R59). -/
def Regs.reset : Regs :=
  { ready := false, cmdErr := false, errCause := .noError, lastCmd := .init, seq := .busy .init,
    result := { outcome := .notRun, synzero := false, locdeg := 0, rootcnt := 0, bmsteps := 0 } }

/-! ## Buffers and tables -/

/-- An entry of a symbol buffer. `none` is the spec's own state "holds no value": nothing has written the entry since
reset (R43). -/
abbrev Entry := Option Word

/-- The symbol buffers and the tables, each a list with entry 0 first. -/
structure Memory where
  /-- DATA, K entries (R46). -/
  data : List Entry
  /-- PARITY, NK entries (R47). -/
  parity : List Entry
  /-- RX, N entries (R48). -/
  rx : List Entry
  /-- OUT, N entries (R49). -/
  out : List Entry
  /-- ERRPOS, T entries (R51). -/
  errpos : List Entry
  /-- ERRVAL, T entries (R52). -/
  errval : List Entry
  /-- SYND, NK entries; SYND[i] of R50 is the entry `i - 1` of this list. -/
  synd : List Entry
  /-- GEN, NK+1 entries (R53). -/
  gen : List Word
  /-- EXP, N+1 entries (R54). -/
  exp : List Word
  /-- LOG, Q entries (R55). -/
  log : List Word
deriving DecidableEq, Repr

/-- The buffers after reset: no entry holds a value (R59). The tables are unspecified until the reset-time INIT completes and
until then no read can see them (R283); the zeros standing here are DESIGN CHOICE, log entry 6. -/
def Memory.reset (b : Block) : Memory :=
  { data := List.replicate b.k none, parity := List.replicate b.nk none, rx := List.replicate b.n none,
    out := List.replicate b.n none, errpos := List.replicate b.t none, errval := List.replicate b.t none,
    synd := List.replicate b.nk none, gen := List.replicate (b.nk + 1) 0, exp := List.replicate (b.n + 1) 0,
    log := List.replicate b.q 0 }

/-- Every entry of a symbol buffer that holds a value holds one below `bound`. -/
def entriesBelow (bound : Nat) (l : List Entry) : Bool :=
  l.all fun e => match e with
    | none => true
    | some w => w.toNat < bound

/-- Every entry of a table holds a value below `bound`, or UNDEF. -/
def exponentsBelow (bound : Nat) (l : List Word) : Bool :=
  l.all fun w => w == undef || w.toNat < bound

/-- The lengths of the buffers and tables (R17), and the kinds of the buffers' values (R41, R51). Of the tables' contents it says
nothing: they are unspecified until the reset-time INIT completes (R59). -/
def Memory.buffersWf (b : Block) (mem : Memory) : Bool :=
  mem.data.length == b.k && mem.parity.length == b.nk && mem.rx.length == b.n && mem.out.length == b.n &&
  mem.errpos.length == b.t && mem.errval.length == b.t && mem.synd.length == b.nk &&
  mem.gen.length == b.nk + 1 && mem.exp.length == b.n + 1 && mem.log.length == b.q &&
  entriesBelow b.q mem.data && entriesBelow b.q mem.parity && entriesBelow b.q mem.rx &&
  entriesBelow b.q mem.out && entriesBelow b.n mem.errpos && entriesBelow b.q mem.errval &&
  entriesBelow b.q mem.synd

/-- The tables hold values of their kinds (R53 to R55). -/
def Memory.tablesWf (b : Block) (mem : Memory) : Bool :=
  exponentsBelow b.n mem.gen && mem.exp.all (·.toNat < b.q) && exponentsBelow b.n mem.log

/-- The canonical form: each buffer and table has its length, and each entry that holds a value holds one of its kind. Lists of
fixed length have one form for each content, so equal buffers are equal data. -/
def Memory.wf (b : Block) (mem : Memory) : Bool := mem.buffersWf b && mem.tablesWf b

/-! ## Outside the block -/

/-- What can come to the block from outside (R70, R270). -/
inductive Input where
  /-- A read transaction of `size` bytes at offset `a`. -/
  | read (a : Offset) (size : Nat)
  /-- A write transaction of `size` bytes of the word `w` at offset `a`. -/
  | write (a : Offset) (size : Nat) (w : Word)
  /-- The platform's reset of the block. -/
  | reset
deriving DecidableEq, Repr

/-- The answer to a transaction (R70). -/
structure Response where
  rdata : Word
  err : Bool
deriving DecidableEq, Repr

/-- A fault of the host program, as R43, R73 and R245 name it. The block itself goes on (an unspecified word is returned, the
write set is unspecified, an error response is given), so `step` records the first one in `Env.hostFault` and answers a next
state; `checkedStep` (Safety.lean) stops on it. Log entry 1. -/
inductive Fault where
  /-- A transaction that is not an aligned 32-bit access (R73, R245). Raised by the bus port. Safe: the recorded state is
  exactly the one the spec gives, unchanged but for the error response. -/
  | busError
  /-- A read of an entry that holds no value (R43). Raised by the bus port. Safe: the word read is a free value. -/
  | readNoValue
  /-- A command read an entry that holds no value (R43). Raised by the core step of ENCODE, DECODE and SYNDROME. Safe: the
  whole write set is free. -/
  | commandNoValue
deriving DecidableEq, Repr

/-- Why an instruction has no meaning. Every command has one, so nothing raises this; it is declared because the interface asks
for it. Safe. -/
inductive Refusal where
  | notModelled (mnemonic : String)
deriving DecidableEq, Repr

/-- What stands outside the block, the MODEL's own fields (log entries 1, 3, 5, 7). -/
structure Env where
  /-- Inputs not yet taken, the oldest first: the host issues them one at a time in this order (R81). -/
  inputs : List Input
  /-- The answer to the last transaction; none since reset. -/
  resp : Option Response
  /-- How many more inputs the port takes before the pending command's core step (`CmdLatency`, R284). -/
  wait : Nat
  /-- How many free values have been drawn. -/
  free : Nat
  /-- The first fault of the host program, if there was one. -/
  hostFault : Option Fault
deriving DecidableEq, Repr

/-! ## The state -/

/-- The state. `regs` and `mem` are the architectural state of R32; `block` carries the parameters, which no step changes
("arguments of the model", R32; log entry 9); `env` is the model's own. -/
structure State where
  block : Block
  regs : Regs
  mem : Memory
  env : Env
deriving DecidableEq, Repr

/-- The state right after a reset of a block, with the inputs still to come: the whole architectural state is at the values of
R59, and the latency of the reset-time INIT is drawn (R271, R284). The first host transaction after reset sees the values of R59
(R270), so the port takes at least one input before the core step of this INIT, though R284 lets the latency of an accepted
command be zero transactions. DEDUCED, log entry 15. -/
def State.afterReset (b : Block) (inputs : List Input) (free : Nat) (hostFault : Option Fault) : State :=
  { block := b, regs := Regs.reset, mem := Memory.reset b,
    env := { inputs := inputs, resp := none, wait := Config.cmdLatency free + 1, free := free + 1, hostFault := hostFault } }

/-- The reference block right after reset (R14, R59), with no transaction waiting. -/
def State.reset : State := State.afterReset Block.reference [] 0 none

end Sys2Proof.Machine
end

