-- ==== Sys2Proof/Machine/Flags.lean ====
section
/-! DEFINITION. The words of STATUS, RESULT and the constant registers, and the codes of their fields (R33 to R37, R240). -/

namespace Sys2Proof.Machine

/-- A flag as one bit. -/
def bit (b : Bool) : BitVec 1 := BitVec.ofBool b

/-- STATUS.BUSY (R37): 1 exactly while the sequencer runs a command (R31). -/
def Regs.busy (r : Regs) : Bool :=
  match r.seq with
  | .idle => false
  | .busy _ => true

/-- The code of an error cause in STATUS[7:4] (R240). -/
def ErrCause.code : ErrCause → BitVec 4
  | .noError => 0
  | .illegalCmd => 1
  | .cmdWhileBusy => 2
  | .writeWhileBusy => 3

/-- The code of an outcome in RESULT[2:0] (R36). -/
def DecodeOutcome.code : DecodeOutcome → BitVec 3
  | .notRun => 0
  | .noError => 1
  | .corrected => 2
  | .uncorrHighDegree => 3
  | .uncorrRootMismatch => 4

/-- The word STATUS (R37): `0 | LASTCMD[11:8] | ERRCAUSE[7:4] | 0 | CMD_ERR | READY | BUSY`. -/
def Regs.statusWord (r : Regs) : Word :=
  0#20 ++ opcode r.lastCmd ++ r.errCause.code ++ 0#1 ++ bit r.cmdErr ++ bit r.ready ++ bit r.busy

/-- The word RESULT (R36): `BMSTEPS[31:24] | ROOTCNT[23:16] | LOCDEG[15:8] | 0[7:4] | SYNZERO[3] | OUTCOME[2:0]`. -/
def Result.word (r : Result) : Word :=
  r.bmsteps ++ r.rootcnt ++ r.locdeg ++ 0#4 ++ bit r.synzero ++ r.outcome.code

/-- The word ID (R33): `0x5253` ("RS") and interface version 1. -/
def idWord : Word := 0x52530001

/-- The word CONFIG (R34): `N[31:24] | K[23:16] | T[15:8] | M[7:0]`. -/
def configWord (b : Block) : Word :=
  BitVec.ofNat 8 b.n ++ BitVec.ofNat 8 b.k ++ BitVec.ofNat 8 b.t ++ BitVec.ofNat 8 b.m

/-- The word PRIMPOLY (R35): PP in bits `[M:0]`, zero above. -/
def primpolyWord (b : Block) : Word := BitVec.ofNat 32 b.pp

/-- The flag SYNZERO of a syndrome vector (R36): every syndrome is zero. -/
def allZero (s : List Word) : Bool := s.all (· == 0)

end Sys2Proof.Machine
end

