-- ==== Sys2Proof/Machine/Operands.lean ====
section
/-! DEFINITION. What a transaction addresses: the register map (R75), the valid range of each buffer (R17, R77), and the
entries of the buffers. -/

namespace Sys2Proof.Machine

/-- A host access is legal only if it is 32 bits wide and aligned (R73). -/
def legalAccess (a : Offset) (size : Nat) : Bool := size == 4 && a.toNat % 4 == 0

/-- The first byte offset of a buffer's region (R75). -/
def Buf.base : Buf → Nat
  | .data => 0x0400
  | .parity => 0x0800
  | .rx => 0x0C00
  | .out => 0x1000
  | .errpos => 0x1400
  | .errval => 0x1600
  | .synd => 0x1800
  | .gen => 0x1C00
  | .exp => 0x2000
  | .log => 0x2400

/-- The word slots of a buffer's region (R75). -/
def Buf.slots : Buf → Nat
  | .data => 256
  | .parity => 256
  | .rx => 256
  | .out => 256
  | .errpos => 128
  | .errval => 128
  | .synd => 256
  | .gen => 256
  | .exp => 256
  | .log => 256

/-- The buffers in the order of the register map. -/
def Buf.all : List Buf := [.data, .parity, .rx, .out, .errpos, .errval, .synd, .gen, .exp, .log]

/-- The valid indices of a buffer, as first index and number (R17, R75): all start at 0 but SYND, which starts at 1 (R50). -/
def Buf.valid (b : Block) : Buf → Nat × Nat
  | .data => (0, b.k)
  | .parity => (0, b.nk)
  | .rx => (0, b.n)
  | .out => (0, b.n)
  | .errpos => (0, b.t)
  | .errval => (0, b.t)
  | .synd => (1, b.nk)
  | .gen => (0, b.nk + 1)
  | .exp => (0, b.n + 1)
  | .log => (0, b.q)

/-- What an aligned offset addresses. -/
inductive Target where
  | id
  | config
  | primpoly
  | cmd
  | status
  | result
  /-- The valid entry of a buffer at `slot`, its place in the list that holds it. -/
  | entry (buf : Buf) (slot : Nat)
  /-- A reserved offset or a reserved entry (R77). -/
  | reserved
deriving DecidableEq, Repr

/-- The buffer whose region holds a byte offset, if one does (R75). -/
def bufferAt (a : Nat) : Option Buf :=
  Buf.all.find? fun buf => buf.base ≤ a && a < buf.base + 4 * buf.slots

/-- The register map (R75): what an aligned byte offset addresses in a block. -/
def target (b : Block) (a : Nat) : Target :=
  if a = 0x0000 then .id
  else if a = 0x0004 then .config
  else if a = 0x0008 then .primpoly
  else if a = 0x000C then .cmd
  else if a = 0x0010 then .status
  else if a = 0x0014 then .result
  else match bufferAt a with
    | none => .reserved
    | some buf =>
      let index := (a - buf.base) / 4
      let (first, count) := buf.valid b
      if first ≤ index ∧ index < first + count then .entry buf (index - first) else .reserved

/-- A table entry, which always holds a value. -/
def tableEntry (l : List Word) (slot : Nat) : Entry := some (l.getD slot 0)

/-- The content of a buffer's entry (R78). -/
def Memory.entry (mem : Memory) : Buf → Nat → Entry
  | .data, slot => mem.data.getD slot none
  | .parity, slot => mem.parity.getD slot none
  | .rx, slot => mem.rx.getD slot none
  | .out, slot => mem.out.getD slot none
  | .errpos, slot => mem.errpos.getD slot none
  | .errval, slot => mem.errval.getD slot none
  | .synd, slot => mem.synd.getD slot none
  | .gen, slot => tableEntry mem.gen slot
  | .exp, slot => tableEntry mem.exp slot
  | .log, slot => tableEntry mem.log slot

/-- The buffers in a command's write set, whose entries are unspecified while it runs (R104, R283). -/
def LongOp.writes : LongOp → Buf → Bool
  | .init, buf => buf == .exp || buf == .log || buf == .gen
  | .encode, buf => buf == .parity
  | .decode, buf => buf == .out || buf == .synd || buf == .errpos || buf == .errval
  | .syndrome, buf => buf == .synd

/-- The bits of RESULT in a command's write set, unspecified while it runs (R283). -/
def LongOp.resultBits : LongOp → Word
  | .init => 0
  | .encode => 0
  | .decode => 0xFFFFFFFF
  | .syndrome => 0x00000008

/-- The values of a buffer, if every entry holds one. -/
def allValues : List Entry → Option (List Word)
  | [] => some []
  | none :: _ => none
  | some w :: rest =>
    match allValues rest with
    | none => none
    | some ws => some (w :: ws)

end Sys2Proof.Machine
end

