-- ==== Sys2Proof/Machine/Ops.lean ====
section
/-! DEFINITION. The named operations every meaning is built from: raising and clearing a command error, a bus error, accepting
a command and finishing it, reading and writing the window, drawing free values, and the platform's reset. -/

namespace Sys2Proof.Machine

/-! ## The port: taking an input and answering it -/

/-- The port takes the oldest input; one host step fewer stands before the core step (R81, R222). -/
def State.takeInput (s : State) (rest : List Input) : State :=
  { s with env := { s.env with inputs := rest, wait := s.env.wait - 1 } }

/-- The answer `(rdata, err)` to the transaction (R70). -/
def State.respond (s : State) (rdata : Word) (err : Bool) : State :=
  { s with env := { s.env with resp := some { rdata := rdata, err := err } } }

/-- Record a fault of the host program; the first one stays. Log entry 1. -/
def State.flagHostFault (s : State) (f : Fault) : State :=
  { s with env := { s.env with hostFault := some (s.env.hostFault.getD f) } }

/-- `len` free values have been used. -/
def State.useFree (s : State) (len : Nat) : State :=
  { s with env := { s.env with free := s.env.free + len } }

/-- The answer to a legal write: err = 0 (R76, R77). The spec states no rdata for a write, so it is a free word; log entry 11. -/
def State.acknowledge (s : State) : State := (s.respond (Config.freeWord s.env.free) false).useFree 1

/-- `raise BusError` (R22, R245): err = 1, rdata = 0, no state of the block changes. -/
def State.busError (s : State) : State := (s.respond 0 true).flagHostFault .busError

/-! ## Command errors: raising one, and the return from it -/

/-- `raise CmdError(cause)` (R22, R241): the flag is set, and the cause is recorded only if the flag was clear. This is the
block's whole exception entry: no state is saved and no control is transferred (R251). -/
def State.raiseCmdError (s : State) (cause : ErrCause) : State :=
  { s with regs := { s.regs with
      errCause := if s.regs.cmdErr then s.regs.errCause else cause
      cmdErr := true } }

/-- Clearing the command error, the host's acknowledgement (R226, R252): nothing else is restored. -/
def State.clearCmdError (s : State) : State :=
  { s with regs := { s.regs with cmdErr := false, errCause := .noError } }

/-! ## Accepting and finishing a command -/

/-- An accepted command is recorded in LASTCMD (R224, D41). -/
def State.setLastCmd (s : State) (i : Instr) : State :=
  { s with regs := { s.regs with lastCmd := i } }

/-- Acceptance of a long-running command (R224): LASTCMD, BUSY and SEQ, and READY for INIT; the number of host transactions
before its core step is the free value `CmdLatency` (R284). -/
def State.acceptLong (s : State) (op : LongOp) : State :=
  { s with
    regs := { s.regs with
      lastCmd := op.instr
      seq := .busy op
      ready := s.regs.ready && op != .init }
    env := { s.env with wait := Config.cmdLatency s.env.free, free := s.env.free + 1 } }

/-- The end of a core step (R221): `STATUS.BUSY <- 0` and `SEQ <- Idle`. -/
def State.finish (s : State) : State :=
  { s with regs := { s.regs with seq := .idle } }

/-- A command taken at once (R224, R225, R226): accepted when the block is idle, refused with CMD_WHILE_BUSY when it is not. -/
def runImmediate (effect : State → State) (s : State) : Host.Outcome State Fault Refusal :=
  if s.regs.busy then .next (s.raiseCmdError .cmdWhileBusy) else .next (effect s)

/-- The two moments of a long-running command (R221, R224): its CMD write, accepted when the block is idle, and its core step
when the sequencer runs it. A CMD write while another command runs is refused with CMD_WHILE_BUSY. -/
def runLong (op : LongOp) (completion : State → State) (s : State) : Host.Outcome State Fault Refusal :=
  match s.regs.seq with
  | .idle => .next (s.acceptLong op)
  | .busy running =>
    if running = op then .next (completion s).finish else .next (s.raiseCmdError .cmdWhileBusy)

/-! ## Free values -/

/-- A free word as a symbol: unspecified, but with bits `[31:M]` zero (R41). -/
def freeSymbol (b : Block) (drawn : Nat) : Word := Config.freeWord drawn &&& b.symbolMask

/-- `len` entries of unspecified symbols, the free values from `start` on (R43). -/
def freeSymbols (b : Block) (start len : Nat) : List Entry :=
  (List.range len).map fun j => some (freeSymbol b (start + j))

/-- `len` unspecified buffer indices, each in `[0, N-1]` (R43, R78). -/
def freeIndices (b : Block) (start len : Nat) : List Entry :=
  (List.range len).map fun j => some (BitVec.ofNat 32 ((Config.freeWord (start + j)).toNat % b.n))

/-- An unspecified outcome of a completed DECODE (R43): one of the codes 1 to 4, for NONE says that no DECODE has completed and
the codes 5 to 7 are never produced (R36). -/
def freeOutcome (drawn : Nat) : DecodeOutcome :=
  match (Config.freeWord drawn).toNat % 4 with
  | 0 => .noError
  | 1 => .corrected
  | 2 => .uncorrHighDegree
  | _ => .uncorrRootMismatch

/-- An unspecified flag. -/
def freeFlag (drawn : Nat) : Bool := (Config.freeWord drawn).getLsbD 0

/-- An unspecified count field of RESULT. -/
def freeCount (drawn : Nat) : BitVec 8 := (Config.freeWord drawn).extractLsb' 0 8

/-! ## Host reads -/

/-- What a read finds: the current word, the bits of it that are unspecified, and whether an entry without a value was
addressed. -/
structure Reading where
  word : Word
  unspecified : Word
  noValue : Bool
deriving DecidableEq, Repr

/-- A fully specified word. -/
def Reading.exact (w : Word) : Reading := { word := w, unspecified := 0, noValue := false }

/-- A wholly unspecified word. -/
def Reading.any (noValue : Bool) : Reading := { word := 0, unspecified := 0xFFFFFFFF, noValue := noValue }

/-- The bits of RESULT that are unspecified now (R283). -/
def Regs.resultUnspecified (r : Regs) : Word :=
  match r.seq with
  | .idle => 0
  | .busy op => op.resultBits

/-- The running command writes this buffer, so a read of it is unspecified (R283). -/
def Regs.runningWrites (r : Regs) (buf : Buf) : Bool :=
  match r.seq with
  | .idle => false
  | .busy op => op.writes buf

/-- What a read of a valid entry finds (R43, R78, R283). -/
def State.readEntry (s : State) (buf : Buf) (slot : Nat) : Reading :=
  match s.mem.entry buf slot with
  | none => .any true
  | some w => if s.regs.runningWrites buf then .any false else .exact w

/-- What a read finds at each target of the register map (R227, R77). -/
def State.reading (s : State) : Target → Reading
  | .id => .exact idWord
  | .config => .exact (configWord s.block)
  | .primpoly => .exact (primpolyWord s.block)
  | .cmd => .exact 0
  | .status => .exact s.regs.statusWord
  | .result => { word := s.regs.result.word, unspecified := s.regs.resultUnspecified, noValue := false }
  | .entry buf slot => s.readEntry buf slot
  | .reserved => .exact 0

/-- Answer a read with what it found: unspecified bits come from a free word, a fully specified word uses none. -/
def State.answerRead (s : State) (r : Reading) : State :=
  let answered :=
    if r.unspecified = 0 then s.respond r.word false
    else (s.respond ((r.word &&& ~~~r.unspecified) ||| (Config.freeWord s.env.free &&& r.unspecified)) false).useFree 1
  if r.noValue then answered.flagHostFault .readNoValue else answered

/-- `MemRead(a, size)` (R227): a read changes no state of the block (R74). -/
def State.hostRead (s : State) (a : Offset) (size : Nat) : State :=
  if legalAccess a size then s.answerRead (s.reading (target s.block a.toNat)) else s.busError

/-! ## Host writes -/

/-- Storing a symbol in an entry of DATA (R228): the low M bits (R42). -/
def State.storeData (s : State) (slot : Nat) (w : Word) : State :=
  { s with mem := { s.mem with data := s.mem.data.set slot (some (w &&& s.block.symbolMask)) } }

/-- Storing a symbol in an entry of RX (R228): the low M bits (R42). -/
def State.storeRx (s : State) (slot : Nat) (w : Word) : State :=
  { s with mem := { s.mem with rx := s.mem.rx.set slot (some (w &&& s.block.symbolMask)) } }

/-- A write to a valid DATA or RX entry (R228): stored when the block is idle, dropped with WRITE_WHILE_BUSY when it is busy
(R244, R281). -/
def State.writeInput (s : State) (store : State → State) : State :=
  if s.regs.busy then s.raiseCmdError .writeWhileBusy else store s

/-- A legal write anywhere but CMD (R228, R229): only valid DATA and RX entries store; every other write is ignored
(R76, R77). -/
def State.hostStore (s : State) (w : Word) : Target → State
  | .entry .data slot => s.writeInput (·.storeData slot w)
  | .entry .rx slot => s.writeInput (·.storeRx slot w)
  | .entry .parity _ => s
  | .entry .out _ => s
  | .entry .errpos _ => s
  | .entry .errval _ => s
  | .entry .synd _ => s
  | .entry .gen _ => s
  | .entry .exp _ => s
  | .entry .log _ => s
  | .id => s
  | .config => s
  | .primpoly => s
  | .cmd => s
  | .status => s
  | .result => s
  | .reserved => s

/-! ## Reset -/

/-- The platform's reset (R270): every piece of architectural state is replaced, a pending command is abandoned, and the
reset-time INIT is pending. The block's parameters stay, and so do the model's record of a host fault and the inputs still
to come. -/
def State.platformReset (s : State) (rest : List Input) : State :=
  State.afterReset s.block rest s.env.free s.env.hostFault

end Sys2Proof.Machine
end

