-- ==== Sys2Proof/Machine/Control.lean ====
section
/-! DEFINITION. The two immediate commands, NOP and CLRERR (R225, R226). -/

namespace Sys2Proof.Machine

/-- NOP (R225): LASTCMD records it, nothing else happens. -/
def execNop (s : State) : Host.Outcome State Fault Refusal :=
  runImmediate (fun s => s.setLastCmd .nop) s

/-- CLRERR (R226): LASTCMD records it, CMD_ERR and ERRCAUSE are cleared. -/
def execClrerr (s : State) : Host.Outcome State Fault Refusal :=
  runImmediate (fun s => (s.setLastCmd .clrerr).clearCmdError) s

end Sys2Proof.Machine
end

