-- ==== Sys2Proof/Machine/Field.lean ====
section
/-! DEFINITION. The field family: arithmetic over the tables (R125 to R130), the generator polynomial (R132 to R136), and the
meaning of INIT (R140). -/

namespace Sys2Proof.Machine

/-- The tables the arithmetic reads, and `N`, the modulus of every exponent (R23, R130). -/
structure Field where
  n : Nat
  exp : List Word
  log : List Word
deriving DecidableEq, Repr

/-- The tables a block's INIT builds (R121, R122). -/
def buildField (p : Params) : Field :=
  { n := p.n, exp := buildExp p, log := buildLog p (buildExp p) }

/-- The tables as State holds them. -/
def State.field (s : State) : Field := { n := s.block.n, exp := s.mem.exp, log := s.mem.log }

/-! ## Arithmetic -/

/-- Addition is XOR (R125). -/
def gfAdd (a b : Word) : Word := a ^^^ b

/-- `LOG[a]` as an integer (R129); no rule uses it for `a = 0`. -/
def Field.logOf (f : Field) (a : Word) : Nat := (f.log.getD a.toNat 0).toNat

/-- `gf_pow(e) = EXP[e mod N]` for every integer `e` (R128). -/
def Field.pow (f : Field) (e : Int) : Word := f.exp.getD (e % (f.n : Int)).toNat 0

/-- Multiplication: the sum of the logarithms modulo N (R126). -/
def Field.mul (f : Field) (a b : Word) : Word :=
  if a = 0 ∨ b = 0 then 0 else f.pow ((f.logOf a : Int) + f.logOf b)

/-- Division: the difference of the logarithms modulo N (R127). A quotient by zero is never evaluated and "has no value": a
free symbol stands there, log entry 8. -/
def Field.div (f : Field) (a b : Word) : Word :=
  if b = 0 then Config.divByZero a &&& BitVec.ofNat 32 f.n
  else if a = 0 then 0
  else f.pow ((f.logOf a : Int) - f.logOf b)

/-- `eval(P, x)` for the coefficient list `P`, constant term first (R24), by Horner's scheme. -/
def Field.eval (f : Field) : List Word → Word → Word
  | [], _ => 0
  | c :: rest, x => c ^^^ f.mul x (f.eval rest x)

/-! ## The generator polynomial -/

/-- `EXP[(LOG[g] + i) mod N]`, the product of `g` by `alpha^i`, or 0 for a zero coefficient (R133). -/
def Field.scale (f : Field) (i : Nat) (g : Word) : Word :=
  if g = 0 then 0 else f.pow ((f.logOf g : Int) + i)

/-- One pass of R133: the coefficients of `(x + alpha^i) * G`, constant term first. The new `G[j]` is `G[j-1]` plus
`alpha^i * G[j]`; at the two ends the missing term is 0. -/
def Field.timesFactor (f : Field) (g : List Word) (i : Nat) : List Word :=
  List.zipWith gfAdd (0 :: g) (g.map (f.scale i) ++ [0])

/-- The generator in element form, `G[0..NK]` (R133): `x + alpha^1`, then the factors `x + alpha^2` to `x + alpha^NK`. -/
def Field.generator (f : Field) (nk : Nat) : List Word :=
  (List.range' 2 (nk - 1)).foldl f.timesFactor [f.pow 1, 1]

/-- A coefficient in exponent form (R136): UNDEF for zero. -/
def Field.toExponent (f : Field) (g : Word) : Word := if g = 0 then undef else BitVec.ofNat 32 (f.logOf g)

/-- The table GEN[0..NK] (R136). -/
def buildGen (p : Params) : List Word :=
  let f := buildField p
  (f.generator p.nk).map f.toExponent

/-! ## INIT -/

/-- The three tables of a block in place of what stood there (R140). -/
def State.buildTables (s : State) : State :=
  { s with
    regs := { s.regs with ready := true }
    mem := { s.mem with
      exp := buildExp s.block.toParams
      log := buildLog s.block.toParams (buildExp s.block.toParams)
      gen := buildGen s.block.toParams } }

/-- INIT (R140): at its CMD write READY falls and the block is busy; at its core step the tables and the generator are built
and READY rises. -/
def execInit (s : State) : Host.Outcome State Fault Refusal := runLong .init State.buildTables s

end Sys2Proof.Machine
end

