-- ==== Sys2Proof/Machine/Encoder.lean ====
section
/-! DEFINITION. The systematic encoder (R150, R151) and the meaning of ENCODE (R152). -/

namespace Sys2Proof.Machine

/-- What a generator coefficient in exponent form injects for the feedback exponent `fe` (R152): nothing for UNDEF. -/
def Field.inject (f : Field) (fe : Nat) (g : Word) : Word :=
  if g = undef then 0 else f.pow ((g.toNat : Int) + fe)

/-- One data symbol `d` through the feedback shift register (R152). The list is `REG[0..NK-1]`; its last position feeds back,
and `gen` is `GEN[0..NK-1]`. -/
def Field.shiftRegister (f : Field) (gen : List Word) (reg : List Word) (d : Word) : List Word :=
  let fb := d ^^^ reg.getLastD 0
  if fb = 0 then 0 :: reg.dropLast
  else List.zipWith gfAdd (0 :: reg.dropLast) (gen.map (f.inject (f.logOf fb)))

/-- The parity of the data symbols: the register starts at zero, takes the symbols first to last, and is read out from its
last position (R150, R151, R152). -/
def Field.parity (f : Field) (gen : List Word) (nk : Nat) (data : List Word) : List Word :=
  (data.foldl (f.shiftRegister (gen.take nk)) (List.replicate nk 0)).reverse

/-- The core step of ENCODE (R152): PARITY from DATA. If some entry of DATA holds no value, PARITY is unspecified (R43). -/
def State.encodeData (s : State) : State :=
  match allValues s.mem.data with
  | some data =>
    { s with mem := { s.mem with parity := (s.field.parity s.mem.gen s.block.nk data).map some } }
  | none =>
    ({ s with mem := { s.mem with parity := freeSymbols s.block s.env.free s.block.nk } }.useFree
      s.block.nk).flagHostFault .commandNoValue

/-- ENCODE (R152): at its CMD write the block is busy; at its core step PARITY is written. -/
def execEncode (s : State) : Host.Outcome State Fault Refusal := runLong .encode State.encodeData s

end Sys2Proof.Machine
end

