-- ==== Sys2Proof/Machine/Decoder.lean ====
section
/-! DEFINITION. The decoder (R170 to R203): syndromes, Berlekamp-Massey, root search, Forney's correction, and the meanings of
DECODE (R200) and SYNDROME (R201). -/

namespace Sys2Proof.Machine

/-- Coefficient `i` of a polynomial, zero above its list. -/
def coeff (poly : List Word) (i : Nat) : Word := poly.getD i 0

/-- The syndrome `S_i` for `i >= 1`; the list holds `S_1` first (R170). -/
def syndromeAt (synd : List Word) (i : Nat) : Word := synd.getD (i - 1) 0

/-! ## SyndromeComputation -/

/-- The syndrome `S_i` of a received word (R172): entry `s` stands at position `N-1-s` (R45). -/
def Field.syndrome (f : Field) (rx : List Word) (i : Nat) : Word :=
  xorSum f.n fun s => f.mul (rx.getD s 0) (f.pow (i * (f.n - 1 - s) : Nat))

/-- The syndromes `S_1 .. S_NK` (R172). -/
def Field.syndromes (f : Field) (nk : Nat) (rx : List Word) : List Word :=
  (List.range nk).map fun j => f.syndrome rx (j + 1)

/-! ## BerlekampMassey -/

/-- A row of the iteration (R170, R176): its discrepancy, its locator (constant term first), its degree and its
step-minus-degree value. -/
structure BmRow where
  d : Word
  sigma : List Word
  l : Nat
  ul : Int
deriving DecidableEq, Repr

/-- Row `r` of the rows written so far. -/
def rowAt (rows : List BmRow) (r : Nat) : BmRow := rows.getD r { d := 0, sigma := [], l := 0, ul := 0 }

/-- The two start rows (R177); a locator has `NK+1` coefficients. -/
def startRows (synd : List Word) (nk : Nat) : List BmRow :=
  let one := 1 :: List.replicate nk 0
  [{ d := 1, sigma := one, l := 0, ul := -1 }, { d := syndromeAt synd 1, sigma := one, l := 0, ul := 0 }]

/-- The latest row at or before `q` with a nonzero discrepancy, row 0 at the last (R179, the `while` loop). -/
def latestNonzero (rows : List BmRow) : Nat → Nat
  | 0 => 0
  | q + 1 => if (rowAt rows (q + 1)).d = 0 then latestNonzero rows q else q + 1

/-- Scanning back over the rows below `j`: a row with a nonzero discrepancy and a strictly larger step-minus-degree
replaces `q` (R179, the `repeat` loop; ties keep the later row, D20). -/
def improveRow (rows : List BmRow) (q : Nat) : Nat → Nat
  | 0 => q
  | j + 1 =>
    if (rowAt rows j).d ≠ 0 ∧ (rowAt rows q).ul < (rowAt rows j).ul then improveRow rows j j
    else improveRow rows q j

/-- The selected row `q` of step `u` (R179). -/
def selectRow (rows : List BmRow) (u : Nat) : Nat :=
  let q := latestNonzero rows (u - 1)
  improveRow rows q q

/-- The new locator of step `u` from the row `q` (R181): the shifted copy of row q's locator scaled by `d[u] / d[q]`, plus
the locator of row u. -/
def Field.newLocator (f : Field) (nk u q : Nat) (rowU rowQ : BmRow) : List Word :=
  (List.range (nk + 1)).map fun i =>
    (if u - q ≤ i ∧ i - (u - q) ≤ rowQ.l then
      f.mul (f.div rowU.d rowQ.d) (coeff rowQ.sigma (i - (u - q))) else 0) ^^^
    (if i ≤ rowU.l then coeff rowU.sigma i else 0)

/-- The next discrepancy (R183), for a locator of degree at most `l` after step `u`. -/
def Field.discrepancy (f : Field) (synd : List Word) (u l : Nat) (sigma : List Word) : Word :=
  syndromeAt synd (u + 1) ^^^
    xorSum l fun j => f.mul (syndromeAt synd (u + 1 - (j + 1))) (coeff sigma (j + 1))

/-- Step `u` (R178 to R183): the row `u+1` from the rows `0 .. u`. The discrepancy is computed only when `u < NK` (R183); the
last row's is never read. -/
def Field.bmStep (f : Field) (nk : Nat) (synd : List Word) (rows : List BmRow) (u : Nat) : BmRow :=
  let rowU := rowAt rows u
  let q := selectRow rows u
  let rowQ := rowAt rows q
  let l := if rowU.d = 0 then rowU.l else max rowU.l (rowQ.l + u - q)
  let sigma := if rowU.d = 0 then rowU.sigma else f.newLocator nk u q rowU rowQ
  { d := if u < nk then f.discrepancy synd u l sigma else 0, sigma := sigma, l := l, ul := (u : Int) - l }

/-- Steps `u`, `u+1`, … while `u < NK` and the new degree is at most `T` (R184); `fuel` bounds the steps still allowed. -/
def Field.bmLoop (f : Field) (nk t : Nat) (synd : List Word) : Nat → List BmRow → Nat → List BmRow
  | 0, rows, _ => rows
  | fuel + 1, rows, u =>
    let row := f.bmStep nk synd rows u
    if u < nk ∧ row.l ≤ t then f.bmLoop nk t synd fuel (rows ++ [row]) (u + 1) else rows ++ [row]

/-- What the iteration ends with (R184): the final locator, its degree `L`, and the number of steps executed. -/
structure Locator where
  sigma : List Word
  l : Nat
  steps : Nat
deriving DecidableEq, Repr

/-- The whole Berlekamp-Massey iteration (R185). -/
def Field.berlekampMassey (f : Field) (nk t : Nat) (synd : List Word) : Locator :=
  let rows := f.bmLoop nk t synd nk (startRows synd nk) 1
  let last := rowAt rows (rows.length - 1)
  { sigma := last.sigma, l := last.l, steps := rows.length - 2 }

/-! ## RootSearch -/

/-- The value of the locator at `alpha^i`, its constant term being 1 (R188). -/
def Field.locatorValue (f : Field) (loc : Locator) (i : Nat) : Word :=
  1 ^^^ xorSum loc.l fun j => f.mul (coeff loc.sigma (j + 1)) (f.pow (i * (j + 1) : Nat))

/-- The exponents `1 .. N` at which the locator is zero, ascending (R188). -/
def Field.roots (f : Field) (loc : Locator) : List Nat :=
  (List.range' 1 f.n).filter fun i => f.locatorValue loc i == 0

/-- The buffer index of the position a root marks: `loc = N - i` and `s = N-1-loc` (R189). -/
def Field.rootIndex (f : Field) (i : Nat) : Nat := f.n - 1 - (f.n - i)

/-! ## ErrorCorrection -/

/-- Coefficient `i` of the evaluator polynomial (R195). -/
def Field.evaluator (f : Field) (synd : List Word) (loc : Locator) (i : Nat) : Word :=
  if i = 0 then 1
  else (syndromeAt synd i ^^^ coeff loc.sigma i) ^^^
    xorSum (i - 1) fun j => f.mul (syndromeAt synd (j + 1)) (coeff loc.sigma (i - (j + 1)))

/-- The numerator at a root (R196). -/
def Field.numerator (f : Field) (synd : List Word) (loc : Locator) (root : Nat) : Word :=
  1 ^^^ xorSum loc.l fun j => f.mul (f.evaluator synd loc (j + 1)) (f.pow ((j + 1) * root : Nat))

/-- The denominator at the root with place `c` in the list of roots (R197): the product over the other roots of
`1 + alpha^(loc[j] + root[c])`, with `loc[j] = N - root[j]`. -/
def Field.denominator (f : Field) (roots : List Nat) (c : Nat) : Word :=
  (List.range roots.length).foldl
    (fun product j =>
      if j = c then product
      else f.mul product (1 ^^^ f.pow ((f.n - roots.getD j 0) + roots.getD c 0 : Nat))) 1

/-- The magnitude at the root with place `c` (R198): zero for a zero numerator (D21). -/
def Field.magnitude (f : Field) (synd : List Word) (loc : Locator) (roots : List Nat) (c : Nat) : Word :=
  let num := f.numerator synd loc (roots.getD c 0)
  if num = 0 then 0 else f.div num (f.denominator roots c)

/-- The magnitudes at all the roots, in their order (R198). -/
def Field.magnitudes (f : Field) (synd : List Word) (loc : Locator) (roots : List Nat) : List Word :=
  (List.range roots.length).map (f.magnitude synd loc roots)

/-- XOR a magnitude into one entry of a word (R198). -/
def correctEntry (w : List Word) (fix : Nat × Word) : List Word := w.set fix.1 (w.getD fix.1 0 ^^^ fix.2)

/-- The corrected word (R198): each magnitude XORed into the entry its root marks. -/
def Field.correct (f : Field) (rx : List Word) (roots : List Nat) (mags : List Word) : List Word :=
  ((roots.map f.rootIndex).zip mags).foldl correctEntry rx

/-! ## DECODE -/

/-- A list cut or filled with zeros to `len` entries: the unused entries of ERRPOS and ERRVAL are 0 (R51, R52). -/
def padded (len : Nat) (l : List Word) : List Word := (l ++ List.replicate len 0).take len

/-- What a DECODE writes (R200). -/
structure Decoded where
  synd : List Word
  outcome : DecodeOutcome
  l : Nat
  count : Nat
  steps : Nat
  errpos : List Word
  errval : List Word
  out : List Word
deriving DecidableEq, Repr

/-- The decoder (R171, R200): the four outcomes in their order (R249), each with the fields of R203. -/
def Field.decodeWord (f : Field) (nk t : Nat) (rx : List Word) : Decoded :=
  let synd := f.syndromes nk rx
  let zeros := List.replicate t 0
  if allZero synd then
    { synd := synd, outcome := .noError, l := 0, count := 0, steps := 0, errpos := zeros, errval := zeros, out := rx }
  else
    let loc := f.berlekampMassey nk t synd
    if t < loc.l then
      { synd := synd, outcome := .uncorrHighDegree, l := loc.l, count := 0, steps := loc.steps, errpos := zeros,
        errval := zeros, out := rx }
    else
      let roots := f.roots loc
      let errpos := padded t (roots.map fun i => BitVec.ofNat 32 (f.rootIndex i))
      if roots.length ≠ loc.l then
        { synd := synd, outcome := .uncorrRootMismatch, l := loc.l, count := roots.length, steps := loc.steps,
          errpos := errpos, errval := zeros, out := rx }
      else
        let mags := f.magnitudes synd loc roots
        { synd := synd, outcome := .corrected, l := loc.l, count := roots.length, steps := loc.steps,
          errpos := errpos, errval := padded t mags, out := f.correct rx roots mags }

/-- RESULT after a DECODE (R36, R200). -/
def Decoded.result (r : Decoded) : Result :=
  { outcome := r.outcome, synzero := allZero r.synd, locdeg := BitVec.ofNat 8 r.l, rootcnt := BitVec.ofNat 8 r.count,
    bmsteps := BitVec.ofNat 8 r.steps }

/-- The write set of a DECODE whose input is complete (R200). -/
def State.storeDecoded (s : State) (r : Decoded) : State :=
  { s with
    regs := { s.regs with result := r.result }
    mem := { s.mem with
      out := r.out.map some
      synd := r.synd.map some
      errpos := r.errpos.map some
      errval := r.errval.map some } }

/-- The write set of a DECODE on an entry that holds no value: all of it unspecified (R43), each part from free values of
its own. -/
def State.storeUnspecified (s : State) : State :=
  let b := s.block
  let drawn := s.env.free
  { s with
    regs := { s.regs with result :=
      { outcome := freeOutcome drawn, synzero := freeFlag (drawn + 1), locdeg := freeCount (drawn + 2),
        rootcnt := freeCount (drawn + 3), bmsteps := freeCount (drawn + 4) } }
    mem := { s.mem with
      out := freeSymbols b (drawn + 5) b.n
      synd := freeSymbols b (drawn + 5 + b.n) b.nk
      errpos := freeIndices b (drawn + 5 + b.n + b.nk) b.t
      errval := freeSymbols b (drawn + 5 + b.n + b.nk + b.t) b.t } }

/-- The core step of DECODE (R200). RX is read and never written (R48). -/
def State.decodeRx (s : State) : State :=
  match allValues s.mem.rx with
  | some rx => s.storeDecoded (s.field.decodeWord s.block.nk s.block.t rx)
  | none => (s.storeUnspecified.useFree (5 + s.block.n + s.block.nk + s.block.t + s.block.t)).flagHostFault .commandNoValue

/-- DECODE (R200): at its CMD write the block is busy; at its core step OUT, SYND, ERRPOS, ERRVAL and RESULT are written. -/
def execDecode (s : State) : Host.Outcome State Fault Refusal := runLong .decode State.decodeRx s

/-! ## SYNDROME -/

/-- The write set of SYNDROME (R201): SYND and RESULT.SYNZERO, the other fields of RESULT keeping their values. -/
def State.storeSyndromes (s : State) (synd : List Entry) (synzero : Bool) : State :=
  { s with
    regs := { s.regs with result := { s.regs.result with synzero := synzero } }
    mem := { s.mem with synd := synd } }

/-- The core step of SYNDROME (R201). If some entry of RX holds no value, SYND and SYNZERO are unspecified (R43). -/
def State.syndromeRx (s : State) : State :=
  match allValues s.mem.rx with
  | some rx =>
    let synd := s.field.syndromes s.block.nk rx
    s.storeSyndromes (synd.map some) (allZero synd)
  | none =>
    ((s.storeSyndromes (freeSymbols s.block (s.env.free + 1) s.block.nk) (freeFlag s.env.free)).useFree
      (1 + s.block.nk)).flagHostFault .commandNoValue

/-- SYNDROME (R201): at its CMD write the block is busy; at its core step SYND and RESULT.SYNZERO are written. -/
def execSyndrome (s : State) : Host.Outcome State Fault Refusal := runLong .syndrome State.syndromeRx s

end Sys2Proof.Machine
end

