-- ==== Sys2Proof/Machine/Dispatch.lean ====
section
/-! DEFINITION. One arm per command. `exec i s` is what the command `i` does in the state `s`: on an idle block, its CMD write
(R224); on a block whose sequencer runs `i`, its core step (R221). -/

namespace Sys2Proof.Machine

def exec (i : Instr) (s : State) : Host.Outcome State Fault Refusal :=
  match i with
  | .nop => Sys2Proof.Machine.execNop s
  | .init => Sys2Proof.Machine.execInit s
  | .encode => Sys2Proof.Machine.execEncode s
  | .decode => Sys2Proof.Machine.execDecode s
  | .syndrome => Sys2Proof.Machine.execSyndrome s
  | .clrerr => Sys2Proof.Machine.execClrerr s

end Sys2Proof.Machine
end

