-- ==== Sys2Proof/Machine/Port.lean ====
section
/-! DEFINITION. The two agents' steps (R220): the core step of the sequencer (R221) and one transaction of the host, a CMD write
among them (R223, R224). -/

namespace Sys2Proof.Machine

/-- A write of `w` to CMD (R224): refused while busy, whatever the word is; otherwise an illegal word raises ILLEGAL_CMD and a
legal one is run. -/
def writeCmd (w : Word) (s : State) : Host.Outcome State Fault Refusal :=
  if s.regs.busy then .next (s.raiseCmdError .cmdWhileBusy)
  else match decode w with
    | .error _ => .next (s.raiseCmdError .illegalCmd)
    | .ok i => exec i s

/-- `MemWrite(a, size, w)` (R228, R229): checked for a bus error first (R249), then CMD or a store. A legal write is answered
with err = 0. -/
def hostWrite (a : Offset) (size : Nat) (w : Word) (s : State) : Host.Outcome State Fault Refusal :=
  if legalAccess a size then
    match target s.block a.toNat with
    | .cmd => writeCmd w s.acknowledge
    | other => .next (s.acknowledge.hostStore w other)
  else .next s.busError

/-- One step of the host, or the platform's reset: the port takes the input and serves it. -/
def hostStep (input : Input) (rest : List Input) (s : State) : Host.Outcome State Fault Refusal :=
  match input with
  | .read a size => .next ((s.takeInput rest).hostRead a size)
  | .write a size w => hostWrite a size w (s.takeInput rest)
  | .reset => .next (s.platformReset rest)

/-- The core step (R221), enabled exactly when the sequencer runs a command: that command's completion. -/
def coreStep (s : State) : Host.Outcome State Fault Refusal :=
  match s.regs.seq with
  | .idle => .next s
  | .busy op => exec op.instr s

/-- The sequencer moves next (R222, R284): a command is pending, and either its latency has run out or no input is left
before it. -/
def State.coreMoves (s : State) : Bool := s.regs.busy && (s.env.inputs.isEmpty || s.env.wait == 0)

/-- The pending command completed, if there is one; the block is then idle. -/
def State.settled (s : State) : State :=
  match coreStep s with
  | .next t => t
  | .fault _ => s
  | .refused _ => s

/-- The offset of CMD (R75). -/
def cmdOffset : Offset := 0x000C

end Sys2Proof.Machine
end

