-- ==== Sys2Proof/Machine/Step.lean ====
section
/-! DEFINITION. One step of the machine: the agent whose turn it is moves (R4, R220, R222). -/

namespace Sys2Proof.Machine

/-- One step. The sequencer completes its command when it is its turn; otherwise the port takes the host's oldest input; with
no input and no pending command the block stays idle (R259). -/
def step (s : State) : Host.Outcome State Fault Refusal :=
  if s.coreMoves then coreStep s
  else match s.env.inputs with
    | [] => .next s
    | input :: rest => hostStep input rest s

/-- The block idle (a pending command, such as the reset-time INIT, completed) with the CMD write of a table word as the host's
next transaction: the very next step runs that word. Log entry 10. -/
def State.withFetchWord (s : State) (nbits w : Nat) : State :=
  { s.settled with env := { s.settled.env with
      inputs := .write cmdOffset 4 (BitVec.ofNat 32 (w % 2 ^ nbits)) :: s.settled.env.inputs } }

end Sys2Proof.Machine
end

