-- ==== Sys2Proof/Safety.lean ====
section
/-! DEFINITION. The terms claims are made in: runs, the invariant of the machine, and safe runs (no fault of the host program). -/

namespace Sys2Proof.Machine

/-- `t` follows from `s` by some number of steps. -/
inductive Reaches (s : State) : State → Prop where
  | refl : Reaches s s
  | tail {t u : State} (h : Reaches s t) (hstep : step t = .next u) : Reaches s u

/-- What accepting a command leaves (R224). -/
def accepted (i : Instr) (s : State) : State :=
  match i with
  | .nop => s.setLastCmd .nop
  | .init => s.acceptLong .init
  | .encode => s.acceptLong .encode
  | .decode => s.acceptLong .decode
  | .syndrome => s.acceptLong .syndrome
  | .clrerr => (s.setLastCmd .clrerr).clearCmdError

/-- The write set a core step fills in, before BUSY falls (R221). -/
def completion (op : LongOp) (s : State) : State :=
  match op with
  | .init => s.buildTables
  | .encode => s.encodeData
  | .decode => s.decodeRx
  | .syndrome => s.syndromeRx

/-- The tables are the ones INIT builds for the block (R121, R122, R136). -/
def State.TablesBuilt (s : State) : Prop :=
  s.mem.exp = buildExp s.block.toParams ∧
  s.mem.log = buildLog s.block.toParams (buildExp s.block.toParams) ∧
  s.mem.gen = buildGen s.block.toParams

/-- No entry holds a value. -/
def NoValues (l : List Entry) : Prop := ∀ e ∈ l, e = none

/-- Every entry holds a value. -/
def AllHold (l : List Entry) : Prop := ∀ e ∈ l, e ≠ none

/-- The invariant of the machine: it holds after reset and every step keeps it. -/
structure State.Inv (s : State) : Prop where
  /-- The buffers and tables have their lengths and the buffers' entries are of their kinds (R17, R41). The tables' contents are
  the built ones whenever READY is 1 (`readyTables`); before that R59 leaves them unspecified. -/
  buffersWf : s.mem.buffersWf s.block = true
  /-- READY is 0 exactly while an INIT is in progress (R37, R39). -/
  notReadyIffInit : s.regs.ready = false ↔ s.regs.seq = .busy .init
  /-- CMD_ERR is clear exactly when ERRCAUSE is 0 (R39). -/
  clearIffNoCause : s.regs.cmdErr = false ↔ s.regs.errCause = .noError
  /-- LASTCMD is the running command (R31). -/
  lastCmdRuns : ∀ op, s.regs.seq = .busy op → s.regs.lastCmd = op.instr
  /-- When READY is 1 the tables are built (R37, R56). -/
  readyTables : s.regs.ready = true → s.TablesBuilt
  /-- OUTCOME is NONE exactly as long as no DECODE has written OUT, ERRPOS and ERRVAL (R36, R43). -/
  notRunNoValues : s.regs.result.outcome = .notRun →
    NoValues s.mem.out ∧ NoValues s.mem.errpos ∧ NoValues s.mem.errval
  /-- After a DECODE every entry of its write set holds a value (R44, R273). -/
  runAllHold : s.regs.result.outcome ≠ .notRun →
    AllHold s.mem.out ∧ AllHold s.mem.errpos ∧ AllHold s.mem.errval ∧ AllHold s.mem.synd

/-- The host program has made no fault so far. -/
def State.Clean (s : State) : Prop := s.env.hostFault = none

/-- The step that stops on a fault of the host program, the treatment R43, R73 and R245 ask of a model: it answers that fault
where `step` records it and goes on. -/
def checkedStep (s : State) : Host.Outcome State Fault Refusal :=
  match step s with
  | .next t =>
    match t.env.hostFault with
    | none => .next t
    | some f => .fault f
  | .fault f => .fault f
  | .refused r => .refused r

/-- The next input is one of the host's transactions, not a reset of the platform. -/
def Input.isTransaction : Input → Bool
  | .read _ _ => true
  | .write _ _ _ => true
  | .reset => false

/-- `t` follows from `s` by host transactions alone: the sequencer has not moved and no reset has come. -/
inductive Waits (s : State) : State → Prop where
  | refl : Waits s s
  | tail {t u : State} {input : Input} {rest : List Input} (h : Waits s t) (hm : t.coreMoves = false)
      (hi : t.env.inputs = input :: rest) (ht : input.isTransaction = true) (hstep : step t = .next u) : Waits s u

/-- The buffer whose entries a command reads (R104). -/
def LongOp.source (op : LongOp) (mem : Memory) : List Entry :=
  match op with
  | .init => []
  | .encode => mem.data
  | .decode => mem.rx
  | .syndrome => mem.rx

/-- Every buffer and table, every register and the parameters are the same: all the state of the spec (R32). -/
def SameArch (s t : State) : Prop := t.block = s.block ∧ t.regs = s.regs ∧ t.mem = s.mem

end Sys2Proof.Machine
end

