-- ==== Sys2Proof/Certificates/Slice0/Obligations.lean ====
section
/-! DEFINITION. The statements for the provers. Each docstring names the rule of the spec it formalises; what a statement says
about a choice of the model names the log entry. -/

open Sys2Proof Sys2Proof.Machine

/-! ## Encoding -/

/-- R102: each legal command has exactly one word, and the decoder reads it back. -/
def Obligations.EachCommandHasExactlyOneWord : Prop :=
  (∀ i : Instr, i.wf = true → decode (encode i) = .ok i) ∧
  (∀ (w : Word) (i : Instr), decode w = .ok i → w = encode i)

/-- R101, R103: a word is illegal exactly when a reserved bit is set or the opcode is one of 6 to 15. -/
def Obligations.IllegalWordsAreTheReservedOnes : Prop :=
  ∀ w : Word, (∃ e, decode w = .error e) ↔ (w.extractLsb' 4 28 ≠ 0 ∨ 6 ≤ (w.extractLsb' 0 4).toNat)

/-- R102: the six words of the opcode table, and three neighbours that are no command. -/
def Obligations.OpcodeTableWordsDecode : Prop :=
  decode 0x00000000 = .ok .nop ∧ decode 0x00000001 = .ok .init ∧ decode 0x00000002 = .ok .encode ∧
  decode 0x00000003 = .ok .decode ∧ decode 0x00000004 = .ok .syndrome ∧ decode 0x00000005 = .ok .clrerr ∧
  decode 0x00000006 = .error .reservedOpcode ∧ decode 0x00000010 = .error .reservedBits ∧
  decode 0x80000003 = .error .reservedBits

/-! ## Steps -/

/-- R221, R223, R224: on an idle block, a step that takes a legal CMD write runs that command on the state with the write taken
and answered (err = 0, and a free word as its rdata, log entry 11); at the sequencer's turn, a step runs the pending command. -/
def Obligations.StepRunsTheDecodedCommand : Prop :=
  (∀ (s : State) (w : Word) (i : Instr) (rest : List Input),
    s.regs.seq = .idle → s.env.inputs = .write 0x000C 4 w :: rest → decode w = .ok i →
    step s = exec i (s.takeInput rest).acknowledge) ∧
  (∀ (s : State) (op : LongOp), s.coreMoves = true → s.regs.seq = .busy op → step s = exec op.instr s)

/-- R84, R251: no step stops; the block has no trap and every command runs to completion. -/
def Obligations.EveryStepAnswersANextState : Prop := ∀ s : State, ∃ t, step s = .next t

/-- R221, R224: every command on every state answers a next state, and which one: the accepted state on an idle block, the
completed state when the sequencer runs that command, the refused write (CMD_WHILE_BUSY) when it runs another. -/
def Obligations.EveryCommandAnswersANextState : Prop :=
  ∀ (i : Instr) (s : State),
    (s.regs.seq = .idle → exec i s = .next (accepted i s)) ∧
    (∀ op, s.regs.seq = .busy op → op.instr = i → exec i s = .next (completion op s).finish) ∧
    (∀ op, s.regs.seq = .busy op → op.instr ≠ i → exec i s = .next (s.raiseCmdError .cmdWhileBusy))

/-! ## NOP and CLRERR -/

/-- R225: NOP, the word 0, records itself in LASTCMD and does nothing else; while busy it is CMD_WHILE_BUSY; a word with OP = 0 and
a reserved bit set is no NOP but illegal. -/
def Obligations.NopOnlyRecordsItself : Prop :=
  encode .nop = 0x00000000 ∧
  (∀ w : Word, w.extractLsb' 0 4 = 0 → w.extractLsb' 4 28 ≠ 0 → ∃ e, decode w = .error e) ∧
  (∀ s : State, s.regs.seq = .idle → exec .nop s = .next { s with regs := { s.regs with lastCmd := .nop } }) ∧
  (∀ (s : State) (op : LongOp), s.regs.seq = .busy op →
    exec .nop s = .next { s with regs := { s.regs with
      cmdErr := true, errCause := if s.regs.cmdErr then s.regs.errCause else .cmdWhileBusy } })

/-- R226: CLRERR records itself and clears CMD_ERR and ERRCAUSE; while busy it is CMD_WHILE_BUSY and clears nothing; no other
command clears CMD_ERR, and the platform's reset does; the rule's worked example takes STATUS from 0x216 to 0x502. -/
def Obligations.ClrerrClearsTheCommandError : Prop :=
  encode .clrerr = 0x00000005 ∧
  (∀ (i : Instr) (s t : State), i ≠ .clrerr → exec i s = .next t → s.regs.cmdErr = true → t.regs.cmdErr = true) ∧
  (∀ (s : State) (rest : List Input), (s.platformReset rest).regs.cmdErr = false) ∧
  (∀ s : State, s.regs.seq = .idle → s.regs.statusWord = 0x00000216 →
    ∃ t, exec .clrerr s = .next t ∧ t.regs.statusWord = 0x00000502) ∧
  (∀ s : State, s.regs.seq = .idle →
    exec .clrerr s = .next { s with regs := { s.regs with lastCmd := .clrerr, cmdErr := false, errCause := .noError } }) ∧
  (∀ (s : State) (op : LongOp), s.regs.seq = .busy op →
    exec .clrerr s = .next { s with regs := { s.regs with
      cmdErr := true, errCause := if s.regs.cmdErr then s.regs.errCause else .cmdWhileBusy } })

/-! ## Acceptance -/

/-- R224: an idle block accepts a long-running command: LASTCMD, BUSY and SEQ, READY for INIT only; no buffer changes. How long
it stays pending is the free value CmdLatency (R284; log entry 5). -/
def Obligations.LongCommandAcceptance : Prop :=
  ∀ (s : State) (op : LongOp), s.regs.seq = .idle →
    ∃ t, exec op.instr s = .next t ∧ t.mem = s.mem ∧ t.block = s.block ∧
      t.regs = { s.regs with lastCmd := op.instr, seq := .busy op,
                             ready := if op = .init then false else s.regs.ready } ∧
      t.env.wait = Config.cmdLatency s.env.free ∧ t.env.inputs = s.env.inputs ∧ t.env.resp = s.env.resp

/-! ## INIT and the tables -/

/-- R140: the core step of INIT builds EXP, LOG and GEN, raises READY, clears BUSY, and changes nothing else. -/
def Obligations.InitCompletionBuildsTheTables : Prop :=
  ∀ s : State, s.regs.seq = .busy .init →
    exec .init s = .next { s with
      regs := { s.regs with seq := .idle, ready := true }
      mem := { s.mem with
        exp := buildExp s.block.toParams
        log := buildLog s.block.toParams (buildExp s.block.toParams)
        gen := buildGen s.block.toParams } }

/-- R121: the exponent table INIT leaves: powers of two below M, `EXP[M] = PP xor 2^M`, the shift with reduction after it, and
`EXP[N] = EXP[0]`. -/
def Obligations.InitLeavesTheExponentTable : Prop :=
  ∀ s t : State, s.regs.seq = .busy .init → exec .init s = .next t →
    let e := fun i => (t.mem.exp.getD i 0).toNat
    t.mem.exp.length = s.block.n + 1 ∧
    (∀ i < s.block.m, e i = 2 ^ i) ∧
    e s.block.m = s.block.pp ^^^ 2 ^ s.block.m ∧
    (∀ i, s.block.m < i → i < s.block.n →
      e i = if 2 ^ (s.block.m - 1) ≤ e (i - 1) then e s.block.m ^^^ ((e (i - 1) ^^^ 2 ^ (s.block.m - 1)) * 2)
            else e (i - 1) * 2) ∧
    e s.block.n = e 0

/-- R122, R123: after INIT the logarithm and exponent tables are inverse to each other, `EXP[N] = EXP[0] = 1`, no exponent entry
is zero and the first N are a permutation of 1 to Q-1. -/
def Obligations.InitLeavesInverseTables : Prop :=
  ∀ s t : State, s.regs.seq = .busy .init → exec .init s = .next t →
    (∀ i < s.block.n, t.mem.log.getD (t.mem.exp.getD i 0).toNat 0 = BitVec.ofNat 32 i) ∧
    (∀ x, 0 < x → x < s.block.q →
      (t.mem.log.getD x 0).toNat < s.block.n ∧
      (t.mem.exp.getD (t.mem.log.getD x 0).toNat 0).toNat = x) ∧
    t.mem.log.getD 0 0 = 0xFFFFFFFF ∧ t.mem.log.length = s.block.q ∧
    t.mem.exp.getD 0 0 = 1 ∧ t.mem.exp.getD s.block.n 0 = 1 ∧
    (∀ i ≤ s.block.n, t.mem.exp.getD i 0 ≠ 0) ∧
    ((t.mem.exp.take s.block.n).map (·.toNat)).Perm (List.range' 1 (s.block.q - 1))

/-- R126: a product is zero for a zero factor and otherwise the exponential of the sum of the logarithms modulo N; multiplication is
commutative and associative on symbols, has identity 1, distributes over addition, and is zero only for a zero factor. -/
def Obligations.FieldMultiplicationLaws : Prop :=
  ∀ b : Block,
    let f := buildField b.toParams
    ∀ x y z : Word, x.toNat < b.q → y.toNat < b.q → z.toNat < b.q →
      (x ≠ 0 → y ≠ 0 → f.mul x y = f.exp.getD ((f.logOf x + f.logOf y) % b.n) 0) ∧
      f.mul x y = f.mul y x ∧ f.mul (f.mul x y) z = f.mul x (f.mul y z) ∧ f.mul 1 x = x ∧
      f.mul x (gfAdd y z) = gfAdd (f.mul x y) (f.mul x z) ∧ (f.mul x y = 0 ↔ x = 0 ∨ y = 0)

/-- R128: a power is the table entry at the exponent modulo N, for every integer exponent; powers add their exponents. And a quotient
(R127) times its divisor is the dividend. -/
def Obligations.FieldPowerAndQuotientLaws : Prop :=
  ∀ b : Block,
    let f := buildField b.toParams
    (∀ e : Int, f.pow e = (buildExp b.toParams).getD (e % (b.n : Int)).toNat 0) ∧ f.pow 0 = 1 ∧ f.pow b.n = 1 ∧
    (∀ e₁ e₂ : Int, f.pow (e₁ + e₂) = f.mul (f.pow e₁) (f.pow e₂)) ∧
    (∀ x y : Word, x.toNat < b.q → y.toNat < b.q → y ≠ 0 → f.mul (f.div x y) y = x)

/-- R136: INIT leaves each coefficient of the generator in exponent form, UNDEF for a zero one; hence `GEN[NK] = 0` and GEN[0] is
not UNDEF. -/
def Obligations.InitLeavesTheGeneratorInExponentForm : Prop :=
  ∀ s t : State, s.regs.seq = .busy .init → exec .init s = .next t →
    let g := (buildField s.block.toParams).generator s.block.nk
    t.mem.gen.length = s.block.nk + 1 ∧
    (∀ j ≤ s.block.nk, t.mem.gen.getD j 0 =
      if g.getD j 0 = 0 then 0xFFFFFFFF else t.mem.log.getD (g.getD j 0).toNat 0) ∧
    t.mem.gen.getD s.block.nk 1 = 0 ∧ t.mem.gen.getD 0 0xFFFFFFFF ≠ 0xFFFFFFFF

/-- R135: for every block the generator polynomial has degree NK, is monic, has a nonzero constant term, and is zero at `alpha^i` for
every `i` from 1 to NK; in the reference and the toy block none of its coefficients is zero. -/
def Obligations.GeneratorHasItsRoots : Prop :=
  (∀ b : Block,
    let f := buildField b.toParams
    let g := f.generator b.nk
    g.length = b.nk + 1 ∧ g.getD b.nk 0 = 1 ∧ g.getD 0 0 ≠ 0 ∧ ∀ i, 1 ≤ i → i ≤ b.nk → f.eval g (f.pow (i : Int)) = 0) ∧
  (∀ c ∈ (buildField Params.reference).generator 32, c ≠ 0) ∧ (∀ c ∈ (buildField Params.toy).generator 4, c ≠ 0)

/-- R137, R274: an INIT on built tables writes the same values: when its core step is taken, the buffers, the tables and RESULT
are what they were before it was accepted. -/
def Obligations.InitAgainLeavesTheTables : Prop :=
  ∀ s t u : State, s.TablesBuilt → s.regs.seq = .idle → exec .init s = .next t → exec .init t = .next u →
    u.mem = s.mem ∧ u.regs.result = s.regs.result ∧ u.regs.ready = true ∧ u.regs.seq = .idle

/-! ## ENCODE -/

/-- R150, R151, R152: the core step of ENCODE when every entry of DATA holds a value: PARITY is the register's content from its
last position, after the register took the data symbols first to last from all zeros; nothing else changes but BUSY. -/
def Obligations.EncodeCompletionWritesParity : Prop :=
  ∀ (s : State) (data : List Word), s.regs.seq = .busy .encode → s.mem.data = data.map some →
    exec .encode s = .next { s with
      regs := { s.regs with seq := .idle }
      mem := { s.mem with parity :=
        (data.foldl (s.field.shiftRegister (s.mem.gen.take s.block.nk)) (List.replicate s.block.nk 0)).reverse.map some } }

/-- R152: one data symbol through the register, position by position: with the feedback `fb = DATA[j] xor REG[NK-1]`, position r
takes position r-1 plus the product of GEN[r] and fb, and position 0 takes the product of GEN[0] and fb; with a zero feedback the
register only shifts. -/
def Obligations.ShiftRegisterPositions : Prop :=
  ∀ (f : Field) (gen reg : List Word) (d : Word), reg ≠ [] → gen.length = reg.length →
    let next := f.shiftRegister gen reg d
    let fb := d ^^^ reg.getD (reg.length - 1) 0
    let product := fun r =>
      if gen.getD r 0 = undef then 0 else f.exp.getD (((gen.getD r 0).toNat + f.logOf fb) % f.n) 0
    next.length = reg.length ∧
    (fb = 0 → next.getD 0 0 = 0 ∧ ∀ r, 1 ≤ r → r < reg.length → next.getD r 0 = reg.getD (r - 1) 0) ∧
    (fb ≠ 0 → next.getD 0 0 = product 0 ∧
      ∀ r, 1 ≤ r → r < reg.length → next.getD r 0 = reg.getD (r - 1) 0 ^^^ product r)

/-- R152, corner case: all-zero data encodes to all-zero parity, whatever the tables hold. -/
def Obligations.ZeroDataGivesZeroParity : Prop :=
  ∀ (f : Field) (gen : List Word) (nk len : Nat), 1 ≤ nk → f.parity gen nk (List.replicate len 0) = List.replicate nk 0

/-- R154: a codeword produced by the encoder has only zero syndromes, for every block and every data vector. -/
def Obligations.EncodedWordHasZeroSyndromes : Prop :=
  ∀ (b : Block) (data : List Word), data.length = b.k → (∀ x ∈ data, x.toNat < b.q) →
    let f := buildField b.toParams
    f.syndromes b.nk (data ++ f.parity (buildGen b.toParams) b.nk data) = List.replicate b.nk 0

/-- R154: SYNDROME and DECODE of an encoder output find every syndrome zero, and DECODE takes the no-error path and returns the word
unchanged. -/
def Obligations.EncodedWordDecodesToItself : Prop :=
  ∀ (s : State) (data : List Word), s.TablesBuilt → data.length = s.block.k → (∀ x ∈ data, x.toNat < s.block.q) →
    s.mem.rx = (data ++ s.field.parity s.mem.gen s.block.nk data).map some →
    (s.regs.seq = .busy .syndrome → ∃ t, exec .syndrome s = .next t ∧
      t.mem.synd = List.replicate s.block.nk (some 0) ∧ t.regs.result.synzero = true) ∧
    (s.regs.seq = .busy .decode → ∃ t, exec .decode s = .next t ∧
      t.mem.synd = List.replicate s.block.nk (some 0) ∧ t.regs.result.synzero = true ∧
      t.regs.result.outcome = .noError ∧ t.mem.out = s.mem.rx)

/-- R43 (log entries 1 and 3): an ENCODE on a DATA entry that holds no value completes with its whole write set unspecified
symbols, and the host program's fault is recorded; everything else is as in any completion. -/
def Obligations.EncodeOfMissingDataIsUnspecified : Prop :=
  ∀ s : State, s.regs.seq = .busy .encode → none ∈ s.mem.data →
    ∃ (t : State) (parity : List Word), exec .encode s = .next t ∧ parity.length = s.block.nk ∧ (∀ x ∈ parity, x.toNat < s.block.q) ∧
      t.mem = { s.mem with parity := parity.map some } ∧ t.regs = { s.regs with seq := .idle } ∧
      t.block = s.block ∧ t.env.hostFault ≠ none

/-! ## SYNDROME -/

/-- R172, R201: the core step of SYNDROME when every entry of RX holds a value: `S_i` is the sum of `RX[s] * alpha^(i*(N-1-s))`,
SYNZERO says whether all are zero, and no other field of RESULT and no other buffer changes. -/
def Obligations.SyndromeCompletionWritesSyndromes : Prop :=
  ∀ (s : State) (rx : List Word), s.regs.seq = .busy .syndrome → s.mem.rx = rx.map some →
    let synd := (List.range s.block.nk).map fun j => xorSum s.block.n fun x =>
      s.field.mul (rx.getD x 0) (s.field.pow ((j + 1) * (s.block.n - 1 - x) : Nat))
    exec .syndrome s = .next { s with
      regs := { s.regs with seq := .idle, result := { s.regs.result with synzero := synd.all (· == 0) } }
      mem := { s.mem with synd := synd.map some } }

/-- R43 (log entries 1 and 3): a SYNDROME on an RX entry that holds no value completes with SYND and SYNZERO unspecified, and
the host program's fault is recorded. -/
def Obligations.SyndromeOfMissingRxIsUnspecified : Prop :=
  ∀ s : State, s.regs.seq = .busy .syndrome → none ∈ s.mem.rx →
    ∃ (t : State) (synd : List Word) (z : Bool), exec .syndrome s = .next t ∧ synd.length = s.block.nk ∧ (∀ x ∈ synd, x.toNat < s.block.q) ∧
      t.mem = { s.mem with synd := synd.map some } ∧
      t.regs = { s.regs with seq := .idle, result := { s.regs.result with synzero := z } } ∧
      t.block = s.block ∧ t.env.hostFault ≠ none

/-! ## DECODE -/

/-- R200: the core step of DECODE when every entry of RX holds a value: OUT, SYND, ERRPOS, ERRVAL and RESULT from the decoder's
result on RX and the tables, BUSY falls, nothing else changes. -/
def Obligations.DecodeCompletionWritesTheResult : Prop :=
  ∀ (s : State) (rx : List Word), s.regs.seq = .busy .decode → s.mem.rx = rx.map some →
    let r := s.field.decodeWord s.block.nk s.block.t rx
    exec .decode s = .next { s with
      regs := { s.regs with
        seq := .idle
        result := { outcome := r.outcome, synzero := r.synd.all (· == 0), locdeg := BitVec.ofNat 8 r.l,
                    rootcnt := BitVec.ofNat 8 r.count, bmsteps := BitVec.ofNat 8 r.steps } }
      mem := { s.mem with
        out := r.out.map some, synd := r.synd.map some, errpos := r.errpos.map some, errval := r.errval.map some } }

/-- R43 (log entries 1 and 3): a DECODE on an RX entry that holds no value completes with its whole write set unspecified:
symbols in OUT, SYND and ERRVAL, indices in ERRPOS, one of the four outcomes of a DECODE; the host program's fault is recorded. -/
def Obligations.DecodeOfMissingRxIsUnspecified : Prop :=
  ∀ s : State, s.regs.seq = .busy .decode → none ∈ s.mem.rx →
    ∃ (t : State) (out synd errpos errval : List Word) (result : Result), exec .decode s = .next t ∧
      out.length = s.block.n ∧ synd.length = s.block.nk ∧ errpos.length = s.block.t ∧ errval.length = s.block.t ∧
      (∀ x ∈ out ++ synd ++ errval, x.toNat < s.block.q) ∧ (∀ x ∈ errpos, x.toNat < s.block.n) ∧
      result.outcome ≠ .notRun ∧
      t.mem = { s.mem with out := out.map some, synd := synd.map some, errpos := errpos.map some,
                           errval := errval.map some } ∧
      t.regs = { s.regs with seq := .idle, result := result } ∧ t.block = s.block ∧ t.env.hostFault ≠ none

/-- R174 (and R203's first row): with every syndrome zero, the outcome is NO_ERROR, the word is unchanged and every count and entry
is 0; the all-zero word has only zero syndromes. -/
def Obligations.ZeroSyndromesGiveNoError : Prop :=
  (∀ (f : Field) (nk t : Nat) (rx : List Word), (∀ x ∈ f.syndromes nk rx, x = 0) →
    f.decodeWord nk t rx =
      { synd := List.replicate nk 0, outcome := .noError, l := 0, count := 0, steps := 0,
        errpos := List.replicate t 0, errval := List.replicate t 0, out := rx }) ∧
  (∀ (f : Field) (nk len : Nat), f.syndromes nk (List.replicate len 0) = List.replicate nk 0)

/-- R171, R187, R192, R193, R200, R203: when some syndrome is nonzero, exactly one of the three other outcomes, each with its fields:
CORRECTED with 1 <= LOCDEG = ROOTCNT <= T, UNCORR_HIGH_DEGREE with T < LOCDEG <= NK and no root, UNCORR_ROOT_MISMATCH with
1 <= LOCDEG <= T and another root count; the two uncorrectable ones return the received word with no magnitude. SYND is the
received word's syndromes whatever the outcome, between 1 and NK Berlekamp-Massey steps ran, and where the root search ran ROOTCNT
counts the roots of the final locator and ERRPOS lists the indices they mark, then zeros. Over built tables an
UNCORR_ROOT_MISMATCH has fewer roots than LOCDEG (R190), and its ERRPOS entries below ROOTCNT are buffer indices, ascending. -/
def Obligations.NonzeroSyndromeOutcomes : Prop :=
  (∀ (f : Field) (nk t : Nat) (rx : List Word), 1 ≤ nk → (∃ x ∈ f.syndromes nk rx, x ≠ 0) →
    let r := f.decodeWord nk t rx
    let roots := f.roots (f.berlekampMassey nk t (f.syndromes nk rx))
    let reportsRoots := r.count = roots.length ∧ r.errpos.length = t ∧
      ∀ c < t, r.errpos.getD c 0 = if c < r.count then BitVec.ofNat 32 (roots.getD c 0 - 1) else 0
    r.synd = f.syndromes nk rx ∧ (1 ≤ r.steps ∧ r.steps ≤ nk ∧ 1 ≤ r.l ∧ r.l ≤ nk) ∧
    ((r.outcome = .corrected ∧ r.l ≤ t ∧ r.count = r.l ∧ reportsRoots) ∨
     (r.outcome = .uncorrHighDegree ∧ t < r.l ∧ r.count = 0 ∧ r.out = rx ∧
       r.errpos = List.replicate t 0 ∧ r.errval = List.replicate t 0) ∨
     (r.outcome = .uncorrRootMismatch ∧ r.l ≤ t ∧ r.count ≠ r.l ∧ reportsRoots ∧ r.out = rx ∧
       r.errval = List.replicate t 0))) ∧
  (∀ (b : Block) (rx : List Word), (∀ x ∈ rx, x.toNat < b.q) →
    let r := (buildField b.toParams).decodeWord b.nk b.t rx
    r.outcome = .uncorrRootMismatch →
    r.count < r.l ∧ (∀ c < r.count, (r.errpos.getD c 0).toNat < b.n) ∧
    (∀ c, c + 1 < r.count → (r.errpos.getD c 0).toNat < (r.errpos.getD (c + 1) 0).toNat))

/-- R186: in every row of the iteration the locator's constant term is 1 and its coefficients above the row's degree are zero,
the degrees do not fall, and the degree after step u is at most u; so the final degree is at most NK, every locator is a list of
NK+1 coefficients, and no syndrome index of the discrepancy's sum falls to 0. -/
def Obligations.BerlekampMasseyRowInvariants : Prop :=
  ∀ (f : Field) (nk t : Nat) (synd : List Word),
    let rows := f.bmLoop nk t synd nk (startRows synd nk) 1
    (∀ r < rows.length, coeff (rowAt rows r).sigma 0 = 1 ∧ ∀ i, (rowAt rows r).l < i → coeff (rowAt rows r).sigma i = 0) ∧
    (∀ r, r + 1 < rows.length → (rowAt rows r).l ≤ (rowAt rows (r + 1)).l) ∧
    (∀ u, 1 ≤ u → u + 1 < rows.length → (rowAt rows (u + 1)).l ≤ u) ∧
    (f.berlekampMassey nk t synd).l ≤ nk ∧ (∀ r < rows.length, (rowAt rows r).sigma.length = nk + 1) ∧
    (∀ u j, 1 ≤ u → u + 1 < rows.length → j < (rowAt rows (u + 1)).l → 1 ≤ u + 1 - (j + 1))

/-- R179: the selected row lies before step u, has a nonzero discrepancy, has the largest step-minus-degree of all such rows, and
is the latest of those. -/
def Obligations.SelectedRowIsTheLatestMaximum : Prop :=
  ∀ (rows : List BmRow) (u : Nat), 1 ≤ u → (rowAt rows 0).d ≠ 0 →
    let q := selectRow rows u
    q < u ∧ (rowAt rows q).d ≠ 0 ∧
    (∀ j < u, (rowAt rows j).d ≠ 0 → (rowAt rows j).ul ≤ (rowAt rows q).ul) ∧
    (∀ j < u, q < j → (rowAt rows j).d ≠ 0 → (rowAt rows j).ul < (rowAt rows q).ul)

/-- R188, R189: the roots are exactly the exponents 1 to N at which the locator is zero, in ascending order, and the root at
exponent i marks the buffer index i-1. -/
def Obligations.RootsAscendAndMarkTheirIndex : Prop :=
  ∀ (f : Field) (loc : Locator),
    (∀ i, i ∈ f.roots loc ↔ 1 ≤ i ∧ i ≤ f.n ∧ f.locatorValue loc i = 0) ∧
    (f.roots loc).Pairwise (· < ·) ∧ (∀ i ∈ f.roots loc, f.rootIndex i = i - 1)

/-- R51, R52, R193, R195 to R198: when the outcome is CORRECTED, OUT differs from the received word exactly by ERRVAL[c] XORed in at
ERRPOS[c], for c below ROOTCNT; the positions ascend, and the entries from ROOTCNT on are 0. Each ERRVAL[c] is the quotient of its
numerator by its denominator, 0 for a zero numerator, term by term as the rules give them: the evaluator's coefficients from the
syndromes and the locator (R195), the evaluator at the root `N - loc[c] = ERRPOS[c] + 1` (R196), and the product over the other
located positions (R197), with `loc[c] = N-1-ERRPOS[c]` (R45). -/
def Obligations.CorrectionAppliesTheReportedMagnitudes : Prop :=
  ∀ (f : Field) (nk t : Nat) (rx : List Word), rx.length = f.n → f.n ≤ 255 →
    let r := f.decodeWord nk t rx
    r.outcome = .corrected →
    let synd := fun i => r.synd.getD (i - 1) 0
    let sigma := fun i => (f.berlekampMassey nk t r.synd).sigma.getD i 0
    let index := fun c => (r.errpos.getD c 0).toNat
    let loc := fun c => f.n - 1 - index c
    (∀ c < r.count, index c < f.n ∧ r.out.getD (index c) 0 = rx.getD (index c) 0 ^^^ r.errval.getD c 0) ∧
    (∀ x, (∀ c < r.count, index c ≠ x) → r.out.getD x 0 = rx.getD x 0) ∧
    (∀ c, c + 1 < r.count → index c < index (c + 1)) ∧
    (r.errpos.length = t ∧ r.errval.length = t ∧ ∀ c, r.count ≤ c → r.errpos.getD c 0 = 0 ∧ r.errval.getD c 0 = 0) ∧
    ∃ z : Nat → Word, z 0 = 1 ∧
      (∀ i, 1 ≤ i → i ≤ r.l →
        z i = (List.range' 1 (i - 1)).foldl (fun sum j => sum ^^^ f.mul (synd j) (sigma (i - j))) (synd i ^^^ sigma i)) ∧
      ∀ c < r.count,
        let root := index c + 1
        let num := (List.range' 1 r.l).foldl (fun sum j => sum ^^^ f.mul (z j) (f.pow (j * root : Nat))) 1
        let den := ((List.range r.count).filter (· ≠ c)).foldl (fun product j => f.mul product (1 ^^^ f.pow (loc j + root : Nat))) 1
        r.errval.getD c 0 = if num = 0 then 0 else f.div num den

/-- R199 for one symbol error: whatever the block, the data, the entry hit and the error's value, DECODE corrects an encoder output
with one wrong entry, and reports that entry and the value XORed in. All NK Berlekamp-Massey steps run. -/
def Obligations.SingleErrorIsCorrected : Prop :=
  ∀ (b : Block) (data : List Word) (p : Nat) (e : Word), data.length = b.k → (∀ x ∈ data, x.toNat < b.q) → p < b.n →
    e ≠ 0 → e.toNat < b.q →
    let f := buildField b.toParams
    let code := data ++ f.parity (buildGen b.toParams) b.nk data
    let r := f.decodeWord b.nk b.t (code.set p (code.getD p 0 ^^^ e))
    r.outcome = .corrected ∧ r.l = 1 ∧ r.count = 1 ∧ r.steps = b.nk ∧ r.out = code ∧
      r.errpos.getD 0 0 = BitVec.ofNat 32 p ∧ r.errval.getD 0 0 = e

/-! ## What commands leave alone -/

/-- R44, R104: DATA and RX are never written by a command, PARITY by ENCODE only, OUT, ERRPOS and ERRVAL by DECODE only, SYND by
DECODE and SYNDROME only, EXP, LOG and GEN by INIT only; RESULT by DECODE, its SYNZERO by SYNDROME too; READY by INIT only; the
host's inputs and the last response are untouched. -/
def Obligations.CommandsWriteOnlyTheirWriteSets : Prop :=
  ∀ (i : Instr) (s t : State), exec i s = .next t →
    t.block = s.block ∧ t.mem.data = s.mem.data ∧ t.mem.rx = s.mem.rx ∧
    (i ≠ .encode → t.mem.parity = s.mem.parity) ∧
    (i ≠ .decode → t.mem.out = s.mem.out ∧ t.mem.errpos = s.mem.errpos ∧ t.mem.errval = s.mem.errval) ∧
    (i ≠ .decode → i ≠ .syndrome → t.mem.synd = s.mem.synd) ∧
    (i ≠ .init → t.mem.exp = s.mem.exp ∧ t.mem.log = s.mem.log ∧ t.mem.gen = s.mem.gen ∧ t.regs.ready = s.regs.ready) ∧
    (i ≠ .decode → t.regs.result = { s.regs.result with synzero := t.regs.result.synzero }) ∧
    (i ≠ .decode → i ≠ .syndrome → t.regs.result.synzero = s.regs.result.synzero) ∧
    t.env.inputs = s.env.inputs ∧ t.env.resp = s.env.resp

/-- R285: DECODE does not read GEN or DATA, and ENCODE does not read RX: with those changed at will, the completed write sets are
the same. -/
def Obligations.CommandsReadOnlyTheirSources : Prop :=
  (∀ (s : State) (gen : List Word) (data : List Entry), s.regs.seq = .busy .decode →
    ∃ t u, exec .decode s = .next t ∧ exec .decode { s with mem := { s.mem with gen := gen, data := data } } = .next u ∧
      u = { t with mem := { t.mem with gen := gen, data := data } }) ∧
  (∀ (s : State) (rx : List Entry), s.regs.seq = .busy .encode →
    ∃ t u, exec .encode s = .next t ∧ exec .encode { s with mem := { s.mem with rx := rx } } = .next u ∧
      u = { t with mem := { t.mem with rx := rx } })

/-! ## Command errors -/

/-- R242: on an idle block a CMD write of an illegal word raises ILLEGAL_CMD: the flag is set, the cause is recorded if the flag
was clear, no command starts, LASTCMD and everything else stay. -/
def Obligations.IllegalWordRaisesIllegalCmd : Prop :=
  ∀ (s : State) (w : Word) (rest : List Input), s.regs.seq = .idle → s.env.inputs = .write 0x000C 4 w :: rest →
    (w.extractLsb' 4 28 ≠ 0 ∨ 6 ≤ (w.extractLsb' 0 4).toNat) →
    ∃ t, step s = .next t ∧ t.mem = s.mem ∧ t.block = s.block ∧
      t.regs = { s.regs with cmdErr := true, errCause := if s.regs.cmdErr then s.regs.errCause else .illegalCmd }

/-- R243: any CMD write while busy, whatever the word, is discarded and raises CMD_WHILE_BUSY; the pending command continues
unchanged and completes normally, with the write set it would have had. -/
def Obligations.CmdWriteWhileBusyIsRefused : Prop :=
  ∀ (s : State) (w : Word) (rest : List Input) (op : LongOp), s.coreMoves = false → s.regs.seq = .busy op →
    s.env.inputs = .write 0x000C 4 w :: rest →
    ∃ t, step s = .next t ∧ t.mem = s.mem ∧ t.block = s.block ∧
      t.regs = { s.regs with cmdErr := true, errCause := if s.regs.cmdErr then s.regs.errCause else .cmdWhileBusy } ∧
      ∃ u, exec op.instr t = .next u ∧ u.regs.seq = .idle ∧
        ((∀ e ∈ op.source s.mem, e ≠ none) → u.mem = (completion op s).mem ∧
          u.regs.result = (completion op s).regs.result ∧ u.regs.ready = (completion op s).regs.ready)

/-- R244, R281: a write to a valid DATA or RX entry while busy changes no entry and raises WRITE_WHILE_BUSY. -/
def Obligations.InputWriteWhileBusyIsDropped : Prop :=
  ∀ (s : State) (a : Offset) (w : Word) (rest : List Input) (op : LongOp) (j : Nat),
    s.coreMoves = false → s.regs.seq = .busy op → s.env.inputs = .write a 4 w :: rest →
    ((a.toNat = 0x0400 + 4 * j ∧ j < s.block.k) ∨ (a.toNat = 0x0C00 + 4 * j ∧ j < s.block.n)) →
    ∃ t, step s = .next t ∧ t.mem = s.mem ∧ t.block = s.block ∧
      t.regs = { s.regs with cmdErr := true, errCause := if s.regs.cmdErr then s.regs.errCause else .writeWhileBusy }

/-- R241: a set CMD_ERR stays set, with its cause, until a CLRERR is accepted or the block is reset; and it is set only with one
of the three causes. -/
def Obligations.CommandErrorIsSticky : Prop :=
  ∀ s t : State, step s = .next t →
    (s.regs.cmdErr = true →
      (t.regs.cmdErr = true ∧ t.regs.errCause = s.regs.errCause) ∨
      (s.coreMoves = false ∧ ∃ rest, s.env.inputs = .reset :: rest) ∨
      (∃ a size w rest, s.env.inputs = .write a size w :: rest ∧ target s.block a.toNat = .cmd ∧ s.regs.seq = .idle ∧
        decode w = .ok .clrerr ∧ t.regs.cmdErr = false ∧ t.regs.errCause = .noError)) ∧
    (s.regs.cmdErr = false → t.regs.cmdErr = true →
      t.regs.errCause = .illegalCmd ∨ t.regs.errCause = .cmdWhileBusy ∨ t.regs.errCause = .writeWhileBusy)

/-! ## Host writes and reads -/

/-- R42: on an idle block a write to a valid entry of DATA or RX stores the low M bits in that entry, discards the others without
error, and changes nothing else. -/
def Obligations.InputWriteStoresTheLowBits : Prop :=
  ∀ (s : State) (a : Offset) (w : Word) (rest : List Input) (j : Nat),
    s.regs.seq = .idle → s.env.inputs = .write a 4 w :: rest →
    let x : Word := BitVec.ofNat 32 (w.toNat % 2 ^ s.block.m)
    (a.toNat = 0x0400 + 4 * j → j < s.block.k → ∃ t, step s = .next t ∧ t.block = s.block ∧ t.regs = s.regs ∧
      (∃ d, t.env.resp = some { rdata := d, err := false }) ∧
      t.mem = { s.mem with data := s.mem.data.set j (some x) }) ∧
    (a.toNat = 0x0C00 + 4 * j → j < s.block.n → ∃ t, step s = .next t ∧ t.block = s.block ∧ t.regs = s.regs ∧
      (∃ d, t.env.resp = some { rdata := d, err := false }) ∧
      t.mem = { s.mem with rx := s.mem.rx.set j (some x) })

/-- R229, R76, R77: a legal write anywhere but CMD and the valid entries of DATA and RX is ignored, busy or not, with err = 0 and
no command error. -/
def Obligations.OtherWritesAreIgnored : Prop :=
  ∀ (s : State) (a : Offset) (w : Word) (rest : List Input),
    s.coreMoves = false → s.env.inputs = .write a 4 w :: rest → a.toNat % 4 = 0 → a.toNat ≠ 0x000C →
    (∀ j < s.block.k, a.toNat ≠ 0x0400 + 4 * j) → (∀ j < s.block.n, a.toNat ≠ 0x0C00 + 4 * j) →
    ∃ t, step s = .next t ∧ SameArch s t ∧ (∃ d, t.env.resp = some { rdata := d, err := false }) ∧
      t.env.hostFault = s.env.hostFault

/-- R245: a transaction that is not an aligned 32-bit access is answered with err = 1 and rdata = 0 and changes no state of
the block, busy or not; it is treated as a fault of the host program, on which the checked step stops. -/
def Obligations.BusErrorChangesNothing : Prop :=
  ∀ (s : State) (a : Offset) (size : Nat) (w : Word) (rest : List Input),
    s.coreMoves = false → (s.env.inputs = .read a size :: rest ∨ s.env.inputs = .write a size w :: rest) →
    (size ≠ 4 ∨ a.toNat % 4 ≠ 0) →
    (∃ t, step s = .next t ∧ SameArch s t ∧ t.env.resp = some { rdata := 0, err := true }) ∧
    (s.Clean → checkedStep s = .fault .busError)

/-- R74: a read transaction changes no state of the block, whatever it addresses. -/
def Obligations.ReadsChangeNoState : Prop :=
  ∀ (s : State) (a : Offset) (size : Nat) (rest : List Input), s.coreMoves = false → s.env.inputs = .read a size :: rest →
    ∃ t, step s = .next t ∧ SameArch s t ∧ t.env.inputs = rest

/-- R33, R34, R35: what reads of the constant registers (and of CMD, R38) return in every state, that writes to them are ignored,
that every field of CONFIG fits, and the words of the two instances. -/
def Obligations.ConstantRegistersReadTheirWords : Prop :=
  (∀ (s : State) (a : Offset) (rest : List Input), s.coreMoves = false → s.env.inputs = .read a 4 :: rest →
    ∃ t, step s = .next t ∧
      (a.toNat = 0x0000 → t.env.resp = some { rdata := 0x52530001, err := false }) ∧
      (a.toNat = 0x0004 → ∃ w : Word, t.env.resp = some { rdata := w, err := false } ∧
        w.toNat = s.block.n * 2 ^ 24 + s.block.k * 2 ^ 16 + s.block.t * 2 ^ 8 + s.block.m) ∧
      (a.toNat = 0x0008 → ∃ w : Word, t.env.resp = some { rdata := w, err := false } ∧ w.toNat = s.block.pp) ∧
      (a.toNat = 0x000C → t.env.resp = some { rdata := 0, err := false })) ∧
  (∀ (s : State) (a : Offset) (w : Word) (rest : List Input), s.coreMoves = false → s.env.inputs = .write a 4 w :: rest →
    a.toNat = 0x0000 ∨ a.toNat = 0x0004 ∨ a.toNat = 0x0008 → ∃ t, step s = .next t ∧ SameArch s t) ∧
  (∀ b : Block, b.m ≤ 8 ∧ b.t ≤ 127 ∧ b.k ≤ 253 ∧ b.n ≤ 255) ∧
  configWord Block.reference = 0xFFDF1008 ∧ configWord Block.toy = 0x0F0B0204 ∧ primpolyWord Block.reference = 0x0000011D

/-- R37: a read of STATUS returns its current word at every moment, and the word holds BUSY, READY, CMD_ERR, ERRCAUSE and LASTCMD
at their bits, zero elsewhere. -/
def Obligations.StatusReadsItsFields : Prop :=
  ∀ (s : State) (rest : List Input), s.coreMoves = false → s.env.inputs = .read 0x0010 4 :: rest →
    ∃ (t : State) (w : Word), step s = .next t ∧ t.env.resp = some { rdata := w, err := false } ∧
      w.getLsbD 0 = s.regs.busy ∧ w.getLsbD 1 = s.regs.ready ∧ w.getLsbD 2 = s.regs.cmdErr ∧ w.getLsbD 3 = false ∧
      w.extractLsb' 4 4 = s.regs.errCause.code ∧ w.extractLsb' 8 4 = opcode s.regs.lastCmd ∧ w.extractLsb' 12 20 = 0

/-- R36, R283: a read of RESULT returns its fields at their bits when neither DECODE nor SYNDROME runs; while SYNDROME runs every
bit but bit 3 is still the current one. -/
def Obligations.ResultReadsItsFields : Prop :=
  ∀ (s : State) (rest : List Input), s.coreMoves = false → s.env.inputs = .read 0x0014 4 :: rest →
    s.regs.seq ≠ .busy .decode →
    ∃ (t : State) (w : Word), step s = .next t ∧ t.env.resp = some { rdata := w, err := false } ∧
      w.extractLsb' 0 3 = s.regs.result.outcome.code ∧ (s.regs.seq ≠ .busy .syndrome → w.getLsbD 3 = s.regs.result.synzero) ∧
      w.extractLsb' 4 4 = 0 ∧ w.extractLsb' 8 8 = s.regs.result.locdeg ∧ w.extractLsb' 16 8 = s.regs.result.rootcnt ∧
      w.extractLsb' 24 8 = s.regs.result.bmsteps

/-- R75, R77, R50: the register map. Entry i of a buffer lies at `base + 4*i`; the indices outside the valid range and the
offsets outside every region are reserved; SYND starts at index 1. -/
def Obligations.RegisterMapPlacesEveryEntry : Prop :=
  ∀ b : Block,
    (∀ row ∈ [(Buf.data, 0x0400, 256, 0, b.k), (Buf.parity, 0x0800, 256, 0, b.nk), (Buf.rx, 0x0C00, 256, 0, b.n),
              (Buf.out, 0x1000, 256, 0, b.n), (Buf.errpos, 0x1400, 128, 0, b.t), (Buf.errval, 0x1600, 128, 0, b.t),
              (Buf.synd, 0x1800, 256, 1, b.nk), (Buf.gen, 0x1C00, 256, 0, b.nk + 1), (Buf.exp, 0x2000, 256, 0, b.n + 1),
              (Buf.log, 0x2400, 256, 0, b.q)],
      ∀ i < row.2.2.1, target b (row.2.1 + 4 * i) =
        if row.2.2.2.1 ≤ i ∧ i < row.2.2.2.1 + row.2.2.2.2 then .entry row.1 (i - row.2.2.2.1) else .reserved) ∧
    (∀ a, a % 4 = 0 → (0x0018 ≤ a ∧ a < 0x0400) ∨ (0x2800 ≤ a ∧ a < 0x4000) → target b a = .reserved) ∧
    target b 0x0000 = .id ∧ target b 0x0004 = .config ∧ target b 0x0008 = .primpoly ∧ target b 0x000C = .cmd ∧
    target b 0x0010 = .status ∧ target b 0x0014 = .result

/-- R43, R78, R283: a read of a valid entry: its value if it holds one and no running command writes its buffer; otherwise an
unspecified word, drawn as a free value, and where the entry holds no value the host program's fault is recorded (log entries 1
and 3). -/
def Obligations.EntryReads : Prop :=
  ∀ (s : State) (a : Offset) (rest : List Input) (buf : Buf) (slot : Nat),
    s.coreMoves = false → s.env.inputs = .read a 4 :: rest → a.toNat % 4 = 0 → target s.block a.toNat = .entry buf slot →
    ∃ t, step s = .next t ∧
      (∀ w, s.mem.entry buf slot = some w → s.regs.runningWrites buf = false →
        t.env.resp = some { rdata := w, err := false } ∧ t.env.hostFault = s.env.hostFault) ∧
      (∀ w, s.mem.entry buf slot = some w → s.regs.runningWrites buf = true →
        t.env.resp = some { rdata := Config.freeWord s.env.free, err := false } ∧ t.env.free = s.env.free + 1 ∧
        t.env.hostFault = s.env.hostFault) ∧
      (s.mem.entry buf slot = none →
        t.env.resp = some { rdata := Config.freeWord s.env.free, err := false } ∧ t.env.free = s.env.free + 1 ∧
        t.env.hostFault ≠ none)

/-- R77: a read of a reserved offset or entry returns 0 and a write to one is ignored, each with err = 0, also while a command
runs; neither changes any state nor raises a command error. -/
def Obligations.ReservedOffsetsReadZeroAndIgnoreWrites : Prop :=
  ∀ (s : State) (a : Offset) (rest : List Input), s.coreMoves = false → a.toNat % 4 = 0 →
    target s.block a.toNat = .reserved →
    (s.env.inputs = .read a 4 :: rest →
      ∃ t, step s = .next t ∧ SameArch s t ∧ t.env.resp = some { rdata := 0, err := false } ∧
        t.env.hostFault = s.env.hostFault) ∧
    (∀ w, s.env.inputs = .write a 4 w :: rest →
      ∃ t, step s = .next t ∧ SameArch s t ∧ (∃ d, t.env.resp = some { rdata := d, err := false }) ∧
        t.env.hostFault = s.env.hostFault)

/-! ## Reset -/

/-- R59, R270: the platform's reset, in whatever state, leaves BUSY = 1, READY = 0, LASTCMD = INIT, no error, RESULT = 0, the
reset-time INIT pending and no value in any symbol buffer; the block's parameters stay. -/
def Obligations.ResetReplacesTheState : Prop :=
  ∀ (s : State) (rest : List Input), s.coreMoves = false → s.env.inputs = .reset :: rest →
    ∃ t, step s = .next t ∧ t.block = s.block ∧ t.regs.statusWord = 0x00000101 ∧ t.regs.result.word = 0 ∧
      t.regs.seq = .busy .init ∧ t.regs.ready = false ∧ t.regs.lastCmd = .init ∧
      t.mem.data = List.replicate s.block.k none ∧ t.mem.rx = List.replicate s.block.n none ∧
      t.mem.parity = List.replicate s.block.nk none ∧ t.mem.out = List.replicate s.block.n none ∧
      t.mem.synd = List.replicate s.block.nk none ∧ t.mem.errpos = List.replicate s.block.t none ∧
      t.mem.errval = List.replicate s.block.t none ∧ t.env.inputs = rest

/-- R59, R270, R271: after reset of any block STATUS is 0x101, whatever inputs are to come; the first of them is taken before the
reset-time INIT completes, so that a first transaction that reads STATUS is answered 0x101, one that reads RESULT is answered 0, and
a first CMD write, of any word, raises CMD_WHILE_BUSY (STATUS 0x125); and the completion of that INIT leaves STATUS at 0x102, builds
the tables and changes no symbol buffer. The model's choices: that the first input comes first even where R284 lets a latency be
zero (DEDUCED from R270, log entry 15), and that with no input to come the very first step completes the INIT (DESIGN CHOICE, log
entries 5 and 10). -/
def Obligations.ResetTimeInitCompletes : Prop :=
  ∀ (b : Block) (free : Nat) (hostFault : Option Fault),
    let after := fun inputs => State.afterReset b inputs free hostFault
    (∀ inputs, (after inputs).regs.statusWord = 0x00000101) ∧
    (∀ input rest, step (after (input :: rest)) = hostStep input rest (after (input :: rest))) ∧
    (∀ rest, ∃ t, step (after (.read 0x0010 4 :: rest)) = .next t ∧
      t.env.resp = some { rdata := 0x00000101, err := false }) ∧
    (∀ rest, ∃ t, step (after (.read 0x0014 4 :: rest)) = .next t ∧ t.env.resp = some { rdata := 0, err := false }) ∧
    (∀ w rest, ∃ t, step (after (.write 0x000C 4 w :: rest)) = .next t ∧ t.regs.statusWord = 0x00000125 ∧
      t.mem = (after []).mem) ∧
    ∃ t, step (after []) = .next t ∧ t.regs.statusWord = 0x00000102 ∧ t.regs.result.word = 0 ∧ t.TablesBuilt ∧
      t.mem = { (after []).mem with exp := t.mem.exp, log := t.mem.log, gen := t.mem.gen }

/-! ## The whole machine -/

/-- R59: the invariant holds right after reset, for every block and whatever inputs are to come. It asks nothing of the tables'
contents, which R59 leaves unspecified until the reset-time INIT completes; the zeros of log entry 6 play no part in it. -/
def Obligations.InvariantHoldsAfterReset : Prop :=
  ∀ (b : Block) (inputs : List Input) (free : Nat) (hostFault : Option Fault), (State.afterReset b inputs free hostFault).Inv

/-- R31, R37, R39, R41, R44, R56: every step keeps the invariant: the lengths of buffers and tables and the kinds of the buffers'
values, READY = 0 exactly while an INIT runs, ERRCAUSE = 0 exactly while CMD_ERR = 0, LASTCMD the running command, built tables
whenever READY = 1, and OUTCOME = NONE exactly as long as no DECODE has written its set. That a command on entries without a value
leaves symbols, indices and one of the four outcomes is the model's choice (DESIGN CHOICE, log entry 3). -/
def Obligations.EveryStepKeepsTheInvariant : Prop := ∀ s t : State, s.Inv → step s = .next t → t.Inv

/-- R13, R32, R274: no step changes the block's parameters. -/
def Obligations.ParametersNeverChange : Prop := ∀ s t : State, step s = .next t → t.block = s.block

/-- R44: each buffer changes only by its one writer (or by a reset, which takes its values away): DATA and RX by a host write to one
of their own entries on an idle block, which changes that entry alone, PARITY by the core step of ENCODE, OUT, ERRPOS and ERRVAL by
that of DECODE, SYND by those of DECODE and SYNDROME, EXP, LOG and GEN by that of INIT. -/
def Obligations.EveryBufferHasItsOnlyWriters : Prop :=
  ∀ s t : State, step s = .next t → ¬ (s.coreMoves = false ∧ ∃ rest, s.env.inputs = .reset :: rest) →
    let completes := fun op => s.coreMoves = true ∧ s.regs.seq = .busy op
    let stored := fun w : Word => some (BitVec.ofNat 32 (w.toNat % 2 ^ s.block.m) : Word)
    (t.mem.data ≠ s.mem.data → s.regs.seq = .idle ∧ ∃ a w rest slot, s.env.inputs = .write a 4 w :: rest ∧
      a.toNat % 4 = 0 ∧ target s.block a.toNat = .entry .data slot ∧
      t.mem = { s.mem with data := s.mem.data.set slot (stored w) }) ∧
    (t.mem.rx ≠ s.mem.rx → s.regs.seq = .idle ∧ ∃ a w rest slot, s.env.inputs = .write a 4 w :: rest ∧
      a.toNat % 4 = 0 ∧ target s.block a.toNat = .entry .rx slot ∧
      t.mem = { s.mem with rx := s.mem.rx.set slot (stored w) }) ∧
    (t.mem.parity ≠ s.mem.parity → completes .encode) ∧
    (t.mem.out ≠ s.mem.out ∨ t.mem.errpos ≠ s.mem.errpos ∨ t.mem.errval ≠ s.mem.errval → completes .decode) ∧
    (t.mem.synd ≠ s.mem.synd → completes .decode ∨ completes .syndrome) ∧
    (t.mem.exp ≠ s.mem.exp ∨ t.mem.log ≠ s.mem.log ∨ t.mem.gen ≠ s.mem.gen → completes .init)

/-- R36, R39, R40: RESULT changes only by the core steps of DECODE and SYNDROME (the latter its SYNZERO only), READY falls only by an
accepted INIT and rises only by its core step, and LASTCMD changes only by an accepted command; a reset aside. -/
def Obligations.EveryFlagHasItsOnlyWriters : Prop :=
  ∀ s t : State, step s = .next t → ¬ (s.coreMoves = false ∧ ∃ rest, s.env.inputs = .reset :: rest) →
    let completes := fun op => s.coreMoves = true ∧ s.regs.seq = .busy op
    let accepts := fun i => s.regs.seq = .idle ∧ ∃ w rest, s.env.inputs = .write 0x000C 4 w :: rest ∧ decode w = .ok i
    (t.regs.result ≠ s.regs.result → completes .decode ∨
      (completes .syndrome ∧ t.regs.result = { s.regs.result with synzero := t.regs.result.synzero })) ∧
    (s.regs.ready = true → t.regs.ready = false → accepts .init) ∧
    (s.regs.ready = false → t.regs.ready = true → completes .init) ∧
    (t.regs.lastCmd ≠ s.regs.lastCmd → ∃ i, t.regs.lastCmd = i ∧ accepts i) ∧
    (s.regs.seq = .idle → t.regs.seq ≠ .idle → ∃ op, t.regs.seq = .busy op ∧ accepts op.instr) ∧
    (∀ op, s.regs.seq = .busy op → t.regs.seq ≠ .busy op → completes op)

/-- R82, R281: a pending command completes as if no host transaction had come in between: whatever transactions the host makes
before the core step, the command stays pending and writes the same buffers, tables, RESULT and READY as it would have written at
once. (The entries it reads hold values; otherwise its write set is unspecified anyway.) -/
def Obligations.CompletionIgnoresInterleaving : Prop :=
  ∀ (s t : State) (op : LongOp), s.regs.seq = .busy op → (∀ e ∈ op.source s.mem, e ≠ none) → Waits s t →
    t.regs.seq = .busy op ∧ (completion op t).mem = (completion op s).mem ∧
    (completion op t).regs.result = (completion op s).regs.result ∧
    (completion op t).regs.ready = (completion op s).regs.ready

/-- R284, R222: a pending command is completed after finitely many steps: each host transaction taken while it is pending leaves one
fewer to wait for, and with only transactions to come its turn comes after as many host steps as its latency allows, at most all
of them. The count `Env.wait`, and that the sequencer moves at once when no input is left, are the model's choices (DESIGN CHOICE,
log entry 5). -/
def Obligations.PendingCommandCompletes : Prop :=
  (∀ (s t : State) (op : LongOp) (input : Input) (rest : List Input), s.regs.seq = .busy op → s.coreMoves = false →
    s.env.inputs = input :: rest → input.isTransaction = true → step s = .next t →
    t.regs.seq = .busy op ∧ t.env.wait = s.env.wait - 1 ∧ t.env.inputs = rest) ∧
  (∀ (s : State) (op : LongOp), s.regs.seq = .busy op → (∀ input ∈ s.env.inputs, input.isTransaction = true) →
    ∃ len t u, len ≤ s.env.wait ∧ len ≤ s.env.inputs.length ∧ Sys2Proof.core.run len s = .next t ∧
      t.regs.seq = .busy op ∧ t.coreMoves = true ∧ step t = .next u ∧ u.regs.seq = .idle)

/-- R43, R73, R245 (log entry 1): the record of the host program's fault is made only by an illegal access, a read of an entry
that holds no value, or the completion of a command one of whose source entries holds none; and once made it stays. -/
def Obligations.HostFaultsHaveTheirCauses : Prop :=
  ∀ s t : State, step s = .next t →
    (∀ f, s.env.hostFault = some f → t.env.hostFault = some f) ∧
    (s.env.hostFault = none →
      (t.env.hostFault = some .busError → ∃ a size w rest, legalAccess a size = false ∧
        (s.env.inputs = .read a size :: rest ∨ s.env.inputs = .write a size w :: rest)) ∧
      (t.env.hostFault = some .readNoValue → ∃ a rest buf slot, s.env.inputs = .read a 4 :: rest ∧
        target s.block a.toNat = .entry buf slot ∧ s.mem.entry buf slot = none) ∧
      (t.env.hostFault = some .commandNoValue → ∃ op, s.coreMoves = true ∧ s.regs.seq = .busy op ∧
        none ∈ op.source s.mem))
end

