-- ==== Sys2Proof/Laws/Block.lean ====
section
/-! SUPPORT. What the parameters of a block are (R13), and the range of a masked word (R42). -/

namespace Sys2Proof

namespace Block

theorem two_le_m (b : Block) : 2 ≤ b.m := by
  have := b.wf; simp [Params.wf, Params.widthOk] at this; omega

theorem m_le_eight (b : Block) : b.m ≤ 8 := by
  have := b.wf; simp [Params.wf, Params.widthOk] at this; omega

theorem one_le_t (b : Block) : 1 ≤ b.t := by
  have := b.wf; simp [Params.wf, Params.capabilityOk] at this; omega

/-- `K = N - 2T >= 1` (R13). -/
theorem two_t_lt_n (b : Block) : 2 * b.t + 1 ≤ b.n := by
  have := b.wf; simp [Params.wf, Params.capabilityOk] at this; omega

theorem powers_nodup (b : Block) : ((Machine.buildExp b.toParams).take b.n).Nodup := by
  have := b.wf; simp [Params.wf, Params.primitiveOk] at this; exact this.2.1

theorem powers_ne_zero (b : Block) : ∀ x ∈ (Machine.buildExp b.toParams).take b.n, x ≠ 0 := by
  have := b.wf; simp [Params.wf, Params.primitiveOk] at this; exact this.2.2

theorem q_eq (b : Block) : b.q = 2 ^ b.m := rfl

theorem four_le_q (b : Block) : 4 ≤ b.q :=
  Nat.pow_le_pow_right (n := 2) (by omega) b.two_le_m

theorem q_le (b : Block) : b.q ≤ 256 :=
  Nat.pow_le_pow_right (n := 2) (by omega) b.m_le_eight

theorem n_succ (b : Block) : b.n + 1 = b.q := by
  have := b.four_le_q; simp only [Params.n]; omega

theorem n_pos (b : Block) : 0 < b.n := by
  have := b.four_le_q; have := b.n_succ; omega

theorem m_lt_n (b : Block) : b.m < b.n := by
  have h1 := b.n_succ
  have h2 : b.m + 2 ≤ b.q := by
    have := b.two_le_m
    have hq := b.q_eq
    obtain ⟨k, hk⟩ : ∃ k, b.m = k + 2 := ⟨b.m - 2, by omega⟩
    have : k < 2 ^ k := Nat.lt_two_pow_self
    rw [hq, hk, Nat.pow_add]; omega
  omega

theorem nk_eq (b : Block) : b.nk = 2 * b.t := rfl

theorem nk_add_k (b : Block) : b.k + b.nk = b.n := by
  have := b.two_t_lt_n; simp only [Params.k, Params.nk]; omega

theorem one_le_k (b : Block) : 1 ≤ b.k := by
  have := b.two_t_lt_n; simp only [Params.k]; omega

@[simp] theorem symbolMask_toNat (b : Block) : b.symbolMask.toNat = b.n := by
  have h1 := b.q_le
  have h2 : 2 ^ b.m = b.q := rfl
  simp only [Params.symbolMask, BitVec.toNat_ofNat, Params.n, h2]
  omega

/-- Masking leaves a symbol: bits `[31:M]` become zero (R42). -/
theorem and_symbolMask_lt (b : Block) (w : Word) : (w &&& b.symbolMask).toNat < b.q := by
  have h : (w &&& b.symbolMask).toNat ≤ b.n := by
    rw [BitVec.toNat_and, symbolMask_toNat]; exact Nat.and_le_right
  have := b.n_succ; omega

end Block

end Sys2Proof
end

