-- ==== Sys2Proof/Laws/Tables.lean ====
section
/-! SUPPORT. The table build (R121, R122): its entries are the powers of alpha, the powers repeat after N steps and reach every
nonzero symbol, and multiplying by alpha is linear. -/

namespace Sys2Proof.Machine

/-! ## Lists and sums -/

@[simp] theorem iterateFrom_length {α : Type} (f : α → α) (x : α) (len : Nat) :
    (iterateFrom f x len).length = len := by
  induction len generalizing x with
  | zero => rfl
  | succ len ih => simp [iterateFrom, ih]

theorem iterateFrom_getElem? {α : Type} (f : α → α) (x : α) (len i : Nat) (h : i < len) :
    (iterateFrom f x len)[i]? = some (f^[i] x) := by
  induction len generalizing x i with
  | zero => omega
  | succ len ih =>
    cases i with
    | zero => rfl
    | succ i => simpa [iterateFrom] using ih (f x) i (by omega)

/-- A sum of words below a power of two is below it. -/
theorem xor_lt (w : Nat) {x y : Word} (hx : x.toNat < 2 ^ w) (hy : y.toNat < 2 ^ w) : (x ^^^ y).toNat < 2 ^ w := by
  rw [BitVec.toNat_xor]; exact Nat.xor_lt_two_pow hx hy

theorem xorSum_lt (w len : Nat) (g : Nat → Word) (h : ∀ i < len, (g i).toNat < 2 ^ w) :
    (xorSum len g).toNat < 2 ^ w := by
  induction len with
  | zero => simp [xorSum]
  | succ len ih => exact xor_lt w (ih fun i hi => h i (by omega)) (h len (by omega))

theorem xorSum_congr (len : Nat) (g h : Nat → Word) (e : ∀ i < len, g i = h i) : xorSum len g = xorSum len h := by
  induction len with
  | zero => rfl
  | succ len ih => simp only [xorSum, ih fun i hi => e i (by omega), e len (by omega)]

theorem xorSum_zero (len : Nat) (g : Nat → Word) (e : ∀ i < len, g i = 0) : xorSum len g = 0 := by
  induction len with
  | zero => rfl
  | succ len ih => simp [xorSum, ih fun i hi => e i (by omega), e len (by omega)]

/-! ## Multiplying by alpha -/

section
variable (b : Block)

theorem powerOfTwo_toNat {i : Nat} (h : i < 32) : (powerOfTwo i).toNat = 2 ^ i := by
  have : 2 ^ i < 2 ^ 32 := Nat.pow_lt_pow_right (by omega) h
  simp only [powerOfTwo, BitVec.toNat_shiftLeft, BitVec.toNat_ofNat, Nat.shiftLeft_eq]
  rw [Nat.mod_eq_of_lt (a := 1) (by omega), Nat.one_mul, Nat.mod_eq_of_lt this]

theorem alphaToM_lt : (alphaToM b.toParams).toNat < b.q := by
  refine xorSum_lt b.m b.m _ fun i hi => ?_
  have := b.m_le_eight
  split
  · rw [powerOfTwo_toNat (by omega)]; exact Nat.pow_lt_pow_right (by omega) hi
  · exact Nat.two_pow_pos _

/-- The top bit of a symbol decides the comparison of R121. -/
theorem le_iff_topBit {x : Word} (hx : x.toNat < b.q) :
    powerOfTwo (b.m - 1) ≤ x ↔ x.getLsbD (b.m - 1) = true := by
  have h2 := b.two_le_m
  have h8 := b.m_le_eight
  have hm : b.m - 1 + 1 = b.m := by omega
  rw [BitVec.le_def, powerOfTwo_toNat (by omega)]
  constructor
  · intro h
    exact Nat.testBit_of_two_pow_le_and_two_pow_add_one_gt h (by rw [hm]; exact hx)
  · intro h
    exact Nat.ge_two_pow_of_testBit h

/-- The bits the reduction of R121 adds when bit `M-1` shifts out. -/
def reduction (p : Params) : Word := alphaToM p ^^^ (powerOfTwo (p.m - 1) <<< 1)

/-- Multiplying by alpha is a shift and a reduction under the top bit. -/
theorem timesAlpha_eq {x : Word} (hx : x.toNat < b.q) :
    timesAlpha b.toParams x = (x <<< 1) ^^^ (if x.getLsbD (b.m - 1) then reduction b.toParams else 0) := by
  simp only [timesAlpha, le_iff_topBit b hx, reduction]
  split
  · rw [BitVec.shiftLeft_xor_distrib]; ac_rfl
  · simp

@[simp] theorem timesAlpha_zero : timesAlpha b.toParams 0 = 0 := by
  have h : (0 : Word).toNat < b.q := by have := b.four_le_q; simp; omega
  rw [timesAlpha_eq b h]; simp

theorem xor_swap_pairs (a c d : Word) : (a ^^^ d) ^^^ (c ^^^ d) = (a ^^^ c) ^^^ (d ^^^ d) := by ac_rfl

/-- Multiplying by alpha is linear on symbols. -/
theorem timesAlpha_xor {x y : Word} (hx : x.toNat < b.q) (hy : y.toNat < b.q) :
    timesAlpha b.toParams (x ^^^ y) = timesAlpha b.toParams x ^^^ timesAlpha b.toParams y := by
  have hxy : (x ^^^ y).toNat < b.q := xor_lt b.m hx hy
  rw [timesAlpha_eq b hxy, timesAlpha_eq b hx, timesAlpha_eq b hy, BitVec.shiftLeft_xor_distrib]
  simp only [BitVec.getLsbD_xor]
  cases x.getLsbD (b.m - 1) <;> cases y.getLsbD (b.m - 1) <;> simp
  · ac_rfl
  · ac_rfl
  · rw [xor_swap_pairs, BitVec.xor_self]; simp

theorem timesAlpha_lt {x : Word} (hx : x.toNat < b.q) : (timesAlpha b.toParams x).toNat < b.q := by
  have h2 := b.two_le_m
  have h8 := b.m_le_eight
  have hlt : ∀ y : Word, y.toNat < 2 ^ (b.m - 1) → (y <<< 1).toNat < b.q := by
    intro y hy
    have : b.q = 2 ^ (b.m - 1) * 2 := by rw [b.q_eq, ← Nat.pow_succ]; congr 1; omega
    rw [BitVec.toNat_shiftLeft, Nat.shiftLeft_eq]
    exact Nat.lt_of_le_of_lt (Nat.mod_le _ _) (by omega)
  have hm : b.m - 1 + 1 = b.m := by omega
  by_cases h : powerOfTwo (b.m - 1) ≤ x
  · simp only [timesAlpha, h, if_true]
    refine xor_lt b.m (alphaToM_lt b) (hlt _ ?_)
    rw [BitVec.toNat_xor, powerOfTwo_toNat (by omega)]
    refine Nat.lt_pow_two_of_testBit _ fun i hi => ?_
    have htop := (le_iff_topBit b hx).1 h
    rw [Nat.testBit_xor, Nat.testBit_two_pow]
    by_cases e : b.m - 1 = i
    · subst e; rw [BitVec.testBit_toNat, htop]; simp
    · have : x.toNat.testBit i = false :=
        Nat.testBit_eq_false_of_lt (Nat.lt_of_lt_of_le hx (Nat.pow_le_pow_right (by omega) (by omega)))
      simp [this, e]
  · simp only [timesAlpha, h, if_false]
    refine hlt x ?_
    rw [BitVec.le_def, powerOfTwo_toNat (by omega)] at h
    omega

/-! ## The powers of alpha -/

/-- `alpha^i`: `i` multiplications of 1 by alpha. -/
def alphaPow (p : Params) (i : Nat) : Word := (timesAlpha p)^[i] 1

@[simp] theorem alphaPow_zero : alphaPow b.toParams 0 = 1 := rfl

theorem alphaPow_succ (i : Nat) : alphaPow b.toParams (i + 1) = timesAlpha b.toParams (alphaPow b.toParams i) :=
  Function.iterate_succ_apply' _ _ _

theorem alphaPow_lt (i : Nat) : (alphaPow b.toParams i).toNat < b.q := by
  induction i with
  | zero => have := b.four_le_q; simp; omega
  | succ i ih => rw [alphaPow_succ]; exact timesAlpha_lt b ih

theorem alphaPow_below_m {i : Nat} (h : i < b.m) : alphaPow b.toParams i = powerOfTwo i := by
  have h8 := b.m_le_eight
  induction i with
  | zero => rfl
  | succ i ih =>
    rw [alphaPow_succ, ih (by omega)]
    have hnot : ¬ powerOfTwo (b.m - 1) ≤ powerOfTwo i := by
      rw [BitVec.le_def, powerOfTwo_toNat (by omega), powerOfTwo_toNat (by omega), Nat.not_le]
      exact Nat.pow_lt_pow_right (by omega) (by omega)
    simp only [timesAlpha, hnot, if_false]
    simp only [powerOfTwo, ← BitVec.shiftLeft_add]

theorem alphaPow_m : alphaPow b.toParams b.m = alphaToM b.toParams := by
  have h2 := b.two_le_m
  obtain ⟨k, hk⟩ : ∃ k, b.m = k + 1 := ⟨b.m - 1, by omega⟩
  rw [hk, alphaPow_succ, alphaPow_below_m b (by omega)]
  have : b.m - 1 = k := by omega
  simp [timesAlpha, this]

@[simp] theorem buildExp_length : (buildExp b.toParams).length = b.n + 1 := by
  have := b.m_lt_n
  simp [buildExp]; omega

/-- The table holds the powers of alpha (R121). -/
theorem buildExp_getElem? {i : Nat} (h : i < b.n) : (buildExp b.toParams)[i]? = some (alphaPow b.toParams i) := by
  have hmn := b.m_lt_n
  by_cases him : i < b.m
  · rw [alphaPow_below_m b him]
    simp [buildExp, List.getElem?_append, him]
  · obtain ⟨k, rfl⟩ : ∃ k, i = b.m + k := ⟨i - b.m, by omega⟩
    have e : alphaPow b.toParams (b.m + k) = (timesAlpha b.toParams)^[k] (alphaToM b.toParams) := by
      rw [← alphaPow_m b, alphaPow, alphaPow, ← Function.iterate_add_apply, Nat.add_comm]
    rw [e]
    have hk : k < b.n - b.m := by omega
    have hnot : ¬ b.m + k < b.m := by omega
    rw [buildExp, List.append_assoc, List.getElem?_append, List.length_map, List.length_range, if_neg hnot,
      Nat.add_sub_cancel_left, List.getElem?_append, iterateFrom_length, if_pos hk, iterateFrom_getElem? _ _ _ _ hk]

theorem powers_eq : (buildExp b.toParams).take b.n = (List.range b.n).map (alphaPow b.toParams) := by
  apply List.ext_getElem?
  intro i
  by_cases h : i < b.n
  · rw [List.getElem?_take, if_pos h, buildExp_getElem? b h]; simp [h]
  · rw [List.getElem?_take, if_neg h]; simp [h]

theorem alphaPow_injOn {i j : Nat} (hi : i < b.n) (hj : j < b.n)
    (h : alphaPow b.toParams i = alphaPow b.toParams j) : i = j := by
  have hd := b.powers_nodup
  rw [powers_eq] at hd
  exact List.inj_on_of_nodup_map hd (by simpa using hi) (by simpa using hj) h

theorem alphaPow_ne_zero_below {i : Nat} (hi : i < b.n) : alphaPow b.toParams i ≠ 0 := by
  refine b.powers_ne_zero _ ?_
  rw [powers_eq]
  exact List.mem_map.2 ⟨i, by simpa using hi, rfl⟩

/-- Every nonzero symbol is a power of alpha (R124): N distinct nonzero powers among N nonzero symbols. -/
theorem exists_alphaPow {x : Word} (h0 : x ≠ 0) (hx : x.toNat < b.q) :
    ∃ i < b.n, alphaPow b.toParams i = x := by
  classical
  have hn := b.n_succ
  let pw : Finset Nat := (Finset.range b.n).image fun i => (alphaPow b.toParams i).toNat
  have hcard : pw.card = b.n := by
    rw [Finset.card_image_of_injOn, Finset.card_range]
    intro i hi j hj e
    exact alphaPow_injOn b (by simpa using hi) (by simpa using hj) (BitVec.eq_of_toNat_eq e)
  have hsub : pw ⊆ Finset.Ico 1 b.q := by
    intro v hv
    obtain ⟨i, hi, rfl⟩ := Finset.mem_image.1 hv
    have hne := alphaPow_ne_zero_below b (by simpa using hi : i < b.n)
    have : (alphaPow b.toParams i).toNat ≠ 0 := fun e => hne (BitVec.eq_of_toNat_eq (by simpa using e))
    exact Finset.mem_Ico.2 ⟨by omega, alphaPow_lt b i⟩
  have heq : pw = Finset.Ico 1 b.q := Finset.eq_of_subset_of_card_le hsub (by rw [hcard, Nat.card_Ico]; omega)
  have hx0 : x.toNat ≠ 0 := fun e => h0 (BitVec.eq_of_toNat_eq (by simpa using e))
  have hmem : x.toNat ∈ pw := by rw [heq]; exact Finset.mem_Ico.2 ⟨by omega, hx⟩
  obtain ⟨i, hi, e⟩ := Finset.mem_image.1 hmem
  exact ⟨i, by simpa using hi, BitVec.eq_of_toNat_eq e⟩

/-- Multiplying a nonzero symbol by alpha does not give zero. -/
theorem timesAlpha_ne_zero {x : Word} (h0 : x ≠ 0) (hx : x.toNat < b.q) : timesAlpha b.toParams x ≠ 0 := by
  intro hz
  have hn := b.m_lt_n
  have h2 := b.two_le_m
  -- only the last power can go to zero
  have last : ∀ y : Word, y ≠ 0 → y.toNat < b.q → timesAlpha b.toParams y = 0 → y = alphaPow b.toParams (b.n - 1) := by
    intro y hy0 hy hyz
    obtain ⟨k, hk, rfl⟩ := exists_alphaPow b hy0 hy
    by_cases e : k = b.n - 1
    · rw [e]
    · exact absurd (by rw [alphaPow_succ]; exact hyz) (alphaPow_ne_zero_below b (i := k + 1) (by omega))
  have one_lt : (1 : Word).toNat < b.q := by have := b.four_le_q; simp; omega
  have hxl := last x h0 hx hz
  have hx1 : x ≠ 1 := by
    intro e
    have : alphaPow b.toParams 0 = alphaPow b.toParams (b.n - 1) := by rw [← hxl, e]; rfl
    have := alphaPow_injOn b (by omega) (by omega) this
    omega
  have hne : 1 ^^^ x ≠ 0 := fun e => hx1 (BitVec.xor_eq_zero_iff.1 e).symm
  have hlt : (1 ^^^ x).toNat < b.q := xor_lt b.m one_lt hx
  have hstep : timesAlpha b.toParams (1 ^^^ x) = alphaPow b.toParams 1 := by
    rw [timesAlpha_xor b one_lt hx, hz]; exact BitVec.xor_zero
  obtain ⟨j, hj, e⟩ := exists_alphaPow b hne hlt
  by_cases hjl : j = b.n - 1
  · have h1 : (1 : Word) ^^^ x = x := by rw [← e, hjl, ← hxl]
    have h2 : (1 : Word) ^^^ x ^^^ x = x ^^^ x := congrArg (· ^^^ x) h1
    rw [BitVec.xor_assoc, BitVec.xor_self] at h2
    exact absurd h2 (by decide)
  · have h1 : alphaPow b.toParams (j + 1) = alphaPow b.toParams 1 := by rw [alphaPow_succ, e, hstep]
    have := alphaPow_injOn b (by omega) (by omega) h1
    have hj0 : j = 0 := by omega
    rw [hj0, alphaPow_zero] at e
    have h2 : (1 : Word) ^^^ 1 = 1 ^^^ (1 ^^^ x) := congrArg ((1 : Word) ^^^ ·) e
    rw [← BitVec.xor_assoc, BitVec.xor_self, BitVec.zero_xor] at h2
    exact h0 h2.symm

theorem timesAlpha_inj {x y : Word} (hx : x.toNat < b.q) (hy : y.toNat < b.q)
    (h : timesAlpha b.toParams x = timesAlpha b.toParams y) : x = y := by
  by_contra hne
  refine timesAlpha_ne_zero b (x := x ^^^ y) (fun e => hne (BitVec.xor_eq_zero_iff.1 e)) (xor_lt b.m hx hy) ?_
  rw [timesAlpha_xor b hx hy, h, BitVec.xor_self]; rfl

/-- The powers come back to 1 after N steps (R123). -/
theorem alphaPow_n : alphaPow b.toParams b.n = 1 := by
  have hn := b.m_lt_n
  obtain ⟨k, hk⟩ : ∃ k, b.n = k + 1 := ⟨b.n - 1, by omega⟩
  have hlast : alphaPow b.toParams k ≠ 0 := alphaPow_ne_zero_below b (by omega)
  have hne := timesAlpha_ne_zero b hlast (alphaPow_lt b k)
  obtain ⟨j, hj, e⟩ := exists_alphaPow b hne (timesAlpha_lt b (alphaPow_lt b k))
  cases j with
  | zero => rw [hk, alphaPow_succ, ← e]; rfl
  | succ j =>
    rw [alphaPow_succ] at e
    have := alphaPow_injOn b (by omega) (by omega) (timesAlpha_inj b (alphaPow_lt b j) (alphaPow_lt b k) e)
    omega

theorem alphaPow_add_n (i : Nat) : alphaPow b.toParams (i + b.n) = alphaPow b.toParams i := by
  have h := alphaPow_n b
  unfold alphaPow at h ⊢
  rw [Function.iterate_add_apply, h]

theorem alphaPow_mod (i : Nat) : alphaPow b.toParams (i % b.n) = alphaPow b.toParams i := by
  conv_rhs => rw [← Nat.mod_add_div i b.n]
  generalize i / b.n = c
  induction c with
  | zero => simp
  | succ c ih => rw [Nat.mul_succ, ← Nat.add_assoc, alphaPow_add_n, ih]

theorem alphaPow_ne_zero (i : Nat) : alphaPow b.toParams i ≠ 0 := by
  rw [← alphaPow_mod]; exact alphaPow_ne_zero_below b (Nat.mod_lt _ b.n_pos)

/-- The last entry duplicates the first (R121, conflict C8). -/
theorem buildExp_last : (buildExp b.toParams)[b.n]? = some 1 := by
  have := b.m_lt_n
  have h1 : b.n - b.m - (b.n - b.m) = 0 := by omega
  have h2 : ¬ b.n < b.m := by omega
  simp [buildExp, List.getElem?_append, h2, powerOfTwo]

theorem mem_buildExp {w : Word} (h : w ∈ buildExp b.toParams) : ∃ i ≤ b.n, w = alphaPow b.toParams i := by
  obtain ⟨i, hi⟩ := List.mem_iff_getElem?.1 h
  have hlen : i < (buildExp b.toParams).length := (List.getElem?_eq_some_iff.1 hi).1
  rw [buildExp_length] at hlen
  by_cases e : i = b.n
  · rw [e, buildExp_last] at hi
    exact ⟨0, by omega, by simpa using hi.symm⟩
  · rw [buildExp_getElem? b (by omega)] at hi
    exact ⟨i, by omega, by simpa using hi.symm⟩

theorem buildExp_lt {w : Word} (h : w ∈ buildExp b.toParams) : w.toNat < b.q := by
  obtain ⟨i, -, rfl⟩ := mem_buildExp b h
  exact alphaPow_lt b i

/-! ## The logarithm table -/

theorem idxOf_alphaPow {i : Nat} (h : i < b.n) :
    ((buildExp b.toParams).take b.n).idxOf (alphaPow b.toParams i) = i := by
  rw [powers_eq]
  have hd : ((List.range b.n).map (alphaPow b.toParams)).Nodup := by rw [← powers_eq]; exact b.powers_nodup
  have := hd.idxOf_getElem i (by simpa using h)
  simpa using this

@[simp] theorem buildLog_length (exp : List Word) : (buildLog b.toParams exp).length = b.q := by simp [buildLog]

theorem buildLog_zero (exp : List Word) : (buildLog b.toParams exp)[0]? = some undef := by
  have := b.four_le_q
  have h : 0 < b.q := by omega
  simp [buildLog, h]

/-- The logarithm of a power of alpha is its exponent (R122). -/
theorem buildLog_alphaPow {i : Nat} (h : i < b.n) :
    (buildLog b.toParams (buildExp b.toParams))[(alphaPow b.toParams i).toNat]? = some (BitVec.ofNat 32 i) := by
  have hlt := alphaPow_lt b i
  have hne : (alphaPow b.toParams i).toNat ≠ 0 := fun e => alphaPow_ne_zero b i (BitVec.eq_of_toNat_eq (by simpa using e))
  simp [buildLog, hlt, hne, idxOf_alphaPow b h]

theorem mem_buildLog {w : Word} (h : w ∈ buildLog b.toParams (buildExp b.toParams)) : w = undef ∨ w.toNat < b.n := by
  have hq := b.q_le
  have hn := b.n_succ
  obtain ⟨x, hx, rfl⟩ := List.mem_map.1 h
  rw [List.mem_range] at hx
  by_cases h0 : x = 0
  · exact .inl (by simp [h0])
  · right
    have hxw : (BitVec.ofNat 32 x : Word).toNat = x := by simp; omega
    obtain ⟨i, hi, e⟩ := exists_alphaPow b (x := BitVec.ofNat 32 x)
      (fun e => h0 (by have := congrArg BitVec.toNat e; simpa [hxw] using this)) (by rw [hxw]; exact hx)
    rw [if_neg h0, ← e, idxOf_alphaPow b hi]
    simp; omega

end

end Sys2Proof.Machine
end

