-- ==== Sys2Proof/Laws/Range.lean ====
section
/-! SUPPORT. Lengths and ranges of what the algorithms compute: symbols stay symbols, indices stay indices. -/

namespace Sys2Proof.Machine

/-! ## Arithmetic over tables of symbols -/

/-- Every entry of the exponent table is a symbol of `w` bits. -/
def Field.Symbols (f : Field) (w : Nat) : Prop := ∀ x ∈ f.exp, x.toNat < 2 ^ w

/-- A list of sums of symbols, entry by entry. -/
theorem zipWith_gfAdd_lt {w : Nat} {l r : List Word} (hl : ∀ x ∈ l, x.toNat < 2 ^ w) (hr : ∀ x ∈ r, x.toNat < 2 ^ w) :
    ∀ x ∈ List.zipWith gfAdd l r, x.toNat < 2 ^ w := by
  induction l generalizing r with
  | nil => simp
  | cons a l ih =>
    cases r with
    | nil => simp
    | cons c r =>
      intro x hx
      rcases List.mem_cons.1 hx with rfl | hx
      · exact xor_lt w (hl a (by simp)) (hr c (by simp))
      · exact ih (fun y hy => hl y (by simp [hy])) (fun y hy => hr y (by simp [hy])) x hx

section
variable {f : Field} {w : Nat} (hf : f.Symbols w)
include hf

theorem Field.pow_lt (e : Int) : (f.pow e).toNat < 2 ^ w := by
  unfold Field.pow
  generalize (e % (f.n : Int)).toNat = i
  rw [List.getD_eq_getElem?_getD]
  cases h : f.exp[i]? with
  | none => exact Nat.two_pow_pos w
  | some x => exact hf x (List.mem_of_getElem? h)

theorem Field.mul_lt (a c : Word) : (f.mul a c).toNat < 2 ^ w := by
  unfold Field.mul
  split
  · exact Nat.two_pow_pos w
  · exact Field.pow_lt hf _

theorem Field.scale_lt (i : Nat) (g : Word) : (f.scale i g).toNat < 2 ^ w := by
  unfold Field.scale
  split
  · exact Nat.two_pow_pos w
  · exact Field.pow_lt hf _

theorem Field.inject_lt (fe : Nat) (g : Word) : (f.inject fe g).toNat < 2 ^ w := by
  unfold Field.inject
  split
  · exact Nat.two_pow_pos w
  · exact Field.pow_lt hf _

theorem Field.div_lt (hn : f.n < 2 ^ w) (a c : Word) : (f.div a c).toNat < 2 ^ w := by
  unfold Field.div
  split
  · rw [BitVec.toNat_and, BitVec.toNat_ofNat]
    exact Nat.lt_of_le_of_lt (Nat.le_trans Nat.and_le_right (Nat.mod_le _ _)) hn
  · split
    · exact Nat.two_pow_pos w
    · exact Field.pow_lt hf _

theorem Field.syndrome_lt (rx : List Word) (i : Nat) : (f.syndrome rx i).toNat < 2 ^ w :=
  xorSum_lt w _ _ fun _ _ => Field.mul_lt hf _ _

theorem Field.syndromes_lt (nk : Nat) (rx : List Word) : ∀ x ∈ f.syndromes nk rx, x.toNat < 2 ^ w := by
  intro x hx
  obtain ⟨j, -, rfl⟩ := List.mem_map.1 hx
  exact Field.syndrome_lt hf rx _

/-! ## The encoder -/

theorem Field.shiftRegister_lt (gen reg : List Word) (d : Word) (h : ∀ x ∈ reg, x.toNat < 2 ^ w) :
    ∀ x ∈ f.shiftRegister gen reg d, x.toNat < 2 ^ w := by
  have hshift : ∀ x ∈ (0 : Word) :: reg.dropLast, x.toNat < 2 ^ w := by
    intro x hx
    rcases List.mem_cons.1 hx with rfl | hx
    · exact Nat.two_pow_pos w
    · exact h x (List.mem_of_mem_dropLast hx)
  simp only [Field.shiftRegister]
  split
  · exact hshift
  · refine zipWith_gfAdd_lt hshift ?_
    intro x hx
    obtain ⟨g, -, rfl⟩ := List.mem_map.1 hx
    exact Field.inject_lt hf _ g

theorem Field.parity_lt (gen : List Word) (nk : Nat) (data : List Word) :
    ∀ x ∈ f.parity gen nk data, x.toNat < 2 ^ w := by
  intro x hx
  simp only [Field.parity, List.mem_reverse] at hx
  have key : ∀ (data reg : List Word), (∀ y ∈ reg, y.toNat < 2 ^ w) →
      ∀ y ∈ data.foldl (f.shiftRegister (gen.take nk)) reg, y.toNat < 2 ^ w := by
    intro data
    induction data with
    | nil => intro reg h; exact h
    | cons d data ih => intro reg h; exact ih _ (Field.shiftRegister_lt hf _ reg d h)
  refine key data _ ?_ x hx
  intro y hy
  rw [(List.mem_replicate.1 hy).2]
  exact Nat.two_pow_pos w

/-! ## The decoder -/

theorem Field.magnitudes_lt (hn : f.n < 2 ^ w) (synd : List Word) (loc : Locator) (roots : List Nat) :
    ∀ x ∈ f.magnitudes synd loc roots, x.toNat < 2 ^ w := by
  intro x hx
  obtain ⟨c, -, rfl⟩ := List.mem_map.1 hx
  simp only [Field.magnitude]
  split
  · exact Nat.two_pow_pos w
  · exact Field.div_lt hf hn _ _

end

theorem Field.shiftRegister_length (f : Field) (gen reg : List Word) (d : Word) (nk : Nat) (hnk : 0 < nk)
    (hg : gen.length = nk) (hr : reg.length = nk) : (f.shiftRegister gen reg d).length = nk := by
  simp only [Field.shiftRegister]
  split <;> simp [hg, hr] <;> omega

theorem Field.parity_length (f : Field) (gen : List Word) (nk : Nat) (data : List Word) (hnk : 0 < nk)
    (hg : nk ≤ gen.length) : (f.parity gen nk data).length = nk := by
  have key : ∀ (data reg : List Word), reg.length = nk →
      (data.foldl (f.shiftRegister (gen.take nk)) reg).length = nk := by
    intro data
    induction data with
    | nil => intro reg h; exact h
    | cons d data ih =>
      intro reg h
      exact ih _ (f.shiftRegister_length _ reg d nk hnk (by simp; omega) h)
  simp only [Field.parity, List.length_reverse]
  exact key data _ (by simp)

@[simp] theorem Field.syndromes_length (f : Field) (nk : Nat) (rx : List Word) : (f.syndromes nk rx).length = nk := by
  simp [Field.syndromes]

@[simp] theorem padded_length (len : Nat) (l : List Word) : (padded len l).length = len := by
  simp [padded]

/-- Padding adds only zeros. -/
theorem padded_lt {bound len : Nat} (h0 : 0 < bound) {l : List Word} (h : ∀ x ∈ l, x.toNat < bound) :
    ∀ x ∈ padded len l, x.toNat < bound := by
  intro x hx
  rcases List.mem_append.1 (List.mem_of_mem_take hx) with hx | hx
  · exact h x hx
  · rw [(List.mem_replicate.1 hx).2]; simpa using h0

@[simp] theorem correctEntry_length (rx : List Word) (fix : Nat × Word) : (correctEntry rx fix).length = rx.length := by
  simp [correctEntry]

theorem correctEntry_lt {w : Nat} {rx : List Word} {fix : Nat × Word} (h : ∀ x ∈ rx, x.toNat < 2 ^ w)
    (hf : fix.2.toNat < 2 ^ w) : ∀ x ∈ correctEntry rx fix, x.toNat < 2 ^ w := by
  intro x hx
  rcases List.mem_or_eq_of_mem_set hx with hx | rfl
  · exact h x hx
  · refine xor_lt w ?_ hf
    rw [List.getD_eq_getElem?_getD]
    cases e : rx[fix.1]? with
    | none => exact Nat.two_pow_pos w
    | some y => exact h y (List.mem_of_getElem? e)

theorem Field.correct_length (f : Field) (rx : List Word) (roots : List Nat) (mags : List Word) :
    (f.correct rx roots mags).length = rx.length := by
  have key : ∀ (fixes : List (Nat × Word)) (rx : List Word), (fixes.foldl correctEntry rx).length = rx.length := by
    intro fixes
    induction fixes with
    | nil => intro rx; rfl
    | cons fix fixes ih => intro rx; simpa using ih (correctEntry rx fix)
  exact key _ rx

theorem Field.correct_lt {w : Nat} (f : Field) (rx : List Word) (roots : List Nat) (mags : List Word)
    (h : ∀ x ∈ rx, x.toNat < 2 ^ w) (hm : ∀ x ∈ mags, x.toNat < 2 ^ w) :
    ∀ x ∈ f.correct rx roots mags, x.toNat < 2 ^ w := by
  have key : ∀ (fixes : List (Nat × Word)) (rx : List Word), (∀ fix ∈ fixes, fix.2.toNat < 2 ^ w) →
      (∀ x ∈ rx, x.toNat < 2 ^ w) → ∀ x ∈ fixes.foldl correctEntry rx, x.toNat < 2 ^ w := by
    intro fixes
    induction fixes with
    | nil => intro rx _ h; exact h
    | cons fix fixes ih =>
      intro rx hfix h
      exact ih _ (fun e he => hfix e (by simp [he])) (correctEntry_lt h (hfix fix (by simp)))
  exact key _ rx (fun fix hfix => hm _ (List.of_mem_zip hfix).2) h

theorem Field.rootIndex_lt (f : Field) {i : Nat} (hn : 0 < f.n) : f.rootIndex i < f.n := by
  simp only [Field.rootIndex]; omega

/-- The lists a DECODE writes have their lengths and hold values of their kinds. -/
structure Decoded.Shaped (r : Decoded) (n nk t w : Nat) : Prop where
  synd_length : r.synd.length = nk
  errpos_length : r.errpos.length = t
  errval_length : r.errval.length = t
  out_length : r.out.length = n
  synd_lt : ∀ x ∈ r.synd, x.toNat < 2 ^ w
  errpos_lt : ∀ x ∈ r.errpos, x.toNat < n
  errval_lt : ∀ x ∈ r.errval, x.toNat < 2 ^ w
  out_lt : ∀ x ∈ r.out, x.toNat < 2 ^ w

theorem Field.decodeWord_shaped {f : Field} {w : Nat} (hf : f.Symbols w) (hn0 : 0 < f.n) (hn : f.n < 2 ^ w)
    (nk t : Nat) (rx : List Word) (hlen : rx.length = f.n) (hrx : ∀ x ∈ rx, x.toNat < 2 ^ w) :
    (f.decodeWord nk t rx).Shaped f.n nk t w := by
  have hs := Field.syndromes_lt hf nk rx
  have zeros : ∀ bound, 0 < bound → ∀ x ∈ List.replicate t (0 : Word), x.toNat < bound := by
    intro bound hb x hx; rw [(List.mem_replicate.1 hx).2]; simpa using hb
  have hpos : ∀ (roots : List Nat), ∀ x ∈ padded t (roots.map fun i => BitVec.ofNat 32 (f.rootIndex i)), x.toNat < f.n := by
    intro roots
    refine padded_lt hn0 ?_
    intro x hx
    obtain ⟨i, -, rfl⟩ := List.mem_map.1 hx
    rw [BitVec.toNat_ofNat]
    exact Nat.lt_of_le_of_lt (Nat.mod_le _ _) (f.rootIndex_lt hn0)
  simp only [Field.decodeWord]
  split
  · exact ⟨by simp, by simp, by simp, hlen, hs, zeros _ hn0, zeros _ (Nat.two_pow_pos w), hrx⟩
  · split
    · exact ⟨by simp, by simp, by simp, hlen, hs, zeros _ hn0, zeros _ (Nat.two_pow_pos w), hrx⟩
    · split
      · exact ⟨by simp, by simp, by simp, hlen, hs, hpos _, zeros _ (Nat.two_pow_pos w), hrx⟩
      · refine ⟨by simp, by simp, by simp, by simpa [Field.correct_length] using hlen, hs, hpos _, ?_, ?_⟩
        · exact padded_lt (Nat.two_pow_pos w) (Field.magnitudes_lt hf hn _ _ _)
        · exact Field.correct_lt f rx _ _ hrx (Field.magnitudes_lt hf hn _ _ _)

/-! ## The generator -/

section
variable (b : Block)

theorem buildField_symbols : (buildField b.toParams).Symbols b.m := fun x hx => buildExp_lt b (w := x) hx

/-- A logarithm read for a nonzero symbol is an exponent below N (R129). -/
theorem logOf_lt {x : Word} (h0 : x ≠ 0) (hx : x.toNat < b.q) : (buildField b.toParams).logOf x < b.n := by
  have hq := b.q_le
  have hn := b.n_succ
  obtain ⟨i, hi, rfl⟩ := exists_alphaPow b h0 hx
  simp only [Field.logOf, buildField, List.getD_eq_getElem?_getD, buildLog_alphaPow b hi, Option.getD_some]
  rw [BitVec.toNat_ofNat]
  exact Nat.lt_of_le_of_lt (Nat.mod_le _ _) hi

theorem timesFactor_length (f : Field) (g : List Word) (i : Nat) : (f.timesFactor g i).length = g.length + 1 := by
  simp [Field.timesFactor]

theorem generator_length : ((buildField b.toParams).generator b.nk).length = b.nk + 1 := by
  have key : ∀ (is : List Nat) (f : Field) (g : List Word), (is.foldl f.timesFactor g).length = g.length + is.length := by
    intro is f
    induction is with
    | nil => intro g; rfl
    | cons i is ih => intro g; rw [List.foldl_cons, ih, timesFactor_length]; simp; omega
  have := b.one_le_t
  rw [Field.generator, key]
  simp [Params.nk]; omega

theorem generator_lt : ∀ x ∈ (buildField b.toParams).generator b.nk, x.toNat < b.q := by
  have hf := buildField_symbols b
  have key : ∀ (is : List Nat) (g : List Word), (∀ x ∈ g, x.toNat < 2 ^ b.m) →
      ∀ x ∈ is.foldl (buildField b.toParams).timesFactor g, x.toNat < 2 ^ b.m := by
    intro is
    induction is with
    | nil => intro g h; exact h
    | cons i is ih =>
      intro g h
      refine ih _ ?_
      refine zipWith_gfAdd_lt ?_ ?_
      · intro x hx
        rcases List.mem_cons.1 hx with rfl | hx
        · exact Nat.two_pow_pos _
        · exact h x hx
      · intro x hx
        rcases List.mem_append.1 hx with hx | hx
        · obtain ⟨g', -, rfl⟩ := List.mem_map.1 hx
          exact Field.scale_lt hf _ _
        · rw [List.mem_singleton.1 hx]; exact Nat.two_pow_pos _
  refine key _ _ ?_
  intro x hx
  simp only [List.mem_cons, List.not_mem_nil, or_false] at hx
  rcases hx with rfl | rfl
  · exact Field.pow_lt hf _
  · have : 4 ≤ 2 ^ b.m := b.four_le_q
    show 1 < 2 ^ b.m
    omega

@[simp] theorem buildGen_length : (buildGen b.toParams).length = b.nk + 1 := by
  simp [buildGen, generator_length]

/-- A generator entry is UNDEF or an exponent below N (R53). -/
theorem mem_buildGen {w : Word} (h : w ∈ buildGen b.toParams) : w = undef ∨ w.toNat < b.n := by
  have hn := b.n_succ
  have hq := b.q_le
  obtain ⟨g, hg, rfl⟩ := List.mem_map.1 h
  simp only [Field.toExponent]
  split
  · exact .inl rfl
  · rename_i h0
    have := logOf_lt b h0 (generator_lt b g hg)
    right
    rw [BitVec.toNat_ofNat]
    exact Nat.lt_of_le_of_lt (Nat.mod_le _ _) this

end

end Sys2Proof.Machine
end

