-- ==== Sys2Proof/Laws/Field.lean ====
section
/-! SUPPORT. The arithmetic over the built tables (R125 to R129) in terms of the powers of alpha: a product by a power of alpha is
repeated multiplication by alpha, which is linear. -/

namespace Sys2Proof.Machine

section
variable (b : Block)

@[simp] theorem buildField_n : (buildField b.toParams).n = b.n := rfl

/-- Reading a power reads the table at the reduced exponent (R128). -/
theorem pow_eq_alphaPow (e : Int) : (buildField b.toParams).pow e = alphaPow b.toParams (e % (b.n : Int)).toNat := by
  have hn : (0 : Int) < b.n := by exact_mod_cast b.n_pos
  have h0 := Int.emod_nonneg e (by omega : (b.n : Int) ≠ 0)
  have h1 := Int.emod_lt_of_pos e hn
  have hlt : (e % (b.n : Int)).toNat < b.n := by omega
  show (buildExp b.toParams).getD (e % (b.n : Int)).toNat 0 = _
  rw [List.getD_eq_getElem?_getD, buildExp_getElem? b hlt]
  rfl

theorem pow_natCast (e : Nat) : (buildField b.toParams).pow (e : Int) = alphaPow b.toParams e := by
  rw [pow_eq_alphaPow]
  have : ((e : Int) % (b.n : Int)).toNat = e % b.n := by rw [← Int.natCast_emod]; rfl
  rw [this, alphaPow_mod]

theorem logOf_alphaPow {i : Nat} (h : i < b.n) : (buildField b.toParams).logOf (alphaPow b.toParams i) = i := by
  have hq := b.q_le
  have hn := b.n_succ
  simp only [Field.logOf, buildField, List.getD_eq_getElem?_getD, buildLog_alphaPow b h, Option.getD_some]
  rw [BitVec.toNat_ofNat]
  exact Nat.mod_eq_of_lt (by omega)

@[simp] theorem Field.zero_mul (f : Field) (x : Word) : f.mul 0 x = 0 := by simp [Field.mul]

@[simp] theorem Field.mul_zero (f : Field) (x : Word) : f.mul x 0 = 0 := by simp [Field.mul]

theorem Field.mul_comm (f : Field) (x y : Word) : f.mul x y = f.mul y x := by
  simp only [Field.mul, or_comm (a := x = 0), Int.add_comm (f.logOf x : Int)]

/-- The exponents of a product add (R126). -/
theorem mul_alphaPow (i j : Nat) :
    (buildField b.toParams).mul (alphaPow b.toParams i) (alphaPow b.toParams j) = alphaPow b.toParams (i + j) := by
  have h0 : ¬ (alphaPow b.toParams i = 0 ∨ alphaPow b.toParams j = 0) := by
    rintro (h | h) <;> exact alphaPow_ne_zero b _ h
  have hi := Nat.mod_lt i b.n_pos
  have hj := Nat.mod_lt j b.n_pos
  rw [Field.mul, if_neg h0, ← alphaPow_mod b i, ← alphaPow_mod b j, logOf_alphaPow b hi, logOf_alphaPow b hj,
    ← Int.natCast_add, pow_natCast, ← alphaPow_mod b (i % b.n + j % b.n), ← Nat.add_mod, alphaPow_mod]

/-! ## Repeated multiplication by alpha -/

theorem iterate_lt (i : Nat) {x : Word} (hx : x.toNat < b.q) : ((timesAlpha b.toParams)^[i] x).toNat < b.q := by
  induction i with
  | zero => exact hx
  | succ i ih => rw [Function.iterate_succ_apply']; exact timesAlpha_lt b ih

@[simp] theorem iterate_zero_word (i : Nat) : (timesAlpha b.toParams)^[i] 0 = 0 := by
  induction i with
  | zero => rfl
  | succ i ih => rw [Function.iterate_succ_apply', ih, timesAlpha_zero]

theorem iterate_xor (i : Nat) {x y : Word} (hx : x.toNat < b.q) (hy : y.toNat < b.q) :
    (timesAlpha b.toParams)^[i] (x ^^^ y) = (timesAlpha b.toParams)^[i] x ^^^ (timesAlpha b.toParams)^[i] y := by
  induction i with
  | zero => rfl
  | succ i ih =>
    simp only [Function.iterate_succ_apply', ih]
    exact timesAlpha_xor b (iterate_lt b i hx) (iterate_lt b i hy)

/-- A product by a power of alpha is repeated multiplication by alpha. -/
theorem alphaPow_mul (i : Nat) {y : Word} (hy : y.toNat < b.q) :
    (buildField b.toParams).mul (alphaPow b.toParams i) y = (timesAlpha b.toParams)^[i] y := by
  by_cases h0 : y = 0
  · subst h0; rw [Field.mul_zero, iterate_zero_word]
  · obtain ⟨j, -, rfl⟩ := exists_alphaPow b h0 hy
    rw [mul_alphaPow]
    simp only [alphaPow, Function.iterate_add_apply]

end

end Sys2Proof.Machine
end

