-- ==== Sys2Proof/Laws/State.lean ====
section
/-! SUPPORT. What each update of the state leaves in each field: one lemma per field per update, true by unfolding. -/

namespace Sys2Proof.Machine.State

/-! ### takeInput -/

@[simp] theorem takeInput_block (s : State) (rest : List Input) : (s.takeInput rest).block = s.block := rfl
@[simp] theorem takeInput_regs (s : State) (rest : List Input) : (s.takeInput rest).regs = s.regs := rfl
@[simp] theorem takeInput_mem (s : State) (rest : List Input) : (s.takeInput rest).mem = s.mem := rfl
@[simp] theorem takeInput_inputs (s : State) (rest : List Input) : (s.takeInput rest).env.inputs = rest := rfl
@[simp] theorem takeInput_resp (s : State) (rest : List Input) : (s.takeInput rest).env.resp = s.env.resp := rfl
@[simp] theorem takeInput_wait (s : State) (rest : List Input) : (s.takeInput rest).env.wait = s.env.wait - 1 := rfl
@[simp] theorem takeInput_free (s : State) (rest : List Input) : (s.takeInput rest).env.free = s.env.free := rfl
@[simp] theorem takeInput_hostFault (s : State) (rest : List Input) : (s.takeInput rest).env.hostFault = s.env.hostFault := rfl

/-! ### respond -/

@[simp] theorem respond_block (s : State) (w : Word) (err : Bool) : (s.respond w err).block = s.block := rfl
@[simp] theorem respond_regs (s : State) (w : Word) (err : Bool) : (s.respond w err).regs = s.regs := rfl
@[simp] theorem respond_mem (s : State) (w : Word) (err : Bool) : (s.respond w err).mem = s.mem := rfl
@[simp] theorem respond_inputs (s : State) (w : Word) (err : Bool) : (s.respond w err).env.inputs = s.env.inputs := rfl
@[simp] theorem respond_resp (s : State) (w : Word) (err : Bool) :
    (s.respond w err).env.resp = some { rdata := w, err := err } := rfl
@[simp] theorem respond_wait (s : State) (w : Word) (err : Bool) : (s.respond w err).env.wait = s.env.wait := rfl
@[simp] theorem respond_free (s : State) (w : Word) (err : Bool) : (s.respond w err).env.free = s.env.free := rfl
@[simp] theorem respond_hostFault (s : State) (w : Word) (err : Bool) : (s.respond w err).env.hostFault = s.env.hostFault := rfl

/-! ### acknowledge -/

@[simp] theorem acknowledge_block (s : State) : s.acknowledge.block = s.block := rfl
@[simp] theorem acknowledge_regs (s : State) : s.acknowledge.regs = s.regs := rfl
@[simp] theorem acknowledge_mem (s : State) : s.acknowledge.mem = s.mem := rfl
@[simp] theorem acknowledge_inputs (s : State) : s.acknowledge.env.inputs = s.env.inputs := rfl
@[simp] theorem acknowledge_resp (s : State) :
    s.acknowledge.env.resp = some { rdata := Config.freeWord s.env.free, err := false } := rfl
@[simp] theorem acknowledge_wait (s : State) : s.acknowledge.env.wait = s.env.wait := rfl
@[simp] theorem acknowledge_free (s : State) : s.acknowledge.env.free = s.env.free + 1 := rfl
@[simp] theorem acknowledge_hostFault (s : State) : s.acknowledge.env.hostFault = s.env.hostFault := rfl

/-! ### flagHostFault -/

@[simp] theorem flagHostFault_block (s : State) (f : Fault) : (s.flagHostFault f).block = s.block := rfl
@[simp] theorem flagHostFault_regs (s : State) (f : Fault) : (s.flagHostFault f).regs = s.regs := rfl
@[simp] theorem flagHostFault_mem (s : State) (f : Fault) : (s.flagHostFault f).mem = s.mem := rfl
@[simp] theorem flagHostFault_inputs (s : State) (f : Fault) : (s.flagHostFault f).env.inputs = s.env.inputs := rfl
@[simp] theorem flagHostFault_resp (s : State) (f : Fault) : (s.flagHostFault f).env.resp = s.env.resp := rfl
@[simp] theorem flagHostFault_wait (s : State) (f : Fault) : (s.flagHostFault f).env.wait = s.env.wait := rfl
@[simp] theorem flagHostFault_free (s : State) (f : Fault) : (s.flagHostFault f).env.free = s.env.free := rfl
@[simp] theorem flagHostFault_hostFault (s : State) (f : Fault) :
    (s.flagHostFault f).env.hostFault = some (s.env.hostFault.getD f) := rfl

/-! ### useFree -/

@[simp] theorem useFree_block (s : State) (len : Nat) : (s.useFree len).block = s.block := rfl
@[simp] theorem useFree_regs (s : State) (len : Nat) : (s.useFree len).regs = s.regs := rfl
@[simp] theorem useFree_mem (s : State) (len : Nat) : (s.useFree len).mem = s.mem := rfl
@[simp] theorem useFree_inputs (s : State) (len : Nat) : (s.useFree len).env.inputs = s.env.inputs := rfl
@[simp] theorem useFree_resp (s : State) (len : Nat) : (s.useFree len).env.resp = s.env.resp := rfl
@[simp] theorem useFree_wait (s : State) (len : Nat) : (s.useFree len).env.wait = s.env.wait := rfl
@[simp] theorem useFree_free (s : State) (len : Nat) : (s.useFree len).env.free = s.env.free + len := rfl
@[simp] theorem useFree_hostFault (s : State) (len : Nat) : (s.useFree len).env.hostFault = s.env.hostFault := rfl

/-! ### raiseCmdError -/

@[simp] theorem raiseCmdError_block (s : State) (cause : ErrCause) : (s.raiseCmdError cause).block = s.block := rfl
@[simp] theorem raiseCmdError_ready (s : State) (cause : ErrCause) : (s.raiseCmdError cause).regs.ready = s.regs.ready := rfl
@[simp] theorem raiseCmdError_cmdErr (s : State) (cause : ErrCause) : (s.raiseCmdError cause).regs.cmdErr = true := rfl
@[simp] theorem raiseCmdError_errCause (s : State) (cause : ErrCause) :
    (s.raiseCmdError cause).regs.errCause = if s.regs.cmdErr then s.regs.errCause else cause := rfl
@[simp] theorem raiseCmdError_lastCmd (s : State) (cause : ErrCause) :
    (s.raiseCmdError cause).regs.lastCmd = s.regs.lastCmd := rfl
@[simp] theorem raiseCmdError_seq (s : State) (cause : ErrCause) : (s.raiseCmdError cause).regs.seq = s.regs.seq := rfl
@[simp] theorem raiseCmdError_result (s : State) (cause : ErrCause) : (s.raiseCmdError cause).regs.result = s.regs.result := rfl
@[simp] theorem raiseCmdError_mem (s : State) (cause : ErrCause) : (s.raiseCmdError cause).mem = s.mem := rfl
@[simp] theorem raiseCmdError_env (s : State) (cause : ErrCause) : (s.raiseCmdError cause).env = s.env := rfl

/-! ### clearCmdError -/

@[simp] theorem clearCmdError_block (s : State) : (s.clearCmdError).block = s.block := rfl
@[simp] theorem clearCmdError_ready (s : State) : (s.clearCmdError).regs.ready = s.regs.ready := rfl
@[simp] theorem clearCmdError_cmdErr (s : State) : (s.clearCmdError).regs.cmdErr = false := rfl
@[simp] theorem clearCmdError_errCause (s : State) : (s.clearCmdError).regs.errCause = .noError := rfl
@[simp] theorem clearCmdError_lastCmd (s : State) : (s.clearCmdError).regs.lastCmd = s.regs.lastCmd := rfl
@[simp] theorem clearCmdError_seq (s : State) : (s.clearCmdError).regs.seq = s.regs.seq := rfl
@[simp] theorem clearCmdError_result (s : State) : (s.clearCmdError).regs.result = s.regs.result := rfl
@[simp] theorem clearCmdError_mem (s : State) : (s.clearCmdError).mem = s.mem := rfl
@[simp] theorem clearCmdError_env (s : State) : (s.clearCmdError).env = s.env := rfl

/-! ### setLastCmd -/

@[simp] theorem setLastCmd_block (s : State) (i : Instr) : (s.setLastCmd i).block = s.block := rfl
@[simp] theorem setLastCmd_ready (s : State) (i : Instr) : (s.setLastCmd i).regs.ready = s.regs.ready := rfl
@[simp] theorem setLastCmd_cmdErr (s : State) (i : Instr) : (s.setLastCmd i).regs.cmdErr = s.regs.cmdErr := rfl
@[simp] theorem setLastCmd_errCause (s : State) (i : Instr) : (s.setLastCmd i).regs.errCause = s.regs.errCause := rfl
@[simp] theorem setLastCmd_lastCmd (s : State) (i : Instr) : (s.setLastCmd i).regs.lastCmd = i := rfl
@[simp] theorem setLastCmd_seq (s : State) (i : Instr) : (s.setLastCmd i).regs.seq = s.regs.seq := rfl
@[simp] theorem setLastCmd_result (s : State) (i : Instr) : (s.setLastCmd i).regs.result = s.regs.result := rfl
@[simp] theorem setLastCmd_mem (s : State) (i : Instr) : (s.setLastCmd i).mem = s.mem := rfl
@[simp] theorem setLastCmd_env (s : State) (i : Instr) : (s.setLastCmd i).env = s.env := rfl

/-! ### acceptLong -/

@[simp] theorem acceptLong_block (s : State) (op : LongOp) : (s.acceptLong op).block = s.block := rfl
@[simp] theorem acceptLong_ready (s : State) (op : LongOp) : (s.acceptLong op).regs.ready = (s.regs.ready && op != .init) := rfl
@[simp] theorem acceptLong_cmdErr (s : State) (op : LongOp) : (s.acceptLong op).regs.cmdErr = s.regs.cmdErr := rfl
@[simp] theorem acceptLong_errCause (s : State) (op : LongOp) : (s.acceptLong op).regs.errCause = s.regs.errCause := rfl
@[simp] theorem acceptLong_lastCmd (s : State) (op : LongOp) : (s.acceptLong op).regs.lastCmd = op.instr := rfl
@[simp] theorem acceptLong_seq (s : State) (op : LongOp) : (s.acceptLong op).regs.seq = .busy op := rfl
@[simp] theorem acceptLong_result (s : State) (op : LongOp) : (s.acceptLong op).regs.result = s.regs.result := rfl
@[simp] theorem acceptLong_mem (s : State) (op : LongOp) : (s.acceptLong op).mem = s.mem := rfl
@[simp] theorem acceptLong_inputs (s : State) (op : LongOp) : (s.acceptLong op).env.inputs = s.env.inputs := rfl
@[simp] theorem acceptLong_resp (s : State) (op : LongOp) : (s.acceptLong op).env.resp = s.env.resp := rfl
@[simp] theorem acceptLong_wait (s : State) (op : LongOp) : (s.acceptLong op).env.wait = Config.cmdLatency s.env.free := rfl
@[simp] theorem acceptLong_free (s : State) (op : LongOp) : (s.acceptLong op).env.free = s.env.free + 1 := rfl
@[simp] theorem acceptLong_hostFault (s : State) (op : LongOp) : (s.acceptLong op).env.hostFault = s.env.hostFault := rfl

/-! ### afterReset and platformReset -/

section
variable (b : Block) (inputs : List Input) (free : Nat) (hostFault : Option Fault)

@[simp] theorem afterReset_block : (State.afterReset b inputs free hostFault).block = b := rfl
@[simp] theorem afterReset_regs : (State.afterReset b inputs free hostFault).regs = Regs.reset := rfl
@[simp] theorem afterReset_mem : (State.afterReset b inputs free hostFault).mem = Memory.reset b := rfl
@[simp] theorem afterReset_inputs : (State.afterReset b inputs free hostFault).env.inputs = inputs := rfl
@[simp] theorem afterReset_resp : (State.afterReset b inputs free hostFault).env.resp = none := rfl
@[simp] theorem afterReset_wait : (State.afterReset b inputs free hostFault).env.wait = Config.cmdLatency free + 1 := rfl
@[simp] theorem afterReset_free : (State.afterReset b inputs free hostFault).env.free = free + 1 := rfl
@[simp] theorem afterReset_hostFault : (State.afterReset b inputs free hostFault).env.hostFault = hostFault := rfl

/-- The first input after a reset comes before the core step of the reset-time INIT (R270). -/
theorem afterReset_coreMoves (input : Input) (rest : List Input) :
    (State.afterReset b (input :: rest) free hostFault).coreMoves = false := by
  simp [State.coreMoves]

end

theorem platformReset_eq (s : State) (rest : List Input) :
    s.platformReset rest = State.afterReset s.block rest s.env.free s.env.hostFault := rfl

/-! ### finish -/

@[simp] theorem finish_block (s : State) : (s.finish).block = s.block := rfl
@[simp] theorem finish_ready (s : State) : (s.finish).regs.ready = s.regs.ready := rfl
@[simp] theorem finish_cmdErr (s : State) : (s.finish).regs.cmdErr = s.regs.cmdErr := rfl
@[simp] theorem finish_errCause (s : State) : (s.finish).regs.errCause = s.regs.errCause := rfl
@[simp] theorem finish_lastCmd (s : State) : (s.finish).regs.lastCmd = s.regs.lastCmd := rfl
@[simp] theorem finish_seq (s : State) : (s.finish).regs.seq = .idle := rfl
@[simp] theorem finish_result (s : State) : (s.finish).regs.result = s.regs.result := rfl
@[simp] theorem finish_mem (s : State) : (s.finish).mem = s.mem := rfl
@[simp] theorem finish_env (s : State) : (s.finish).env = s.env := rfl

/-! ### storeData -/

@[simp] theorem storeData_block (s : State) (slot : Nat) (w : Word) : (s.storeData slot w).block = s.block := rfl
@[simp] theorem storeData_regs (s : State) (slot : Nat) (w : Word) : (s.storeData slot w).regs = s.regs := rfl
@[simp] theorem storeData_data (s : State) (slot : Nat) (w : Word) :
    (s.storeData slot w).mem.data = s.mem.data.set slot (some (w &&& s.block.symbolMask)) := rfl
@[simp] theorem storeData_parity (s : State) (slot : Nat) (w : Word) : (s.storeData slot w).mem.parity = s.mem.parity := rfl
@[simp] theorem storeData_rx (s : State) (slot : Nat) (w : Word) : (s.storeData slot w).mem.rx = s.mem.rx := rfl
@[simp] theorem storeData_out (s : State) (slot : Nat) (w : Word) : (s.storeData slot w).mem.out = s.mem.out := rfl
@[simp] theorem storeData_errpos (s : State) (slot : Nat) (w : Word) : (s.storeData slot w).mem.errpos = s.mem.errpos := rfl
@[simp] theorem storeData_errval (s : State) (slot : Nat) (w : Word) : (s.storeData slot w).mem.errval = s.mem.errval := rfl
@[simp] theorem storeData_synd (s : State) (slot : Nat) (w : Word) : (s.storeData slot w).mem.synd = s.mem.synd := rfl
@[simp] theorem storeData_gen (s : State) (slot : Nat) (w : Word) : (s.storeData slot w).mem.gen = s.mem.gen := rfl
@[simp] theorem storeData_exp (s : State) (slot : Nat) (w : Word) : (s.storeData slot w).mem.exp = s.mem.exp := rfl
@[simp] theorem storeData_log (s : State) (slot : Nat) (w : Word) : (s.storeData slot w).mem.log = s.mem.log := rfl
@[simp] theorem storeData_env (s : State) (slot : Nat) (w : Word) : (s.storeData slot w).env = s.env := rfl

/-! ### storeRx -/

@[simp] theorem storeRx_block (s : State) (slot : Nat) (w : Word) : (s.storeRx slot w).block = s.block := rfl
@[simp] theorem storeRx_regs (s : State) (slot : Nat) (w : Word) : (s.storeRx slot w).regs = s.regs := rfl
@[simp] theorem storeRx_data (s : State) (slot : Nat) (w : Word) : (s.storeRx slot w).mem.data = s.mem.data := rfl
@[simp] theorem storeRx_parity (s : State) (slot : Nat) (w : Word) : (s.storeRx slot w).mem.parity = s.mem.parity := rfl
@[simp] theorem storeRx_rx (s : State) (slot : Nat) (w : Word) :
    (s.storeRx slot w).mem.rx = s.mem.rx.set slot (some (w &&& s.block.symbolMask)) := rfl
@[simp] theorem storeRx_out (s : State) (slot : Nat) (w : Word) : (s.storeRx slot w).mem.out = s.mem.out := rfl
@[simp] theorem storeRx_errpos (s : State) (slot : Nat) (w : Word) : (s.storeRx slot w).mem.errpos = s.mem.errpos := rfl
@[simp] theorem storeRx_errval (s : State) (slot : Nat) (w : Word) : (s.storeRx slot w).mem.errval = s.mem.errval := rfl
@[simp] theorem storeRx_synd (s : State) (slot : Nat) (w : Word) : (s.storeRx slot w).mem.synd = s.mem.synd := rfl
@[simp] theorem storeRx_gen (s : State) (slot : Nat) (w : Word) : (s.storeRx slot w).mem.gen = s.mem.gen := rfl
@[simp] theorem storeRx_exp (s : State) (slot : Nat) (w : Word) : (s.storeRx slot w).mem.exp = s.mem.exp := rfl
@[simp] theorem storeRx_log (s : State) (slot : Nat) (w : Word) : (s.storeRx slot w).mem.log = s.mem.log := rfl
@[simp] theorem storeRx_env (s : State) (slot : Nat) (w : Word) : (s.storeRx slot w).env = s.env := rfl

/-! ### buildTables -/

@[simp] theorem buildTables_block (s : State) : (s.buildTables).block = s.block := rfl
@[simp] theorem buildTables_ready (s : State) : (s.buildTables).regs.ready = true := rfl
@[simp] theorem buildTables_cmdErr (s : State) : (s.buildTables).regs.cmdErr = s.regs.cmdErr := rfl
@[simp] theorem buildTables_errCause (s : State) : (s.buildTables).regs.errCause = s.regs.errCause := rfl
@[simp] theorem buildTables_lastCmd (s : State) : (s.buildTables).regs.lastCmd = s.regs.lastCmd := rfl
@[simp] theorem buildTables_seq (s : State) : (s.buildTables).regs.seq = s.regs.seq := rfl
@[simp] theorem buildTables_result (s : State) : (s.buildTables).regs.result = s.regs.result := rfl
@[simp] theorem buildTables_data (s : State) : (s.buildTables).mem.data = s.mem.data := rfl
@[simp] theorem buildTables_parity (s : State) : (s.buildTables).mem.parity = s.mem.parity := rfl
@[simp] theorem buildTables_rx (s : State) : (s.buildTables).mem.rx = s.mem.rx := rfl
@[simp] theorem buildTables_out (s : State) : (s.buildTables).mem.out = s.mem.out := rfl
@[simp] theorem buildTables_errpos (s : State) : (s.buildTables).mem.errpos = s.mem.errpos := rfl
@[simp] theorem buildTables_errval (s : State) : (s.buildTables).mem.errval = s.mem.errval := rfl
@[simp] theorem buildTables_synd (s : State) : (s.buildTables).mem.synd = s.mem.synd := rfl
@[simp] theorem buildTables_gen (s : State) : (s.buildTables).mem.gen = buildGen s.block.toParams := rfl
@[simp] theorem buildTables_exp (s : State) : (s.buildTables).mem.exp = buildExp s.block.toParams := rfl
@[simp] theorem buildTables_log (s : State) :
    (s.buildTables).mem.log = buildLog s.block.toParams (buildExp s.block.toParams) := rfl
@[simp] theorem buildTables_env (s : State) : (s.buildTables).env = s.env := rfl

/-! ### storeDecoded -/

@[simp] theorem storeDecoded_block (s : State) (r : Decoded) : (s.storeDecoded r).block = s.block := rfl
@[simp] theorem storeDecoded_ready (s : State) (r : Decoded) : (s.storeDecoded r).regs.ready = s.regs.ready := rfl
@[simp] theorem storeDecoded_cmdErr (s : State) (r : Decoded) : (s.storeDecoded r).regs.cmdErr = s.regs.cmdErr := rfl
@[simp] theorem storeDecoded_errCause (s : State) (r : Decoded) : (s.storeDecoded r).regs.errCause = s.regs.errCause := rfl
@[simp] theorem storeDecoded_lastCmd (s : State) (r : Decoded) : (s.storeDecoded r).regs.lastCmd = s.regs.lastCmd := rfl
@[simp] theorem storeDecoded_seq (s : State) (r : Decoded) : (s.storeDecoded r).regs.seq = s.regs.seq := rfl
@[simp] theorem storeDecoded_result (s : State) (r : Decoded) : (s.storeDecoded r).regs.result = r.result := rfl
@[simp] theorem storeDecoded_data (s : State) (r : Decoded) : (s.storeDecoded r).mem.data = s.mem.data := rfl
@[simp] theorem storeDecoded_parity (s : State) (r : Decoded) : (s.storeDecoded r).mem.parity = s.mem.parity := rfl
@[simp] theorem storeDecoded_rx (s : State) (r : Decoded) : (s.storeDecoded r).mem.rx = s.mem.rx := rfl
@[simp] theorem storeDecoded_out (s : State) (r : Decoded) : (s.storeDecoded r).mem.out = r.out.map some := rfl
@[simp] theorem storeDecoded_errpos (s : State) (r : Decoded) : (s.storeDecoded r).mem.errpos = r.errpos.map some := rfl
@[simp] theorem storeDecoded_errval (s : State) (r : Decoded) : (s.storeDecoded r).mem.errval = r.errval.map some := rfl
@[simp] theorem storeDecoded_synd (s : State) (r : Decoded) : (s.storeDecoded r).mem.synd = r.synd.map some := rfl
@[simp] theorem storeDecoded_gen (s : State) (r : Decoded) : (s.storeDecoded r).mem.gen = s.mem.gen := rfl
@[simp] theorem storeDecoded_exp (s : State) (r : Decoded) : (s.storeDecoded r).mem.exp = s.mem.exp := rfl
@[simp] theorem storeDecoded_log (s : State) (r : Decoded) : (s.storeDecoded r).mem.log = s.mem.log := rfl
@[simp] theorem storeDecoded_env (s : State) (r : Decoded) : (s.storeDecoded r).env = s.env := rfl

/-! ### storeSyndromes -/

@[simp] theorem storeSyndromes_block (s : State) (synd : List Entry) (z : Bool) : (s.storeSyndromes synd z).block = s.block := rfl
@[simp] theorem storeSyndromes_ready (s : State) (synd : List Entry) (z : Bool) :
    (s.storeSyndromes synd z).regs.ready = s.regs.ready := rfl
@[simp] theorem storeSyndromes_cmdErr (s : State) (synd : List Entry) (z : Bool) :
    (s.storeSyndromes synd z).regs.cmdErr = s.regs.cmdErr := rfl
@[simp] theorem storeSyndromes_errCause (s : State) (synd : List Entry) (z : Bool) :
    (s.storeSyndromes synd z).regs.errCause = s.regs.errCause := rfl
@[simp] theorem storeSyndromes_lastCmd (s : State) (synd : List Entry) (z : Bool) :
    (s.storeSyndromes synd z).regs.lastCmd = s.regs.lastCmd := rfl
@[simp] theorem storeSyndromes_seq (s : State) (synd : List Entry) (z : Bool) :
    (s.storeSyndromes synd z).regs.seq = s.regs.seq := rfl
@[simp] theorem storeSyndromes_result (s : State) (synd : List Entry) (z : Bool) :
    (s.storeSyndromes synd z).regs.result = { s.regs.result with synzero := z } := rfl
@[simp] theorem storeSyndromes_data (s : State) (synd : List Entry) (z : Bool) :
    (s.storeSyndromes synd z).mem.data = s.mem.data := rfl
@[simp] theorem storeSyndromes_parity (s : State) (synd : List Entry) (z : Bool) :
    (s.storeSyndromes synd z).mem.parity = s.mem.parity := rfl
@[simp] theorem storeSyndromes_rx (s : State) (synd : List Entry) (z : Bool) :
    (s.storeSyndromes synd z).mem.rx = s.mem.rx := rfl
@[simp] theorem storeSyndromes_out (s : State) (synd : List Entry) (z : Bool) :
    (s.storeSyndromes synd z).mem.out = s.mem.out := rfl
@[simp] theorem storeSyndromes_errpos (s : State) (synd : List Entry) (z : Bool) :
    (s.storeSyndromes synd z).mem.errpos = s.mem.errpos := rfl
@[simp] theorem storeSyndromes_errval (s : State) (synd : List Entry) (z : Bool) :
    (s.storeSyndromes synd z).mem.errval = s.mem.errval := rfl
@[simp] theorem storeSyndromes_synd (s : State) (synd : List Entry) (z : Bool) :
    (s.storeSyndromes synd z).mem.synd = synd := rfl
@[simp] theorem storeSyndromes_gen (s : State) (synd : List Entry) (z : Bool) :
    (s.storeSyndromes synd z).mem.gen = s.mem.gen := rfl
@[simp] theorem storeSyndromes_exp (s : State) (synd : List Entry) (z : Bool) :
    (s.storeSyndromes synd z).mem.exp = s.mem.exp := rfl
@[simp] theorem storeSyndromes_log (s : State) (synd : List Entry) (z : Bool) :
    (s.storeSyndromes synd z).mem.log = s.mem.log := rfl
@[simp] theorem storeSyndromes_env (s : State) (synd : List Entry) (z : Bool) : (s.storeSyndromes synd z).env = s.env := rfl

end Sys2Proof.Machine.State
end

