-- ==== Sys2Proof/Laws/Memory.lean ====
section
/-! SUPPORT. Every operation over the buffers and tables keeps their canonical form (R17, R41, R44). -/

namespace Sys2Proof.Machine

theorem entriesBelow_iff (bound : Nat) (l : List Entry) :
    entriesBelow bound l = true ↔ ∀ w, some w ∈ l → w.toNat < bound := by
  simp only [entriesBelow, List.all_eq_true]
  constructor
  · intro h w hw; simpa using h (some w) hw
  · intro h e he
    cases e with
    | none => rfl
    | some w => simpa using h w he

theorem exponentsBelow_iff (bound : Nat) (l : List Word) :
    exponentsBelow bound l = true ↔ ∀ w ∈ l, w = undef ∨ w.toNat < bound := by
  simp [exponentsBelow]

/-- The buffers' part of the canonical form, one fact a field. -/
structure Memory.BuffersShaped (b : Block) (mem : Memory) : Prop where
  data_length : mem.data.length = b.k
  parity_length : mem.parity.length = b.nk
  rx_length : mem.rx.length = b.n
  out_length : mem.out.length = b.n
  errpos_length : mem.errpos.length = b.t
  errval_length : mem.errval.length = b.t
  synd_length : mem.synd.length = b.nk
  gen_length : mem.gen.length = b.nk + 1
  exp_length : mem.exp.length = b.n + 1
  log_length : mem.log.length = b.q
  data_lt : ∀ w, some w ∈ mem.data → w.toNat < b.q
  parity_lt : ∀ w, some w ∈ mem.parity → w.toNat < b.q
  rx_lt : ∀ w, some w ∈ mem.rx → w.toNat < b.q
  out_lt : ∀ w, some w ∈ mem.out → w.toNat < b.q
  errpos_lt : ∀ w, some w ∈ mem.errpos → w.toNat < b.n
  errval_lt : ∀ w, some w ∈ mem.errval → w.toNat < b.q
  synd_lt : ∀ w, some w ∈ mem.synd → w.toNat < b.q

/-- The tables' part of the canonical form, one fact a field. -/
structure Memory.TablesShaped (b : Block) (mem : Memory) : Prop where
  gen_lt : ∀ w ∈ mem.gen, w = undef ∨ w.toNat < b.n
  exp_lt : ∀ w ∈ mem.exp, w.toNat < b.q
  log_lt : ∀ w ∈ mem.log, w = undef ∨ w.toNat < b.n

theorem Memory.buffersWf_iff (b : Block) (mem : Memory) : mem.buffersWf b = true ↔ mem.BuffersShaped b := by
  simp only [Memory.buffersWf, Bool.and_eq_true, beq_iff_eq, entriesBelow_iff]
  constructor
  · rintro ⟨⟨⟨⟨⟨⟨⟨⟨⟨⟨⟨⟨⟨⟨⟨⟨h1, h2⟩, h3⟩, h4⟩, h5⟩, h6⟩, h7⟩, h8⟩, h9⟩, h10⟩, h11⟩, h12⟩, h13⟩, h14⟩, h15⟩, h16⟩, h17⟩
    exact ⟨h1, h2, h3, h4, h5, h6, h7, h8, h9, h10, h11, h12, h13, h14, h15, h16, h17⟩
  · intro h
    exact ⟨⟨⟨⟨⟨⟨⟨⟨⟨⟨⟨⟨⟨⟨⟨⟨h.1, h.2⟩, h.3⟩, h.4⟩, h.5⟩, h.6⟩, h.7⟩, h.8⟩, h.9⟩, h.10⟩, h.11⟩, h.12⟩, h.13⟩, h.14⟩, h.15⟩, h.16⟩,
      h.17⟩

theorem Memory.tablesWf_iff (b : Block) (mem : Memory) : mem.tablesWf b = true ↔ mem.TablesShaped b := by
  simp only [Memory.tablesWf, Bool.and_eq_true, exponentsBelow_iff, List.all_eq_true, decide_eq_true_eq]
  exact ⟨fun ⟨⟨h1, h2⟩, h3⟩ => ⟨h1, h2, h3⟩, fun h => ⟨⟨h.1, h.2⟩, h.3⟩⟩

theorem Memory.wf_iff (b : Block) (mem : Memory) : mem.wf b = true ↔ mem.BuffersShaped b ∧ mem.TablesShaped b := by
  rw [Memory.wf, Bool.and_eq_true, Memory.buffersWf_iff, Memory.tablesWf_iff]

/-- With the same tables, only the buffers matter for the canonical form. -/
theorem Memory.wf_of_buffersWf {b : Block} {mem mem' : Memory} (h : mem.wf b = true) (hb : mem'.buffersWf b = true)
    (hg : mem'.gen = mem.gen) (he : mem'.exp = mem.exp) (hl : mem'.log = mem.log) : mem'.wf b = true := by
  rw [Memory.wf, Bool.and_eq_true] at h ⊢
  exact ⟨hb, by simpa only [Memory.tablesWf, hg, he, hl] using h.2⟩

/-- The buffers after reset have the canonical form (R59). -/
theorem Memory.reset_wf (b : Block) : (Memory.reset b).wf b = true := by
  have hq := b.four_le_q
  have hn := b.n_pos
  have hnone : ∀ (len : Nat) (w : Word) (bound : Nat), some w ∈ List.replicate len (none : Entry) → w.toNat < bound := by
    intro len w bound h
    exact absurd (List.mem_replicate.1 h).2 (by simp)
  have hzero : ∀ (len : Nat) (w : Word), w ∈ List.replicate len (0 : Word) → w = 0 :=
    fun len w h => (List.mem_replicate.1 h).2
  rw [Memory.wf_iff]
  constructor <;> constructor <;> simp only [Memory.reset, List.length_replicate]
  all_goals first
    | exact fun w h => hnone _ w _ h
    | (intro w h; rw [hzero _ w h]; first | (right; show 0 < b.n; omega) | (show 0 < b.q; omega))

/-! ## Values of a buffer -/

theorem allValues_eq_some {l : List Entry} {ws : List Word} (h : allValues l = some ws) : l = ws.map some := by
  induction l generalizing ws with
  | nil => simp [allValues] at h; simp [← h]
  | cons e l ih =>
    cases e with
    | none => simp [allValues] at h
    | some w =>
      simp only [allValues] at h
      split at h
      · simp at h
      · rename_i vs hvs
        obtain rfl : w :: vs = ws := by simpa using h
        simp [ih hvs]

@[simp] theorem allValues_map_some (ws : List Word) : allValues (ws.map some) = some ws := by
  induction ws with
  | nil => rfl
  | cons w ws ih => simp [allValues, ih]

/-- A buffer holds all its values exactly when no entry lacks one (R43). -/
theorem allValues_eq_none_iff (l : List Entry) : allValues l = none ↔ none ∈ l := by
  constructor
  · intro h
    by_contra hn
    have : ∃ ws : List Word, l = ws.map some := by
      clear h
      induction l with
      | nil => exact ⟨[], rfl⟩
      | cons e l ih =>
        cases e with
        | none => simp at hn
        | some w =>
          obtain ⟨ws, rfl⟩ := ih (fun hm => hn (by simp [hm]))
          exact ⟨w :: ws, rfl⟩
    obtain ⟨ws, rfl⟩ := this
    simp at h
  · intro h
    cases e : allValues l with
    | none => rfl
    | some ws =>
      rw [allValues_eq_some e] at h
      simp at h

theorem some_mem_map_some {w : Word} {ws : List Word} (h : some w ∈ ws.map some) : w ∈ ws := by simpa using h

/-! ## Free values keep the limits of their entries -/

@[simp] theorem freeSymbols_length (b : Block) (start len : Nat) : (freeSymbols b start len).length = len := by
  simp [freeSymbols]

@[simp] theorem freeIndices_length (b : Block) (start len : Nat) : (freeIndices b start len).length = len := by
  simp [freeIndices]

theorem freeSymbols_lt (b : Block) (start len : Nat) : ∀ w, some w ∈ freeSymbols b start len → w.toNat < b.q := by
  intro w h
  obtain ⟨j, -, e⟩ := List.mem_map.1 h
  rw [← Option.some.inj e]
  exact b.and_symbolMask_lt _

theorem freeIndices_lt (b : Block) (start len : Nat) : ∀ w, some w ∈ freeIndices b start len → w.toNat < b.n := by
  intro w h
  obtain ⟨j, -, e⟩ := List.mem_map.1 h
  rw [← Option.some.inj e, BitVec.toNat_ofNat]
  exact Nat.lt_of_le_of_lt (Nat.mod_le _ _) (Nat.mod_lt _ b.n_pos)

/-! ## Each operation keeps the canonical form

First of the buffers alone, whatever the tables hold where the operation does not read them; then the whole form. -/

namespace State
variable {s : State}

theorem storeData_buffersWf (slot : Nat) (w : Word) (h : s.mem.buffersWf s.block = true) :
    (s.storeData slot w).mem.buffersWf s.block = true := by
  rw [Memory.buffersWf_iff] at h ⊢
  refine { h with data_length := by simpa using h.data_length, data_lt := ?_ }
  intro x hx
  rcases List.mem_or_eq_of_mem_set hx with hx | hx
  · exact h.data_lt x hx
  · rw [Option.some.inj hx]; exact s.block.and_symbolMask_lt w

theorem storeRx_buffersWf (slot : Nat) (w : Word) (h : s.mem.buffersWf s.block = true) :
    (s.storeRx slot w).mem.buffersWf s.block = true := by
  rw [Memory.buffersWf_iff] at h ⊢
  refine { h with rx_length := by simpa using h.rx_length, rx_lt := ?_ }
  intro x hx
  rcases List.mem_or_eq_of_mem_set hx with hx | hx
  · exact h.rx_lt x hx
  · rw [Option.some.inj hx]; exact s.block.and_symbolMask_lt w

theorem buildTables_buffersWf (h : s.mem.buffersWf s.block = true) : s.buildTables.mem.buffersWf s.block = true := by
  rw [Memory.buffersWf_iff] at h ⊢
  exact { h with
    gen_length := buildGen_length _, exp_length := buildExp_length _, log_length := buildLog_length _ _ }

/-- Built tables hold values of their kinds, whatever stood there before. -/
theorem TablesBuilt.tablesWf (h : s.TablesBuilt) : s.mem.tablesWf s.block = true := by
  obtain ⟨he, hl, hg⟩ := h
  rw [Memory.tablesWf_iff]
  exact ⟨fun w hw => mem_buildGen _ (hg ▸ hw), fun w hw => buildExp_lt _ (he ▸ hw), fun w hw => mem_buildLog _ (hl ▸ hw)⟩

theorem field_symbols (h : s.mem.tablesWf s.block = true) : s.field.Symbols s.block.m :=
  fun x hx => ((Memory.tablesWf_iff _ _).1 h).exp_lt x hx

theorem n_lt_two_pow (s : State) : s.field.n < 2 ^ s.block.m := by
  show s.block.n < s.block.q
  have := s.block.n_succ
  omega

theorem encodeData_buffersWf (hf : s.field.Symbols s.block.m) (h : s.mem.buffersWf s.block = true) :
    s.encodeData.mem.buffersWf s.block = true := by
  rw [Memory.buffersWf_iff] at h ⊢
  unfold encodeData
  have hnk : 0 < s.block.nk := by have := s.block.one_le_t; simp only [Params.nk]; omega
  split
  · refine { h with parity_length := ?_, parity_lt := ?_ }
    · simpa using Field.parity_length _ _ _ _ hnk (by rw [h.gen_length]; omega)
    · exact fun w hw => Field.parity_lt hf _ _ _ w (some_mem_map_some hw)
  · exact { h with parity_length := freeSymbols_length _ _ _, parity_lt := freeSymbols_lt _ _ _ }

theorem storeSyndromes_buffersWf (synd : List Entry) (z : Bool) (h : s.mem.buffersWf s.block = true)
    (hlen : synd.length = s.block.nk) (hlt : ∀ w, some w ∈ synd → w.toNat < s.block.q) :
    (s.storeSyndromes synd z).mem.buffersWf s.block = true := by
  rw [Memory.buffersWf_iff] at h ⊢
  exact { h with synd_length := hlen, synd_lt := hlt }

theorem syndromeRx_buffersWf (hf : s.field.Symbols s.block.m) (h : s.mem.buffersWf s.block = true) :
    s.syndromeRx.mem.buffersWf s.block = true := by
  unfold syndromeRx
  split
  · exact storeSyndromes_buffersWf _ _ h (by simp) fun w hw => Field.syndromes_lt hf _ _ w (some_mem_map_some hw)
  · exact storeSyndromes_buffersWf (s := s) _ (freeFlag s.env.free) h (freeSymbols_length _ _ _) (freeSymbols_lt _ _ _)

theorem storeDecoded_buffersWf (r : Decoded) (h : s.mem.buffersWf s.block = true)
    (hr : r.Shaped s.block.n s.block.nk s.block.t s.block.m) : (s.storeDecoded r).mem.buffersWf s.block = true := by
  rw [Memory.buffersWf_iff] at h ⊢
  exact { h with
    out_length := by simpa using hr.out_length, synd_length := by simpa using hr.synd_length
    errpos_length := by simpa using hr.errpos_length, errval_length := by simpa using hr.errval_length
    out_lt := fun w hw => hr.out_lt w (some_mem_map_some hw), synd_lt := fun w hw => hr.synd_lt w (some_mem_map_some hw)
    errpos_lt := fun w hw => hr.errpos_lt w (some_mem_map_some hw)
    errval_lt := fun w hw => hr.errval_lt w (some_mem_map_some hw) }

theorem decodeRx_buffersWf (hf : s.field.Symbols s.block.m) (h : s.mem.buffersWf s.block = true) :
    s.decodeRx.mem.buffersWf s.block = true := by
  have hm := (Memory.buffersWf_iff _ _).1 h
  unfold decodeRx
  split
  · rename_i rx hrx
    have hrx' := allValues_eq_some hrx
    refine storeDecoded_buffersWf _ h (Field.decodeWord_shaped hf s.block.n_pos (n_lt_two_pow s) _ _ _ ?_ ?_)
    · show rx.length = s.block.n
      simpa [hrx'] using hm.rx_length
    · exact fun x hx => hm.rx_lt x (by rw [hrx']; exact List.mem_map.2 ⟨x, hx, rfl⟩)
  · show s.storeUnspecified.mem.buffersWf s.block = true
    rw [Memory.buffersWf_iff]
    exact { hm with
      out_length := freeSymbols_length _ _ _, synd_length := freeSymbols_length _ _ _
      errpos_length := freeIndices_length _ _ _, errval_length := freeSymbols_length _ _ _
      out_lt := freeSymbols_lt _ _ _, synd_lt := freeSymbols_lt _ _ _
      errpos_lt := freeIndices_lt _ _ _, errval_lt := freeSymbols_lt _ _ _ }

/-- A core step keeps the buffers' form; all but that of INIT read the tables. -/
theorem completion_buffersWf (op : LongOp) (hf : op ≠ .init → s.field.Symbols s.block.m)
    (h : s.mem.buffersWf s.block = true) : (completion op s).mem.buffersWf s.block = true := by
  cases op with
  | init => exact buildTables_buffersWf h
  | encode => exact encodeData_buffersWf (hf (by decide)) h
  | decode => exact decodeRx_buffersWf (hf (by decide)) h
  | syndrome => exact syndromeRx_buffersWf (hf (by decide)) h

theorem writeInput_buffersWf (store : State → State) (hs : (store s).mem.buffersWf s.block = true)
    (h : s.mem.buffersWf s.block = true) : (s.writeInput store).mem.buffersWf s.block = true := by
  unfold writeInput
  split
  · exact h
  · exact hs

theorem hostStore_buffersWf (w : Word) (tgt : Target) (h : s.mem.buffersWf s.block = true) :
    (s.hostStore w tgt).mem.buffersWf s.block = true := by
  cases tgt with
  | entry buf slot =>
    cases buf with
    | data => exact writeInput_buffersWf _ (storeData_buffersWf slot w h) h
    | rx => exact writeInput_buffersWf _ (storeRx_buffersWf slot w h) h
    | parity | out | errpos | errval | synd | gen | exp | log => exact h
  | id | config | primpoly | cmd | status | result | reserved => exact h

/-! ### What a core step and a store leave of the tables -/

/-- No core step but that of INIT writes a table (R44). -/
theorem completion_tables (op : LongOp) (hop : op ≠ .init) :
    (completion op s).mem.gen = s.mem.gen ∧ (completion op s).mem.exp = s.mem.exp ∧ (completion op s).mem.log = s.mem.log := by
  cases op with
  | init => exact absurd rfl hop
  | encode => simp only [completion, encodeData]; split <;> exact ⟨rfl, rfl, rfl⟩
  | decode => simp only [completion, decodeRx]; split <;> exact ⟨rfl, rfl, rfl⟩
  | syndrome => simp only [completion, syndromeRx]; split <;> exact ⟨rfl, rfl, rfl⟩

/-- No host write stores in a table (R44). -/
theorem hostStore_tables (w : Word) (tgt : Target) :
    (s.hostStore w tgt).mem.gen = s.mem.gen ∧ (s.hostStore w tgt).mem.exp = s.mem.exp ∧
    (s.hostStore w tgt).mem.log = s.mem.log := by
  cases tgt with
  | entry buf slot =>
    cases buf with
    | data | rx => simp only [hostStore, writeInput]; split <;> exact ⟨rfl, rfl, rfl⟩
    | parity | out | errpos | errval | synd | gen | exp | log => exact ⟨rfl, rfl, rfl⟩
  | id | config | primpoly | cmd | status | result | reserved => exact ⟨rfl, rfl, rfl⟩

/-! ### The whole form -/

theorem completion_wf (op : LongOp) (h : s.mem.wf s.block = true) : (completion op s).mem.wf s.block = true := by
  have hs := h
  rw [Memory.wf, Bool.and_eq_true] at hs
  by_cases hop : op = .init
  · subst hop
    rw [Memory.wf, Bool.and_eq_true]
    exact ⟨buildTables_buffersWf hs.1, TablesBuilt.tablesWf (s := s.buildTables) ⟨rfl, rfl, rfl⟩⟩
  · obtain ⟨hg, he, hl⟩ := completion_tables (s := s) op hop
    exact Memory.wf_of_buffersWf h (completion_buffersWf op (fun _ => field_symbols hs.2) hs.1) hg he hl

theorem hostStore_wf (w : Word) (tgt : Target) (h : s.mem.wf s.block = true) :
    (s.hostStore w tgt).mem.wf s.block = true := by
  have hs := h
  rw [Memory.wf, Bool.and_eq_true] at hs
  obtain ⟨hg, he, hl⟩ := hostStore_tables (s := s) w tgt
  exact Memory.wf_of_buffersWf h (hostStore_buffersWf w tgt hs.1) hg he hl

/-- Whenever READY is 1 the whole canonical form holds. -/
theorem Inv.wf (h : s.Inv) (hr : s.regs.ready = true) : s.mem.wf s.block = true := by
  rw [Memory.wf, Bool.and_eq_true]
  exact ⟨h.buffersWf, TablesBuilt.tablesWf (h.readyTables hr)⟩

end State

end Sys2Proof.Machine
end

