-- ==== Sys2Proof/Laws/Ops.lean ====
section
/-! SUPPORT. What each shared operation, each command and one step can do, said once: an equation for each case, and an inversion
lemma "if it answers next t, then one of these". -/

namespace Sys2Proof.Machine

/-! ## Busy -/

@[simp] theorem Regs.busy_iff (r : Regs) : r.busy = true ↔ ∃ op, r.seq = .busy op := by
  unfold Regs.busy; cases r.seq <;> simp

@[simp] theorem Regs.not_busy_iff (r : Regs) : r.busy = false ↔ r.seq = .idle := by
  unfold Regs.busy; cases r.seq <;> simp

/-! ## The two shapes of a command -/

section
variable {s t : State}

theorem runImmediate_idle (effect : State → State) (h : s.regs.seq = .idle) :
    runImmediate effect s = .next (effect s) := by
  have : s.regs.busy = false := (Regs.not_busy_iff _).2 h
  simp only [runImmediate, this]; rfl

theorem runImmediate_busy (effect : State → State) {op : LongOp} (h : s.regs.seq = .busy op) :
    runImmediate effect s = .next (s.raiseCmdError .cmdWhileBusy) := by
  have : s.regs.busy = true := (Regs.busy_iff _).2 ⟨op, h⟩
  simp only [runImmediate, this]; rfl

theorem runLong_idle (op : LongOp) (c : State → State) (h : s.regs.seq = .idle) :
    runLong op c s = .next (s.acceptLong op) := by
  simp only [runLong, h]

theorem runLong_running (op : LongOp) (c : State → State) (h : s.regs.seq = .busy op) :
    runLong op c s = .next (c s).finish := by
  simp only [runLong, h, if_true]

theorem runLong_other {op running : LongOp} (c : State → State) (h : s.regs.seq = .busy running) (hne : running ≠ op) :
    runLong op c s = .next (s.raiseCmdError .cmdWhileBusy) := by
  simp only [runLong, h, if_neg hne]

/-- What an immediate command can do. -/
theorem runImmediate_cases {effect : State → State} (h : runImmediate effect s = .next t) :
    (s.regs.seq = .idle ∧ t = effect s) ∨ (∃ op, s.regs.seq = .busy op ∧ t = s.raiseCmdError .cmdWhileBusy) := by
  cases hs : s.regs.seq with
  | idle => rw [runImmediate_idle _ hs] at h; exact .inl ⟨rfl, (Host.Outcome.next.inj h).symm⟩
  | busy op => rw [runImmediate_busy _ hs] at h; exact .inr ⟨op, rfl, (Host.Outcome.next.inj h).symm⟩

/-- What a long-running command can do. -/
theorem runLong_cases {op : LongOp} {c : State → State} (h : runLong op c s = .next t) :
    (s.regs.seq = .idle ∧ t = s.acceptLong op) ∨ (s.regs.seq = .busy op ∧ t = (c s).finish) ∨
    (∃ running, running ≠ op ∧ s.regs.seq = .busy running ∧ t = s.raiseCmdError .cmdWhileBusy) := by
  cases hs : s.regs.seq with
  | idle => rw [runLong_idle _ _ hs] at h; exact .inl ⟨rfl, (Host.Outcome.next.inj h).symm⟩
  | busy running =>
    by_cases hr : running = op
    · subst hr
      rw [runLong_running _ _ hs] at h
      exact .inr (.inl ⟨rfl, (Host.Outcome.next.inj h).symm⟩)
    · rw [runLong_other _ hs hr] at h
      exact .inr (.inr ⟨running, hr, rfl, (Host.Outcome.next.inj h).symm⟩)

/-! ## Commands -/

theorem exec_idle (i : Instr) (h : s.regs.seq = .idle) : exec i s = .next (accepted i s) := by
  cases i with
  | nop => exact runImmediate_idle (fun s => s.setLastCmd .nop) h
  | clrerr => exact runImmediate_idle (fun s => (s.setLastCmd .clrerr).clearCmdError) h
  | init | encode | decode | syndrome => exact runLong_idle _ _ h

theorem exec_running (op : LongOp) (h : s.regs.seq = .busy op) : exec op.instr s = .next (completion op s).finish := by
  cases op with
  | init | encode | decode | syndrome => exact runLong_running _ _ h

theorem exec_refused_while_busy (i : Instr) {op : LongOp} (h : s.regs.seq = .busy op) (hne : op.instr ≠ i) :
    exec i s = .next (s.raiseCmdError .cmdWhileBusy) := by
  cases i with
  | nop => exact runImmediate_busy (fun s => s.setLastCmd .nop) h
  | clrerr => exact runImmediate_busy (fun s => (s.setLastCmd .clrerr).clearCmdError) h
  | init | encode | decode | syndrome => exact runLong_other _ h (fun e => hne (by rw [e]; rfl))

/-- What a command can do: be accepted, complete, or be refused because another command runs. -/
theorem exec_cases {i : Instr} (h : exec i s = .next t) :
    (s.regs.seq = .idle ∧ t = accepted i s) ∨
    (∃ op, op.instr = i ∧ s.regs.seq = .busy op ∧ t = (completion op s).finish) ∨
    (∃ op, op.instr ≠ i ∧ s.regs.seq = .busy op ∧ t = s.raiseCmdError .cmdWhileBusy) := by
  cases hs : s.regs.seq with
  | idle => rw [exec_idle i hs] at h; exact .inl ⟨rfl, (Host.Outcome.next.inj h).symm⟩
  | busy op =>
    by_cases hi : op.instr = i
    · subst hi
      rw [exec_running op hs] at h
      exact .inr (.inl ⟨op, rfl, rfl, (Host.Outcome.next.inj h).symm⟩)
    · rw [exec_refused_while_busy i hs hi] at h
      exact .inr (.inr ⟨op, hi, rfl, (Host.Outcome.next.inj h).symm⟩)

/-! ## The port -/

theorem writeCmd_busy (w : Word) {op : LongOp} (h : s.regs.seq = .busy op) :
    writeCmd w s = .next (s.raiseCmdError .cmdWhileBusy) := by
  have : s.regs.busy = true := (Regs.busy_iff _).2 ⟨op, h⟩
  simp only [writeCmd, this, if_true]

theorem writeCmd_illegal {w : Word} {e : DecodeError} (h : s.regs.seq = .idle) (hd : decode w = .error e) :
    writeCmd w s = .next (s.raiseCmdError .illegalCmd) := by
  have : s.regs.busy = false := (Regs.not_busy_iff _).2 h
  simp only [writeCmd, this, hd]; rfl

theorem writeCmd_legal {w : Word} {i : Instr} (h : s.regs.seq = .idle) (hd : decode w = .ok i) :
    writeCmd w s = exec i s := by
  have : s.regs.busy = false := (Regs.not_busy_iff _).2 h
  simp only [writeCmd, this, hd]; rfl

/-- What a CMD write can do (R224). -/
theorem writeCmd_cases {w : Word} (h : writeCmd w s = .next t) :
    (∃ op, s.regs.seq = .busy op ∧ t = s.raiseCmdError .cmdWhileBusy) ∨
    (∃ e, s.regs.seq = .idle ∧ decode w = .error e ∧ t = s.raiseCmdError .illegalCmd) ∨
    (∃ i, s.regs.seq = .idle ∧ decode w = .ok i ∧ t = accepted i s) := by
  cases hs : s.regs.seq with
  | busy op => rw [writeCmd_busy w hs] at h; exact .inl ⟨op, rfl, (Host.Outcome.next.inj h).symm⟩
  | idle =>
    cases hd : decode w with
    | error e => rw [writeCmd_illegal hs hd] at h; exact .inr (.inl ⟨e, rfl, rfl, (Host.Outcome.next.inj h).symm⟩)
    | ok i =>
      rw [writeCmd_legal hs hd, exec_idle i hs] at h
      exact .inr (.inr ⟨i, rfl, rfl, (Host.Outcome.next.inj h).symm⟩)

theorem hostWrite_illegal {a : Offset} {size : Nat} (w : Word) (h : legalAccess a size = false) :
    hostWrite a size w s = .next s.busError := by
  simp only [hostWrite, h]; rfl

theorem hostWrite_cmd {a : Offset} {size : Nat} (w : Word) (h : legalAccess a size = true)
    (hc : target s.block a.toNat = .cmd) : hostWrite a size w s = writeCmd w s.acknowledge := by
  simp only [hostWrite, h, hc, if_true]

theorem hostWrite_store {a : Offset} {size : Nat} (w : Word) (h : legalAccess a size = true)
    (hc : target s.block a.toNat ≠ .cmd) :
    hostWrite a size w s = .next (s.acknowledge.hostStore w (target s.block a.toNat)) := by
  simp only [hostWrite, h, if_true]

/-- What a write transaction can do (R249): a bus error, a CMD write, or a store. -/
theorem hostWrite_cases {a : Offset} {size : Nat} {w : Word} (h : hostWrite a size w s = .next t) :
    (legalAccess a size = false ∧ t = s.busError) ∨
    (legalAccess a size = true ∧ target s.block a.toNat = .cmd ∧ writeCmd w s.acknowledge = .next t) ∨
    (legalAccess a size = true ∧ target s.block a.toNat ≠ .cmd ∧
      t = s.acknowledge.hostStore w (target s.block a.toNat)) := by
  cases hl : legalAccess a size with
  | false => rw [hostWrite_illegal w hl] at h; exact .inl ⟨rfl, (Host.Outcome.next.inj h).symm⟩
  | true =>
    by_cases hc : target s.block a.toNat = .cmd
    · rw [hostWrite_cmd w hl hc] at h; exact .inr (.inl ⟨rfl, hc, h⟩)
    · rw [hostWrite_store w hl hc] at h; exact .inr (.inr ⟨rfl, hc, (Host.Outcome.next.inj h).symm⟩)

/-! ## Reads and errors change no state of the block -/

@[simp] theorem busError_block (s : State) : s.busError.block = s.block := rfl
@[simp] theorem busError_regs (s : State) : s.busError.regs = s.regs := rfl
@[simp] theorem busError_mem (s : State) : s.busError.mem = s.mem := rfl
@[simp] theorem busError_resp (s : State) : s.busError.env.resp = some { rdata := 0, err := true } := rfl

theorem answerRead_sameArch (s : State) (r : Reading) : SameArch s (s.answerRead r) := by
  unfold State.answerRead
  dsimp only
  split <;> split <;> exact ⟨rfl, rfl, rfl⟩

theorem hostRead_sameArch (s : State) (a : Offset) (size : Nat) : SameArch s (s.hostRead a size) := by
  unfold State.hostRead
  split
  · exact answerRead_sameArch s _
  · exact ⟨rfl, rfl, rfl⟩

/-! ## One step -/

theorem coreStep_busy {op : LongOp} (h : s.regs.seq = .busy op) : coreStep s = .next (completion op s).finish := by
  simp only [coreStep, h]; exact exec_running op h

theorem step_core {op : LongOp} (hm : s.coreMoves = true) (h : s.regs.seq = .busy op) :
    step s = .next (completion op s).finish := by
  simp only [step, hm, if_true]; exact coreStep_busy h

theorem step_idle (hm : s.coreMoves = false) (hi : s.env.inputs = []) : step s = .next s := by
  simp only [step, hm, hi]; rfl

theorem step_host {input : Input} {rest : List Input} (hm : s.coreMoves = false) (hi : s.env.inputs = input :: rest) :
    step s = hostStep input rest s := by
  simp only [step, hm, hi]; rfl

/-- The sequencer's turn comes only while a command is pending (R221). -/
theorem busy_of_coreMoves (h : s.coreMoves = true) : ∃ op, s.regs.seq = .busy op := by
  simp only [State.coreMoves, Bool.and_eq_true] at h
  exact (Regs.busy_iff _).1 h.1

/-- What one step can do: the core step, nothing, a read, a write, or a reset. -/
theorem step_cases (h : step s = .next t) :
    (∃ op, s.coreMoves = true ∧ s.regs.seq = .busy op ∧ t = (completion op s).finish) ∨
    (s.coreMoves = false ∧ s.env.inputs = [] ∧ t = s) ∨
    (∃ a size rest, s.coreMoves = false ∧ s.env.inputs = .read a size :: rest ∧ t = (s.takeInput rest).hostRead a size) ∨
    (∃ a size w rest, s.coreMoves = false ∧ s.env.inputs = .write a size w :: rest ∧
      hostWrite a size w (s.takeInput rest) = .next t) ∨
    (∃ rest, s.coreMoves = false ∧ s.env.inputs = .reset :: rest ∧ t = s.platformReset rest) := by
  cases hm : s.coreMoves with
  | true =>
    obtain ⟨op, hop⟩ := busy_of_coreMoves hm
    rw [step_core hm hop] at h
    exact .inl ⟨op, rfl, hop, (Host.Outcome.next.inj h).symm⟩
  | false =>
    right
    cases hi : s.env.inputs with
    | nil => rw [step_idle hm hi] at h; exact .inl ⟨rfl, rfl, (Host.Outcome.next.inj h).symm⟩
    | cons input rest =>
      rw [step_host hm hi] at h
      right
      cases input with
      | read a size => exact .inl ⟨a, size, rest, rfl, rfl, (Host.Outcome.next.inj h).symm⟩
      | write a size w => exact .inr (.inl ⟨a, size, w, rest, rfl, rfl, h⟩)
      | reset => exact .inr (.inr ⟨rest, rfl, rfl, (Host.Outcome.next.inj h).symm⟩)

end

end Sys2Proof.Machine
end

