-- ==== Sys2Proof/Laws/PerInstr.lean ====
section
/-! SUPPORT. Per command: what its word is, as syntax (R100, R102). -/

namespace Sys2Proof.Laws.DecodeEncode

/-- The command's word lies below 16 (its reserved field is zero), and both decoders read the command back from it. -/
def Statement (i : Instr) : Prop :=
  (encode i).toNat < 16 ∧ decode (encode i) = .ok i ∧ decodeTableWord 32 (encode i).toNat = some i

theorem nop : Statement .nop := by unfold Statement; decide
theorem init : Statement .init := by unfold Statement; decide
theorem encode : Statement .encode := by unfold Statement; decide
theorem decode : Statement .decode := by unfold Statement; decide
theorem syndrome : Statement .syndrome := by unfold Statement; decide
theorem clrerr : Statement .clrerr := by unfold Statement; decide

end Sys2Proof.Laws.DecodeEncode
end

