-- ==== Sys2Proof/Laws/Roots.lean ====
section
/-! SUPPORT. A polynomial over the built tables with a nonzero coefficient has fewer roots than coefficients; hence a locator of
degree `L` has at most `L` roots (R190). -/

namespace Sys2Proof.Machine

/-- Every coefficient is a symbol of `w` bits. -/
def AllSymbols (w : Nat) (l : List Word) : Prop := ∀ x ∈ l, x.toNat < 2 ^ w

theorem AllSymbols.head {w : Nat} {c : Word} {l : List Word} (h : AllSymbols w (c :: l)) : c.toNat < 2 ^ w := h c (by simp)

theorem AllSymbols.tail {w : Nat} {c : Word} {l : List Word} (h : AllSymbols w (c :: l)) : AllSymbols w l :=
  fun x hx => h x (by simp [hx])

theorem coeff_lt {w : Nat} {l : List Word} (h : AllSymbols w l) (i : Nat) : (coeff l i).toNat < 2 ^ w := by
  unfold coeff
  rw [List.getD_eq_getElem?_getD]
  cases e : l[i]? with
  | none => exact Nat.two_pow_pos w
  | some x => exact h x (List.mem_of_getElem? e)

section
variable (b : Block)

/-! ## The laws of multiplication on symbols -/

theorem mul_xor {x y z : Word} (hx : x.toNat < b.q) (hy : y.toNat < b.q) (hz : z.toNat < b.q) :
    (buildField b.toParams).mul x (y ^^^ z) = (buildField b.toParams).mul x y ^^^ (buildField b.toParams).mul x z := by
  by_cases h0 : x = 0
  · subst h0; simp only [Field.zero_mul]; rfl
  · obtain ⟨i, -, rfl⟩ := exists_alphaPow b h0 hx
    rw [alphaPow_mul b i (xor_lt b.m hy hz), alphaPow_mul b i hy, alphaPow_mul b i hz, iterate_xor b i hy hz]

theorem xor_mul {x y z : Word} (hx : x.toNat < b.q) (hy : y.toNat < b.q) (hz : z.toNat < b.q) :
    (buildField b.toParams).mul (y ^^^ z) x = (buildField b.toParams).mul y x ^^^ (buildField b.toParams).mul z x := by
  simp only [Field.mul_comm _ _ x, mul_xor b hx hy hz]

theorem mul_mul {x y z : Word} (hx : x.toNat < b.q) (hy : y.toNat < b.q) (hz : z.toNat < b.q) :
    (buildField b.toParams).mul x ((buildField b.toParams).mul y z) =
      (buildField b.toParams).mul y ((buildField b.toParams).mul x z) := by
  by_cases hx0 : x = 0
  · subst hx0; simp only [Field.zero_mul, Field.mul_zero]
  by_cases hy0 : y = 0
  · subst hy0; simp only [Field.zero_mul, Field.mul_zero]
  by_cases hz0 : z = 0
  · subst hz0; simp only [Field.mul_zero]
  obtain ⟨i, -, rfl⟩ := exists_alphaPow b hx0 hx
  obtain ⟨j, -, rfl⟩ := exists_alphaPow b hy0 hy
  obtain ⟨k, -, rfl⟩ := exists_alphaPow b hz0 hz
  simp only [mul_alphaPow, Nat.add_left_comm]

theorem eq_zero_of_mul {x y : Word} (hx : x.toNat < b.q) (hy : y.toNat < b.q) (hx0 : x ≠ 0)
    (h : (buildField b.toParams).mul x y = 0) : y = 0 := by
  by_contra hy0
  obtain ⟨i, -, rfl⟩ := exists_alphaPow b hx0 hx
  obtain ⟨j, -, rfl⟩ := exists_alphaPow b hy0 hy
  rw [mul_alphaPow] at h
  exact alphaPow_ne_zero b _ h

/-! ## Evaluation, and division by a linear factor -/

theorem eval_lt {poly : List Word} (hp : AllSymbols b.m poly) (x : Word) :
    ((buildField b.toParams).eval poly x).toNat < b.q := by
  cases poly with
  | nil => have := b.four_le_q; simp only [Field.eval]; simp; omega
  | cons c rest => exact xor_lt b.m hp.head (Field.mul_lt (buildField_symbols b) _ _)

/-- The quotient of a polynomial by `x + r`, remainder dropped: its coefficients are the values at `r` of the polynomial's tails. -/
def Field.overLinear (f : Field) (r : Word) : List Word → List Word
  | [] => []
  | [_] => []
  | _ :: c :: rest => f.eval (c :: rest) r :: f.overLinear r (c :: rest)

theorem overLinear_length (f : Field) (r : Word) (poly : List Word) : (f.overLinear r poly).length = poly.length - 1 := by
  induction poly with
  | nil => rfl
  | cons c rest ih =>
    cases rest with
    | nil => rfl
    | cons d rest => simp only [Field.overLinear, List.length_cons, ih]; omega

theorem overLinear_symbols {r : Word} {poly : List Word} (hp : AllSymbols b.m poly) :
    AllSymbols b.m ((buildField b.toParams).overLinear r poly) := by
  induction poly with
  | nil => intro x hx; cases hx
  | cons c rest ih =>
    cases rest with
    | nil => intro x hx; cases hx
    | cons d rest =>
      intro x hx
      rcases List.mem_cons.1 hx with rfl | hx
      · exact eval_lt b hp.tail r
      · exact ih hp.tail x hx

/-- `P(x) + P(r) = (x + r) * Q(x)`, with `Q` the quotient by `x + r`. -/
theorem eval_xor_eval {poly : List Word} (hp : AllSymbols b.m poly) {x r : Word} (hx : x.toNat < b.q) (hr : r.toNat < b.q) :
    (buildField b.toParams).eval poly x ^^^ (buildField b.toParams).eval poly r =
      (buildField b.toParams).mul (x ^^^ r) ((buildField b.toParams).eval ((buildField b.toParams).overLinear r poly) x) := by
  induction poly with
  | nil => simp only [Field.eval, Field.overLinear, Field.mul_zero, BitVec.xor_self]; rfl
  | cons c rest ih =>
    cases rest with
    | nil => simp only [Field.eval, Field.overLinear, Field.mul_zero, BitVec.xor_self]; rfl
    | cons d rest =>
      have ih := ih hp.tail
      have ha := eval_lt b hp.tail x
      have hv := eval_lt b hp.tail r
      have hq := eval_lt b (overLinear_symbols b (r := r) hp.tail) x
      show (c ^^^ (buildField b.toParams).mul x ((buildField b.toParams).eval (d :: rest) x)) ^^^
          (c ^^^ (buildField b.toParams).mul r ((buildField b.toParams).eval (d :: rest) r)) =
        (buildField b.toParams).mul (x ^^^ r) ((buildField b.toParams).eval (d :: rest) r ^^^
          (buildField b.toParams).mul x ((buildField b.toParams).eval ((buildField b.toParams).overLinear r (d :: rest)) x))
      generalize (buildField b.toParams).eval (d :: rest) x = a at *
      generalize (buildField b.toParams).eval (d :: rest) r = v at *
      generalize (buildField b.toParams).eval ((buildField b.toParams).overLinear r (d :: rest)) x = u at *
      have hxr : (x ^^^ r).toNat < b.q := xor_lt b.m hx hr
      rw [mul_xor b hxr hv (Field.mul_lt (buildField_symbols b) _ _), mul_mul b hxr hx hq, ← ih, mul_xor b hx ha hv,
        xor_mul b hv hx hr]
      generalize (buildField b.toParams).mul x a = xa
      generalize (buildField b.toParams).mul x v = xv
      generalize (buildField b.toParams).mul r v = rv
      calc (c ^^^ xa) ^^^ (c ^^^ rv) = (c ^^^ c) ^^^ (xa ^^^ rv) := by ac_rfl
        _ = (xv ^^^ xv) ^^^ (xa ^^^ rv) := by rw [BitVec.xor_self, BitVec.xor_self]
        _ = xv ^^^ rv ^^^ (xa ^^^ xv) := by ac_rfl

/-- A polynomial that is zero at `r` and whose quotient by `x + r` is zero is zero. -/
theorem all_zero_of_overLinear {poly : List Word} {r : Word} (h0 : (buildField b.toParams).eval poly r = 0)
    (hq : ∀ x ∈ (buildField b.toParams).overLinear r poly, x = 0) : ∀ x ∈ poly, x = 0 := by
  induction poly with
  | nil => intro x hx; cases hx
  | cons c rest ih =>
    have htail : (buildField b.toParams).eval rest r = 0 ∧ ∀ x ∈ (buildField b.toParams).overLinear r rest, x = 0 := by
      cases rest with
      | nil => exact ⟨rfl, fun x hx => by cases hx⟩
      | cons d rest => exact ⟨hq _ (by simp [Field.overLinear]), fun x hx => hq x (by simp [Field.overLinear, hx])⟩
    have hc : c = 0 := by
      rw [Field.eval, htail.1, Field.mul_zero] at h0
      exact BitVec.xor_zero.symm.trans h0
    intro x hx
    rcases List.mem_cons.1 hx with rfl | hx
    · exact hc
    · exact ih htail.1 htail.2 x hx

/-- A polynomial with a nonzero coefficient has fewer roots than coefficients. -/
theorem roots_lt_length {rs : List Word} (hnd : rs.Nodup) (hrs : AllSymbols b.m rs) {poly : List Word}
    (hp : AllSymbols b.m poly) (hne : ∃ c ∈ poly, c ≠ 0) (h : ∀ r ∈ rs, (buildField b.toParams).eval poly r = 0) :
    rs.length < poly.length := by
  induction rs generalizing poly with
  | nil => obtain ⟨c, hc, -⟩ := hne; exact List.length_pos_of_mem hc
  | cons r rs ih =>
    have hr := h r (by simp)
    have hlt := ih (List.nodup_cons.1 hnd).2 hrs.tail (overLinear_symbols b (r := r) hp)
      (by by_contra hz; push Not at hz; obtain ⟨c, hc, hc0⟩ := hne; exact hc0 (all_zero_of_overLinear b hr hz c hc))
      (by
        intro x hx
        have hx0 : x ^^^ r ≠ 0 := fun e => (List.nodup_cons.1 hnd).1 (BitVec.xor_eq_zero_iff.1 e ▸ hx)
        have hxs : x.toNat < b.q := hrs x (by simp [hx])
        have hrs' : r.toNat < b.q := hrs.head
        refine eq_zero_of_mul b (xor_lt b.m hxs hrs') (eval_lt b (overLinear_symbols b hp) x) hx0 ?_
        rw [← eval_xor_eval b hp hxs hrs', h x (by simp [hx]), hr]; rfl)
    rw [overLinear_length] at hlt
    simp only [List.length_cons]
    omega

/-! ## The roots of a locator -/

/-- A product distributes over a sum of symbols. -/
theorem mul_xorSum {x : Word} (hx : x.toNat < b.q) (len : Nat) (g : Nat → Word) (hg : ∀ i < len, (g i).toNat < b.q) :
    (buildField b.toParams).mul x (xorSum len g) = xorSum len fun i => (buildField b.toParams).mul x (g i) := by
  induction len with
  | zero => exact Field.mul_zero _ _
  | succ len ih =>
    simp only [xorSum]
    rw [mul_xor b hx (xorSum_lt b.m len g fun i hi => hg i (by omega)) (hg len (by omega)), ih fun i hi => hg i (by omega)]

/-- A sum with its first term split off. -/
theorem xorSum_succ_left (len : Nat) (g : Nat → Word) : xorSum (len + 1) g = g 0 ^^^ xorSum len fun i => g (i + 1) := by
  induction len with
  | zero => simp only [xorSum]; exact BitVec.xor_comm _ _
  | succ len ih => rw [xorSum, ih, xorSum, BitVec.xor_assoc]

/-- Evaluation at a power of alpha as the sum of the terms (R24). -/
theorem eval_alphaPow {poly : List Word} (hp : AllSymbols b.m poly) (i : Nat) :
    (buildField b.toParams).eval poly (alphaPow b.toParams i) =
      xorSum poly.length fun j => (buildField b.toParams).mul (coeff poly j) (alphaPow b.toParams (i * j)) := by
  induction poly with
  | nil => rfl
  | cons c rest ih =>
    have h1 : (buildField b.toParams).mul c (alphaPow b.toParams (i * 0)) = c := by
      rw [Field.mul_comm, alphaPow_mul b (i * 0) hp.head]; rfl
    rw [Field.eval, ih hp.tail, mul_xorSum b (alphaPow_lt b i) _ _ fun j _ => Field.mul_lt (buildField_symbols b) _ _,
      List.length_cons, xorSum_succ_left]
    show c ^^^ _ = (buildField b.toParams).mul c _ ^^^ _
    rw [h1]
    congr 1
    refine xorSum_congr _ _ _ fun j _ => ?_
    show _ = (buildField b.toParams).mul (coeff rest j) _
    rw [mul_mul b (alphaPow_lt b i) (coeff_lt hp.tail j) (alphaPow_lt b (i * j)), mul_alphaPow, Nat.mul_succ, Nat.add_comm]

/-- A locator of degree `L` has at most `L` roots (R190). -/
theorem roots_length_le (loc : Locator) (hs : AllSymbols b.m loc.sigma) :
    ((buildField b.toParams).roots loc).length ≤ loc.l := by
  have hone : (1 : Word).toNat < 2 ^ b.m := by have : 4 ≤ 2 ^ b.m := b.four_le_q; show 1 < 2 ^ b.m; omega
  let poly : List Word := 1 :: (List.range loc.l).map fun j => coeff loc.sigma (j + 1)
  have hp : AllSymbols b.m poly := by
    intro x hx
    rcases List.mem_cons.1 hx with rfl | hx
    · exact hone
    · obtain ⟨j, -, rfl⟩ := List.mem_map.1 hx; exact coeff_lt hs _
  have hval : ∀ i, (buildField b.toParams).eval poly (alphaPow b.toParams i) = (buildField b.toParams).locatorValue loc i := by
    intro i
    have h1 : (buildField b.toParams).mul 1 (alphaPow b.toParams (i * 0)) = 1 := by
      rw [Field.mul_comm, alphaPow_mul b (i * 0) hone]; rfl
    rw [eval_alphaPow b hp, show poly.length = loc.l + 1 by simp [poly], xorSum_succ_left]
    show (buildField b.toParams).mul 1 _ ^^^ _ = _
    rw [h1, Field.locatorValue]
    congr 1
    refine xorSum_congr _ _ _ fun j hj => ?_
    rw [pow_natCast]
    congr 1
    simp [poly, coeff, List.getD_eq_getElem?_getD, hj]
  have hmem : ∀ i ∈ (buildField b.toParams).roots loc, 1 ≤ i ∧ i < 1 + b.n ∧ (buildField b.toParams).locatorValue loc i = 0 := by
    intro i hi
    obtain ⟨h1, h2⟩ := List.mem_filter.1 hi
    obtain ⟨h3, h4⟩ := List.mem_range'_1.1 h1
    exact ⟨h3, h4, by simpa only [beq_iff_eq] using h2⟩
  have hlt := roots_lt_length b (rs := ((buildField b.toParams).roots loc).map (alphaPow b.toParams)) (poly := poly)
    (List.Nodup.map_on (fun i hi j hj e => by
        obtain ⟨h1, h2, -⟩ := hmem i hi
        obtain ⟨h3, h4, -⟩ := hmem j hj
        by_cases hi' : i = b.n <;> by_cases hj' : j = b.n
        · omega
        · have := alphaPow_injOn b (i := 0) (j := j) b.n_pos (by omega) (by rw [← e, hi', alphaPow_n]; rfl)
          omega
        · have := alphaPow_injOn b (i := i) (j := 0) (by omega) b.n_pos (by rw [e, hj', alphaPow_n]; rfl)
          omega
        · exact alphaPow_injOn b (by omega) (by omega) e)
      (List.Nodup.filter _ List.nodup_range'))
    (fun x hx => by obtain ⟨i, -, rfl⟩ := List.mem_map.1 hx; exact alphaPow_lt b i)
    hp ⟨1, by simp [poly], by decide⟩
    (fun r hr => by obtain ⟨i, hi, rfl⟩ := List.mem_map.1 hr; rw [hval, (hmem i hi).2.2])
  simp only [List.length_map] at hlt
  have : poly.length = loc.l + 1 := by simp [poly]
  omega

/-! ## The coefficients of the iteration -/

/-- Every row's locator consists of symbols (R170). -/
def RowsSymbols (w : Nat) (rows : List BmRow) : Prop := ∀ r ∈ rows, AllSymbols w r.sigma

theorem rowAt_symbols {w : Nat} {rows : List BmRow} (h : RowsSymbols w rows) (r : Nat) : AllSymbols w (rowAt rows r).sigma := by
  unfold rowAt
  rw [List.getD_eq_getElem?_getD]
  cases e : rows[r]? with
  | none => intro x hx; cases hx
  | some row => exact h row (List.mem_of_getElem? e)

theorem bmStep_symbols {f : Field} {w : Nat} (hf : f.Symbols w) (nk : Nat) (synd : List Word) {rows : List BmRow}
    (h : RowsSymbols w rows) (u : Nat) : AllSymbols w (f.bmStep nk synd rows u).sigma := by
  simp only [Field.bmStep]
  split
  · exact rowAt_symbols h u
  · intro x hx
    obtain ⟨i, -, rfl⟩ := List.mem_map.1 hx
    refine xor_lt w ?_ ?_
    · split
      · exact Field.mul_lt hf _ _
      · exact Nat.two_pow_pos w
    · split
      · exact coeff_lt (rowAt_symbols h u) i
      · exact Nat.two_pow_pos w

theorem bmLoop_symbols {f : Field} {w : Nat} (hf : f.Symbols w) (nk t : Nat) (synd : List Word) (fuel : Nat) {rows : List BmRow}
    (h : RowsSymbols w rows) (u : Nat) : RowsSymbols w (f.bmLoop nk t synd fuel rows u) := by
  induction fuel generalizing rows u with
  | zero => exact h
  | succ fuel ih =>
    have hnext : RowsSymbols w (rows ++ [f.bmStep nk synd rows u]) := by
      intro r hr
      rcases List.mem_append.1 hr with hr | hr
      · exact h r hr
      · rw [List.mem_singleton.1 hr]; exact bmStep_symbols hf nk synd h u
    simp only [Field.bmLoop]
    split
    · exact ih hnext (u + 1)
    · exact hnext

/-- The final locator consists of symbols. -/
theorem berlekampMassey_symbols {f : Field} {w : Nat} (hf : f.Symbols w) (hw : 0 < w) (nk t : Nat) (synd : List Word) :
    AllSymbols w (f.berlekampMassey nk t synd).sigma := by
  refine rowAt_symbols (bmLoop_symbols hf nk t synd nk ?_ 1) _
  have hone : AllSymbols w ((1 : Word) :: List.replicate nk 0) := by
    intro x hx
    rcases List.mem_cons.1 hx with rfl | hx
    · exact Nat.one_lt_two_pow (by omega)
    · rw [(List.mem_replicate.1 hx).2]; exact Nat.two_pow_pos w
  intro r hr
  simp only [startRows, List.mem_cons, List.not_mem_nil, or_false] at hr
  rcases hr with rfl | rfl <;> exact hone

end

end Sys2Proof.Machine
end

