-- ==== Sys2Proof/Tests/Slice0.lean ====
section
/-! SUPPORT. Tests: ill-formed parameters refused, words decoded, one step per command against the spec's own vectors
(95_test_vectors.md and the worked examples), and for each obligation with hypotheses a state that meets them. -/

namespace Sys2Proof.Tests
open Sys2Proof Sys2Proof.Machine

-- One theorem at a time: each waits for the kernel, and the waiting threads would fill the checker's memory limit.
set_option Elab.async false

/-! ## Small states -/

/-- The model's own fields with these inputs and latency. -/
def testEnv (inputs : List Input) (wait : Nat) : Env :=
  { inputs := inputs, resp := none, wait := wait, free := 0, hostFault := none }

/-- A block after its reset-time INIT. -/
def idle (b : Block) (inputs : List Input) : State :=
  { (completion .init (State.afterReset b [] 0 none)).finish with env := testEnv inputs 0 }

/-- A block that runs a command, with inputs before its core step. -/
def running (b : Block) (op : LongOp) (inputs : List Input) (wait : Nat) : State :=
  let s := idle b inputs
  { s with
    regs := { s.regs with seq := .busy op, lastCmd := op.instr, ready := op != .init }
    env := testEnv inputs wait }

theorem idle_tablesBuilt (b : Block) (inputs : List Input) : (idle b inputs).TablesBuilt := ⟨rfl, rfl, rfl⟩

/-- The same with a received word in RX. -/
def withRx (s : State) (rx : List Word) : State := { s with mem := { s.mem with rx := rx.map some } }

theorem withRx_tablesBuilt (b : Block) (op : LongOp) (inputs : List Input) (wait : Nat) (rx : List Word) :
    (withRx (running b op inputs wait) rx).TablesBuilt := ⟨rfl, rfl, rfl⟩

/-- The same with a message in DATA. -/
def withData (s : State) (data : List Word) : State := { s with mem := { s.mem with data := data.map some } }

/-- The same with a command error recorded. -/
def withError (s : State) (cause : ErrCause) : State := { s with regs := { s.regs with cmdErr := true, errCause := cause } }

/-- What a predicate says of the next state; false if there is none. -/
def after (o : Host.Outcome State Fault Refusal) (p : State → Bool) : Bool :=
  match o with
  | .next t => p t
  | .fault _ => false
  | .refused _ => false

/-- The smallest block: `M = 2`, `T = 1`, `PP = x^2+x+1`; N is 3 and K is 1. -/
def smallest : Block := { m := 2, t := 1, pp := 7, wf := by decide +kernel }

/-- The message of vector E7. -/
def message : List Word := [1, 2, 3, 4, 5, 6, 7, 8, 9, 10, 11]

/-- The codeword of vector E7. -/
def codeword : List Word := message ++ [11, 10, 14, 6]

/-- Vector E7 in the model's terms. -/
theorem toy_parity :
    (buildField Block.toy.toParams).parity (buildGen Block.toy.toParams) Block.toy.nk message = [11, 10, 14, 6] :=
  eq_of_beq (by decide +kernel)

/-- The codeword of a message, as DECODE and SYNDROME find it in RX. -/
theorem withRx_encoded (b : Block) (op : LongOp) (inputs : List Input) (wait : Nat) (data parity : List Word)
    (h : (buildField b.toParams).parity (buildGen b.toParams) b.nk data = parity) :
    let s := withRx (running b op inputs wait) (data ++ parity)
    s.mem.rx = (data ++ s.field.parity s.mem.gen s.block.nk data).map some := by
  subst h; rfl

theorem exists_nonzero {l : List Word} (h : l.any (· != 0) = true) : ∃ x ∈ l, x ≠ 0 := by simpa using h

theorem all_zero {l : List Word} (h : l.all (· == 0) = true) : ∀ x ∈ l, x = 0 := by simpa using h

theorem message_below : ∀ x ∈ message, x.toNat < Block.toy.q := by
  have h : (message.all fun x => x.toNat < Block.toy.q) = true := by decide +kernel
  simpa using h

/-! ## Ill-formed parameters (R13) -/

theorem test_width_below_two : Params.widthOk { m := 1, t := 1, pp := 3 } = false := by decide
theorem test_width_above_eight : Params.widthOk { m := 9, t := 1, pp := 0x211 } = false := by decide
theorem test_no_correction : Params.capabilityOk { m := 4, t := 0, pp := 0x13 } = false := by decide
theorem test_no_message : Params.capabilityOk { m := 4, t := 8, pp := 0x13 } = false := by decide
theorem test_degree_too_low : Params.degreeOk { m := 4, t := 2, pp := 0x03 } = false := by decide
theorem test_degree_too_high : Params.degreeOk { m := 4, t := 2, pp := 0x33 } = false := by decide
theorem test_reducible_polynomial : Params.primitiveOk { m := 4, t := 2, pp := 0x15 } = false := by decide +kernel
theorem test_irreducible_not_primitive : Params.primitiveOk { m := 4, t := 2, pp := 0x1F } = false := by decide +kernel
theorem test_zero_power : Params.primitiveOk { m := 2, t := 1, pp := 4 } = false := by decide +kernel
theorem test_ill_formed_refused : Params.wf { m := 4, t := 2, pp := 0x1F } = false := by decide +kernel
theorem test_largest_capability : Params.wf { m := 4, t := 7, pp := 0x13 } = true := by decide +kernel

/-! ## Decoding (R100 to R103), the words written out bit by bit -/

theorem test_decode_nop : decode 0b00000000000000000000000000000000 = .ok .nop := by decide
theorem test_decode_init : decode 0b00000000000000000000000000000001 = .ok .init := by decide
theorem test_decode_encode : decode 0b00000000000000000000000000000010 = .ok .encode := by decide
theorem test_decode_decode : decode 0b00000000000000000000000000000011 = .ok .decode := by decide
theorem test_decode_syndrome : decode 0b00000000000000000000000000000100 = .ok .syndrome := by decide
theorem test_decode_clrerr : decode 0b00000000000000000000000000000101 = .ok .clrerr := by decide
theorem test_decode_first_reserved : decode 0b00000000000000000000000000000110 = .error .reservedOpcode := by decide
theorem test_decode_last_reserved : decode 0b00000000000000000000000000001111 = .error .reservedOpcode := by decide
theorem test_decode_reserved_bit : decode 0b00000000000000000000000000010000 = .error .reservedBits := by decide
theorem test_table_word : decodeTableWord 32 4 = some .syndrome ∧ decodeTableWord 32 0x10 = none := by decide

/-! ## One step of each command -/

/-- R225, the worked example: LASTCMD 2 becomes 0, nothing else changes. -/
theorem test_nop : after (exec .nop ((idle Block.toy []).setLastCmd .encode)) (·.regs.statusWord == 0x00000002) = true := by
  decide +kernel

/-- R226, the worked example: STATUS 0x216 becomes 0x502. -/
theorem test_clrerr :
    let s := withError ((idle Block.toy []).setLastCmd .encode) .illegalCmd
    s.regs.statusWord = 0x00000216 ∧ after (exec .clrerr s) (·.regs.statusWord == 0x00000502) = true := by
  decide +kernel

/-- Section 2.4: the toy tables and generator. -/
theorem test_init_toy : after (exec .init (State.afterReset Block.toy [] 0 none)) (fun t =>
    t.mem.exp == [1, 2, 4, 8, 3, 6, 12, 11, 5, 10, 7, 14, 15, 13, 9, 1] &&
    t.mem.log == [0xFFFFFFFF, 0, 1, 4, 2, 8, 5, 10, 3, 14, 9, 7, 6, 13, 11, 12] &&
    t.mem.gen == [10, 3, 6, 13, 0] && t.regs.statusWord == 0x00000102) = true := by decide +kernel

/-- R59, R270: a first transaction after reset that reads STATUS is answered 0x101; the reset-time INIT completes after it. -/
theorem test_first_transaction_after_reset :
    after (step (State.afterReset Block.toy [.read 0x0010 4] 0 none)) (fun t =>
      t.env.resp == some { rdata := 0x00000101, err := false } &&
      after (step t) (·.regs.statusWord == 0x00000102)) = true := by decide +kernel

/-- R140, the worked example on the reference block: EXP[8] = 29, LOG[29] = 8, GEN[0] = 18, GEN[32] = 0. -/
theorem test_init_reference : after (exec .init State.reset) (fun t =>
    t.mem.exp.getD 8 0 == 29 && t.mem.exp.getD 255 0 == 1 && t.mem.log.getD 29 0 == 8 && t.mem.log.getD 0 0 == 0xFFFFFFFF &&
    t.mem.gen.getD 0 0 == 18 && t.mem.gen.getD 32 1 == 0) = true := by decide +kernel

/-- Vector E7. -/
theorem test_encode_scenario : after (exec .encode (withData (running Block.toy .encode [] 0) message))
    (fun t => t.mem.parity == [some 11, some 10, some 14, some 6] && t.regs.statusWord == 0x00000202) = true := by
  decide +kernel

/-- Vector E9. -/
theorem test_encode_first_symbol : after (exec .encode (withData (running Block.toy .encode [] 0) [1, 0, 0, 0, 0, 0, 0, 0, 0, 0, 0]))
    (·.mem.parity == [some 6, some 8, some 14, some 5]) = true := by decide +kernel

/-- Vector D2: two errors, in the first and the last entry. -/
theorem test_decode_two_errors : after (exec .decode (withRx (running Block.toy .decode [] 0)
      [4, 2, 3, 4, 5, 6, 7, 8, 9, 10, 11, 11, 10, 14, 15])) (fun t =>
    t.mem.out == codeword.map some && t.regs.result.word == 0x04020202 &&
    t.mem.synd == [some 2, some 5, some 15, some 10] && t.mem.errpos == [some 0, some 14] &&
    t.mem.errval == [some 5, some 9]) = true := by decide +kernel

/-- Vector D15: a double root, so the root count does not match. -/
theorem test_decode_root_mismatch : after (exec .decode (withRx (running Block.toy .decode [] 0)
      [4, 11, 3, 4, 5, 1, 7, 8, 9, 10, 11, 11, 10, 14, 6])) (fun t =>
    t.mem.out == t.mem.rx && t.regs.result.word == 0x04010204 && t.mem.errpos == [some 10, some 0] &&
    t.mem.errval == [some 0, some 0]) = true := by decide +kernel

/-- Vector Y4: the first entry stands at position 14. -/
theorem test_syndrome_first_entry : after (exec .syndrome (withRx (running Block.toy .syndrome [] 0)
      [0, 2, 3, 4, 5, 6, 7, 8, 9, 10, 11, 11, 10, 14, 6])) (fun t =>
    t.mem.synd == [some 9, some 13, some 15, some 14] && t.regs.result.word == 0) = true := by decide +kernel

/-- Vector Y1. -/
theorem test_syndrome_codeword : after (exec .syndrome (withRx (running Block.toy .syndrome [] 0) codeword)) (fun t =>
    t.mem.synd == [some 0, some 0, some 0, some 0] && t.regs.result.word == 0x00000008) = true := by decide +kernel

/-- Vectors F5, F6, F9 and F14, on the reference tables. -/
theorem test_reference_arithmetic :
    let f := buildField Params.reference
    f.mul 2 128 = 29 ∧ f.mul 0x53 0xCA = 143 ∧ f.div 1 2 = 142 ∧ f.pow (-1) = 142 := by decide +kernel

/-- R42: a write of 0x1F to DATA[10] of the toy block stores 15. -/
theorem test_write_masks : after (step (idle Block.toy [.write 0x0428 4 0x1F])) (·.mem.data.getD 10 none == some 15) = true := by
  decide +kernel

/-- R77: DATA[11] of the toy block is reserved, also while it is busy. -/
theorem test_write_beyond_ignored :
    after (step (running Block.toy .encode [.write 0x042C 4 1] 1)) (fun t => !t.regs.cmdErr) = true := by decide +kernel

/-- R249: a misaligned CMD write while busy is a bus error and nothing else. -/
theorem test_bus_error_first : after (step (running Block.toy .encode [.write 0x000D 4 0] 1))
    (fun t => t.env.resp == some { rdata := 0, err := true } && !t.regs.cmdErr) = true := by decide +kernel

/-! ## States that meet the obligations' hypotheses -/

theorem meets_EachCommandHasExactlyOneWord : Instr.wf .clrerr = true ∧ decode 5 = .ok .clrerr := by decide

theorem meets_StepRunsTheDecodedCommand :
    (let s := idle Block.toy [.write 0x000C 4 5, .reset]
     s.regs.seq = .idle ∧ s.env.inputs = .write 0x000C 4 5 :: [.reset] ∧ decode 5 = .ok .clrerr) ∧
    (let s := running Block.toy .decode [.reset] 0
     s.coreMoves = true ∧ s.regs.seq = .busy .decode) ∧
    (let s := running Block.toy .init [] 7
     s.coreMoves = true ∧ s.regs.seq = .busy .init) := by decide +kernel

theorem meets_EveryCommandAnswersANextState :
    (idle Block.toy []).regs.seq = .idle ∧
    (running Block.toy .encode [] 0).regs.seq = .busy .encode ∧ LongOp.encode.instr = .encode ∧
    (running Block.toy .syndrome [] 0).regs.seq = .busy .syndrome ∧ LongOp.syndrome.instr ≠ .clrerr := by decide +kernel

theorem meets_NopOnlyRecordsItself :
    (let w : Word := 0x80000000
     w.extractLsb' 0 4 = 0 ∧ w.extractLsb' 4 28 ≠ 0) ∧
    (let w : Word := 0x00000010
     w.extractLsb' 0 4 = 0 ∧ w.extractLsb' 4 28 ≠ 0) ∧
    (idle Block.toy []).regs.seq = .idle ∧ (running Block.toy .init [] 0).regs.seq = .busy .init := by decide +kernel

theorem meets_ClrerrClearsTheCommandError :
    (let s := withError (idle Block.toy []) .writeWhileBusy
     Instr.nop ≠ .clrerr ∧ exec .nop s = .next (s.setLastCmd .nop) ∧ s.regs.cmdErr = true) ∧
    (let s := withError ((idle Block.toy []).setLastCmd .encode) .illegalCmd
     s.regs.seq = .idle ∧ s.regs.statusWord = 0x00000216) ∧
    (running Block.toy .decode [] 0).regs.seq = .busy .decode :=
  ⟨⟨by decide, exec_idle .nop rfl, rfl⟩, by decide +kernel, rfl⟩

theorem meets_LongCommandAcceptance : (idle smallest []).regs.seq = .idle := by decide +kernel

theorem meets_InitCompletionBuildsTheTables : (State.afterReset smallest [] 0 none).regs.seq = .busy .init := rfl

theorem meets_InitLeavesTheExponentTable :
    (let s := running Block.toy .init [] 0
     s.regs.seq = .busy .init ∧ exec .init s = .next s.buildTables.finish) ∧
    0 < Block.toy.m ∧ 3 < Block.toy.m ∧ Block.toy.m < 5 ∧ 5 < Block.toy.n ∧ Block.toy.m < 14 ∧ 14 < Block.toy.n :=
  ⟨⟨rfl, exec_running .init rfl⟩, by decide⟩

theorem meets_InitLeavesInverseTables :
    (let s := running smallest .init [] 0
     s.regs.seq = .busy .init ∧ exec .init s = .next s.buildTables.finish) ∧
    0 < smallest.n ∧ 2 < smallest.n ∧ 0 < 1 ∧ 1 < smallest.q ∧ 3 < smallest.q :=
  ⟨⟨rfl, exec_running .init rfl⟩, by decide⟩

theorem meets_FieldMultiplicationLaws :
    (0 : Word).toNat < Block.toy.q ∧ (1 : Word).toNat < Block.toy.q ∧ (15 : Word).toNat < Block.toy.q ∧
    (1 : Word) ≠ 0 ∧ (15 : Word) ≠ 0 := by decide

theorem meets_FieldPowerAndQuotientLaws :
    (0 : Word).toNat < smallest.q ∧ (3 : Word).toNat < smallest.q ∧ (3 : Word) ≠ 0 := by decide

theorem meets_InitLeavesTheGeneratorInExponentForm :
    (let s := running smallest .init [] 0
     s.regs.seq = .busy .init ∧ exec .init s = .next s.buildTables.finish) ∧ 0 ≤ smallest.nk ∧ 2 ≤ smallest.nk :=
  ⟨⟨rfl, exec_running .init rfl⟩, by decide⟩

theorem reference_generator_nonempty : ∃ c, c ∈ (buildField Params.reference).generator 32 := by
  have hnk : 32 = Block.reference.nk := by decide
  apply List.exists_mem_of_length_pos
  rw [hnk]
  have h := generator_length Block.reference
  change 0 < ((buildField Block.reference.toParams).generator Block.reference.nk).length
  rw [h]
  exact Nat.succ_pos _

theorem meets_GeneratorHasItsRoots :
    1 ≤ smallest.nk ∧ 2 ≤ smallest.nk ∧
    (∃ c, c ∈ (buildField Params.reference).generator 32) ∧ (7 : Word) ∈ (buildField Params.toy).generator 4 :=
  ⟨by decide, by decide, reference_generator_nonempty, List.contains_iff_mem.1 (by decide +kernel)⟩

theorem meets_InitAgainLeavesTheTables :
    let s := idle Block.toy []
    s.TablesBuilt ∧ s.regs.seq = .idle ∧ exec .init s = .next (s.acceptLong .init) ∧
    exec .init (s.acceptLong .init) = .next (s.acceptLong .init).buildTables.finish :=
  ⟨idle_tablesBuilt _ _, rfl, exec_idle .init rfl, exec_running .init rfl⟩

theorem meets_EncodeCompletionWritesParity :
    let s := withData (running Block.toy .encode [] 0) message
    s.regs.seq = .busy .encode ∧ s.mem.data = message.map some := ⟨rfl, rfl⟩

theorem meets_ShiftRegisterPositions :
    let f := buildField Params.toy
    let reg : List Word := [7, 8, 12, 13]
    let gen : List Word := [10, 3, 6, 13]
    reg ≠ [] ∧ gen.length = reg.length ∧
    (13 ^^^ reg.getD 3 0 = 0) ∧ (2 ^^^ reg.getD 3 0 ≠ 0) ∧ 1 ≤ 1 ∧ 3 < reg.length ∧
    f.shiftRegister gen reg 2 = [11, 6, 0, 11] := by decide +kernel

theorem meets_ZeroDataGivesZeroParity : 1 ≤ smallest.nk := by decide

theorem meets_EncodedWordHasZeroSyndromes :
    message.length = Block.toy.k ∧ ∀ x ∈ message, x.toNat < Block.toy.q := ⟨by decide, message_below⟩

theorem meets_EncodedWordDecodesToItself :
    message.length = Block.toy.k ∧ (∀ x ∈ message, x.toNat < Block.toy.q) ∧
    (let s := withRx (running Block.toy .syndrome [] 0) codeword
     s.TablesBuilt ∧ s.mem.rx = (message ++ s.field.parity s.mem.gen s.block.nk message).map some ∧
     s.regs.seq = .busy .syndrome) ∧
    (let s := withRx (running Block.toy .decode [] 0) codeword
     s.TablesBuilt ∧ s.mem.rx = (message ++ s.field.parity s.mem.gen s.block.nk message).map some ∧
     s.regs.seq = .busy .decode) := by
  exact ⟨by decide, message_below,
    ⟨withRx_tablesBuilt _ _ _ _ _, withRx_encoded _ _ _ _ _ _ toy_parity, rfl⟩,
    withRx_tablesBuilt _ _ _ _ _, withRx_encoded _ _ _ _ _ _ toy_parity, rfl⟩

theorem meets_EncodeOfMissingDataIsUnspecified :
    let s := running Block.toy .encode [] 0
    s.regs.seq = .busy .encode ∧ none ∈ s.mem.data := by decide +kernel

theorem meets_SyndromeCompletionWritesSyndromes :
    let s := withRx (running Block.toy .syndrome [] 0) codeword
    s.regs.seq = .busy .syndrome ∧ s.mem.rx = codeword.map some := ⟨rfl, rfl⟩

theorem meets_SyndromeOfMissingRxIsUnspecified :
    let s := running smallest .syndrome [] 0
    s.regs.seq = .busy .syndrome ∧ none ∈ s.mem.rx := by decide +kernel

theorem meets_DecodeCompletionWritesTheResult :
    let s := withRx (running Block.toy .decode [] 0) codeword
    s.regs.seq = .busy .decode ∧ s.mem.rx = codeword.map some := ⟨rfl, rfl⟩

theorem meets_DecodeOfMissingRxIsUnspecified :
    let s := running smallest .decode [] 0
    s.regs.seq = .busy .decode ∧ none ∈ s.mem.rx := by decide +kernel

theorem meets_ZeroSyndromesGiveNoError : ∀ x ∈ (buildField Params.toy).syndromes 4 codeword, x = 0 :=
  all_zero (by decide +kernel)

/-- Vectors D2, D8 and D15: each of the three outcomes with a nonzero syndrome is met. -/
theorem meets_NonzeroSyndromeOutcomes :
    let f := buildField Params.toy
    let two : List Word := [4, 2, 3, 4, 5, 6, 7, 8, 9, 10, 11, 11, 10, 14, 15]
    let many : List Word := [15, 7, 13, 8, 7, 13, 1, 5, 11, 7, 9, 13, 12, 13, 6]
    let double : List Word := [4, 11, 3, 4, 5, 1, 7, 8, 9, 10, 11, 11, 10, 14, 6]
    ((∃ x ∈ f.syndromes 4 two, x ≠ 0) ∧ (f.decodeWord 4 2 two).outcome = .corrected) ∧
    ((∃ x ∈ f.syndromes 4 many, x ≠ 0) ∧ (f.decodeWord 4 2 many).outcome = .uncorrHighDegree) ∧
    ((∃ x ∈ f.syndromes 4 double, x ≠ 0) ∧ (f.decodeWord 4 2 double).outcome = .uncorrRootMismatch) :=
  ⟨⟨exists_nonzero (by decide +kernel), by decide +kernel⟩, ⟨exists_nonzero (by decide +kernel), by decide +kernel⟩,
    exists_nonzero (by decide +kernel), by decide +kernel⟩

/-- Two roots for a locator of degree 3 in a block with T = 3: the last conjunct's clauses are met at two entries, and one entry
of ERRPOS is beyond ROOTCNT. -/
theorem meets_NonzeroSyndromeOutcomes_mismatch :
    let b : Block := { m := 3, t := 3, pp := 0xB, wf := by decide +kernel }
    let rx : List Word := [0, 4, 2, 3, 2, 1, 6]
    let r := (buildField b.toParams).decodeWord b.nk b.t rx
    rx.all (·.toNat < b.q) = true ∧ r.outcome = .uncorrRootMismatch ∧ r.l = 3 ∧ r.count = 2 ∧ r.errpos = [0, 2, 0] := by
  decide +kernel

/-- Vector D2 runs all four steps: six rows, so the clauses on rows 0 to 5 and on steps 1 to 4 are met. -/
theorem meets_BerlekampMasseyRowInvariants :
    let f := buildField Params.toy
    let rows := f.bmLoop 4 2 [2, 5, 15, 10] 4 (startRows [2, 5, 15, 10] 4) 1
    rows.length = 6 ∧ (rowAt rows 5).l = 2 ∧ 4 + 1 < rows.length ∧ 1 < (rowAt rows (4 + 1)).l := by decide +kernel

/-- The rows of vector D2 at step 3 select row 2; row 1 is an earlier one with a nonzero discrepancy. -/
theorem meets_SelectedRowIsTheLatestMaximum :
    let f := buildField Params.toy
    let rows := f.bmLoop 4 2 [2, 5, 15, 10] 4 (startRows [2, 5, 15, 10] 4) 1
    (rowAt rows 0).d ≠ 0 ∧ selectRow rows 3 = 2 ∧ (rowAt rows 1).d ≠ 0 := by decide +kernel

/-- Vector D2's locator has its roots at the exponents 1 and 15, the two ends of the range. -/
theorem meets_RootsAscendAndMarkTheirIndex :
    let f := buildField Params.toy
    f.roots { sigma := [1, 8, 9], l := 2, steps := 4 } = [1, 15] := by decide +kernel

theorem meets_CorrectionAppliesTheReportedMagnitudes :
    let f := buildField Params.toy
    let rx : List Word := [4, 2, 3, 4, 5, 6, 7, 8, 9, 10, 11, 11, 10, 14, 15]
    let r := f.decodeWord 4 2 rx
    rx.length = f.n ∧ f.n ≤ 255 ∧ r.outcome = .corrected ∧ r.count = 2 ∧ r.errpos = [0, 14] := by decide +kernel

/-- One error only: entry 1 of ERRPOS and ERRVAL lies at ROOTCNT. -/
theorem meets_CorrectionAppliesTheReportedMagnitudes_padding :
    let r := (buildField Params.toy).decodeWord 4 2 [1, 2, 3, 4, 5, 6, 7, 8, 9, 10, 11, 11, 10, 14, 7]
    r.outcome = .corrected ∧ r.count = 1 ∧ r.errpos = [14, 0] ∧ r.errval = [1, 0] := by decide +kernel

theorem meets_SingleErrorIsCorrected :
    message.length = Block.toy.k ∧ (∀ x ∈ message, x.toNat < Block.toy.q) ∧ 0 < Block.toy.n ∧ 14 < Block.toy.n ∧
    (15 : Word) ≠ 0 ∧ (15 : Word).toNat < Block.toy.q ∧ ([2] : List Word).length = smallest.k :=
  ⟨by decide, message_below, by decide⟩

theorem meets_CommandsWriteOnlyTheirWriteSets :
    (let s := idle Block.toy []
     exec .nop s = .next (s.setLastCmd .nop) ∧ Instr.nop ≠ .encode ∧ Instr.nop ≠ .decode ∧ Instr.nop ≠ .syndrome ∧
     Instr.nop ≠ .init) ∧
    (let s := withRx (running Block.toy .decode [] 0) codeword
     exec .decode s = .next s.decodeRx.finish) := ⟨⟨exec_idle .nop rfl, by decide⟩, exec_running .decode rfl⟩

theorem meets_CommandsReadOnlyTheirSources :
    (running Block.toy .decode [] 0).regs.seq = .busy .decode ∧ (running Block.toy .encode [] 0).regs.seq = .busy .encode :=
  ⟨rfl, rfl⟩

theorem meets_IllegalWordRaisesIllegalCmd :
    (let s := idle Block.toy [.write 0x000C 4 6]
     s.regs.seq = .idle ∧ s.env.inputs = .write 0x000C 4 6 :: [] ∧ 6 ≤ ((6 : Word).extractLsb' 0 4).toNat) ∧
    (let s := idle Block.toy [.write 0x000C 4 0x10]
     s.env.inputs = .write 0x000C 4 0x10 :: [] ∧ (0x10 : Word).extractLsb' 4 28 ≠ 0) := by decide +kernel

theorem meets_CmdWriteWhileBusyIsRefused :
    let s := withData (running Block.toy .encode [.write 0x000C 4 5] 1) message
    s.coreMoves = false ∧ s.regs.seq = .busy .encode ∧ s.env.inputs = .write 0x000C 4 5 :: [] ∧
    ∀ e ∈ LongOp.encode.source s.mem, e ≠ none := by
  refine ⟨rfl, rfl, rfl, fun e he => ?_⟩
  obtain ⟨x, -, rfl⟩ := List.mem_map.1 he
  exact Option.some_ne_none x

/-- The first and the last valid entry of DATA and of RX. -/
theorem meets_InputWriteWhileBusyIsDropped :
    (let s := running Block.toy .init [.write 0x0400 4 1] 1
     s.coreMoves = false ∧ s.regs.seq = .busy .init ∧ s.env.inputs = .write 0x0400 4 1 :: []) ∧
    ((0x0400 : Offset).toNat = 0x0400 + 4 * 0 ∧ 0 < Block.toy.k) ∧
    ((0x0428 : Offset).toNat = 0x0400 + 4 * 10 ∧ 10 < Block.toy.k) ∧
    ((0x0C00 : Offset).toNat = 0x0C00 + 4 * 0 ∧ 0 < Block.toy.n) ∧
    ((0x0C38 : Offset).toNat = 0x0C00 + 4 * 14 ∧ 14 < Block.toy.n) := by decide +kernel

theorem meets_CommandErrorIsSticky :
    (let s := withError (idle Block.toy [.write 0x000C 4 5]) .illegalCmd
     s.regs.cmdErr = true ∧ after (step s) (fun t => !t.regs.cmdErr) = true) ∧
    (let s := idle Block.toy [.write 0x000C 4 6]
     s.regs.cmdErr = false ∧ after (step s) (fun t => t.regs.cmdErr) = true) := by decide +kernel

theorem meets_InputWriteStoresTheLowBits :
    (let s := idle Block.toy [.write 0x0C38 4 0xFFFFFFFF]
     s.regs.seq = .idle ∧ s.env.inputs = .write 0x0C38 4 0xFFFFFFFF :: []) ∧
    ((0x0400 : Offset).toNat = 0x0400 + 4 * 0 ∧ 0 < Block.toy.k) ∧
    ((0x0428 : Offset).toNat = 0x0400 + 4 * 10 ∧ 10 < Block.toy.k) ∧
    ((0x0C00 : Offset).toNat = 0x0C00 + 4 * 0 ∧ 0 < Block.toy.n) ∧
    ((0x0C38 : Offset).toNat = 0x0C00 + 4 * 14 ∧ 14 < Block.toy.n) := by decide +kernel

/-- A write to STATUS on an idle block, and one to the first entry beyond DATA on a busy one. -/
theorem meets_OtherWritesAreIgnored :
    (let s := idle Block.toy [.write 0x0010 4 1]
     s.coreMoves = false ∧ s.env.inputs = .write 0x0010 4 1 :: []) ∧
    (let s := running Block.toy .encode [.write 0x042C 4 1] 1
     s.coreMoves = false ∧ s.env.inputs = .write 0x042C 4 1 :: []) ∧
    ((0x0010 : Offset).toNat = 16 ∧ (∀ j < Block.toy.k, 16 ≠ 0x0400 + 4 * j) ∧ (∀ j < Block.toy.n, 16 ≠ 0x0C00 + 4 * j)) ∧
    ((0x042C : Offset).toNat = 0x042C ∧ (∀ j < Block.toy.k, 0x042C ≠ 0x0400 + 4 * j) ∧
      (∀ j < Block.toy.n, 0x042C ≠ 0x0C00 + 4 * j)) := by
  have hk : Block.toy.k = 11 := by decide
  refine ⟨⟨rfl, rfl⟩, ⟨rfl, rfl⟩, ⟨rfl, fun j _ => ?_, fun j _ => ?_⟩, rfl, fun j _ => ?_, fun j _ => ?_⟩ <;> omega

theorem meets_BusErrorChangesNothing :
    (let s := running Block.toy .encode [.read 0x0010 2] 1
     s.coreMoves = false ∧ s.env.inputs = .read 0x0010 2 :: [] ∧ (2 ≠ 4)) ∧
    (let s := idle Block.toy [.write 0x000D 4 0]
     s.coreMoves = false ∧ s.env.inputs = .write 0x000D 4 0 :: [] ∧ (0x000D : Offset).toNat % 4 ≠ 0) ∧
    (idle Block.toy []).env.hostFault = none := by decide +kernel

theorem meets_ReadsChangeNoState :
    let s := running Block.toy .decode [.read 0x1003 1] 1
    s.coreMoves = false ∧ s.env.inputs = .read 0x1003 1 :: [] := by decide +kernel

theorem meets_ConstantRegistersReadTheirWords :
    (∀ a, (running Block.toy .init [.read a 4] 1).coreMoves = false ∧
      (running Block.toy .init [.read a 4] 1).env.inputs = .read a 4 :: []) ∧
    (∀ a, (idle Block.toy [.write a 4 1]).coreMoves = false ∧
      (idle Block.toy [.write a 4 1]).env.inputs = .write a 4 1 :: []) ∧
    (0x0000 : Offset).toNat = 0x0000 ∧ (0x0004 : Offset).toNat = 0x0004 ∧ (0x0008 : Offset).toNat = 0x0008 ∧
    (0x000C : Offset).toNat = 0x000C :=
  ⟨fun _ => ⟨rfl, rfl⟩, fun _ => ⟨rfl, rfl⟩, by decide⟩

theorem meets_StatusReadsItsFields :
    let s := running Block.toy .decode [.read 0x0010 4] 1
    s.coreMoves = false ∧ s.env.inputs = .read 0x0010 4 :: [] := by decide +kernel

theorem meets_ResultReadsItsFields :
    (let s := idle Block.toy [.read 0x0014 4]
     s.coreMoves = false ∧ s.env.inputs = .read 0x0014 4 :: [] ∧ s.regs.seq ≠ .busy .decode ∧
     s.regs.seq ≠ .busy .syndrome) ∧
    (let s := running Block.toy .syndrome [.read 0x0014 4] 1
     s.coreMoves = false ∧ s.env.inputs = .read 0x0014 4 :: [] ∧ s.regs.seq ≠ .busy .decode) := by decide +kernel

/-- The last slot of a region, the two ends of each reserved stretch. -/
theorem meets_RegisterMapPlacesEveryEntry :
    255 < 256 ∧ 127 < 128 ∧
    (∀ a ∈ [0x0018, 0x03FC, 0x2800, 0x3FFC], a % 4 = 0 ∧ ((0x0018 ≤ a ∧ a < 0x0400) ∨ (0x2800 ≤ a ∧ a < 0x4000))) ∧
    target Block.toy 0x1800 = .reserved ∧ target Block.toy 0x1804 = .entry .synd 0 ∧
    target Block.toy 0x1810 = .entry .synd 3 ∧ target Block.toy 0x1814 = .reserved := by decide +kernel

/-- An entry with a value at rest, one with a value in the running command's write set, and one with none. -/
theorem meets_EntryReads :
    (let s := idle Block.toy [.read 0x203C 4]
     s.coreMoves = false ∧ s.env.inputs = .read 0x203C 4 :: [] ∧ (0x203C : Offset).toNat % 4 = 0 ∧
     target s.block (0x203C : Offset).toNat = .entry .exp 15 ∧ s.mem.entry .exp 15 = some 1 ∧
     s.regs.runningWrites .exp = false) ∧
    (let s := running Block.toy .init [.read 0x1C10 4] 1
     s.coreMoves = false ∧ s.env.inputs = .read 0x1C10 4 :: [] ∧
     target s.block (0x1C10 : Offset).toNat = .entry .gen 4 ∧ s.mem.entry .gen 4 = some 0 ∧
     s.regs.runningWrites .gen = true) ∧
    (let s := idle Block.toy [.read 0x1810 4]
     s.coreMoves = false ∧ s.env.inputs = .read 0x1810 4 :: [] ∧
     target s.block (0x1810 : Offset).toNat = .entry .synd 3 ∧ s.mem.entry .synd 3 = none) := by decide +kernel

theorem meets_ReservedOffsetsReadZeroAndIgnoreWrites :
    (let s := running Block.toy .syndrome [.read 0x1800 4] 1
     s.coreMoves = false ∧ (0x1800 : Offset).toNat % 4 = 0 ∧ target s.block (0x1800 : Offset).toNat = .reserved ∧
     s.env.inputs = .read 0x1800 4 :: []) ∧
    (let s := running Block.toy .syndrome [.write 0x0C3C 4 1] 1
     s.coreMoves = false ∧ (0x0C3C : Offset).toNat % 4 = 0 ∧ target s.block (0x0C3C : Offset).toNat = .reserved ∧
     s.env.inputs = .write 0x0C3C 4 1 :: []) := by decide +kernel

theorem meets_ResetReplacesTheState :
    let s := running Block.toy .decode [.reset, .read 0x0010 4] 1
    s.coreMoves = false ∧ s.env.inputs = .reset :: [.read 0x0010 4] := by decide +kernel

theorem meets_EveryStepKeepsTheInvariant :
    (State.afterReset Block.toy [] 0 none).Inv ∧
    step (State.afterReset Block.toy [] 0 none) = .next (State.afterReset Block.toy [] 0 none).buildTables.finish := by
  refine ⟨⟨by decide +kernel, by decide, by decide, ?_, ?_, ?_, ?_⟩, step_core (op := .init) rfl rfl⟩
  · intro op h; cases h; rfl
  · intro h; cases h
  · intro _; refine ⟨?_, ?_, ?_⟩ <;> exact fun e he => (List.mem_replicate.1 he).2
  · intro h; exact absurd rfl h

theorem meets_ParametersNeverChange : step (idle Block.toy []) = .next (idle Block.toy []) :=
  step_idle rfl rfl

/-- Each buffer's writer does change it: DATA and RX by a write, PARITY and OUT and SYND by their commands, EXP by INIT. -/
theorem meets_EveryBufferHasItsOnlyWriters :
    (let s := idle Block.toy [.write 0x0400 4 1]
     after (step s) (fun t => t.mem.data != s.mem.data) = true) ∧
    (let s := idle Block.toy [.write 0x0C38 4 1]
     after (step s) (fun t => t.mem.rx != s.mem.rx) = true) ∧
    (let s := withData (running Block.toy .encode [] 0) message
     after (step s) (fun t => t.mem.parity != s.mem.parity) = true) ∧
    (let s := withRx (running Block.toy .decode [] 0) codeword
     after (step s) (fun t => t.mem.out != s.mem.out && t.mem.synd != s.mem.synd) = true) ∧
    (let s := State.afterReset Block.toy [] 0 none
     after (step s) (fun t => t.mem.exp != s.mem.exp && t.mem.log != s.mem.log && t.mem.gen != s.mem.gen) = true) := by
  decide +kernel

/-- Each flag's writer does change it. -/
theorem meets_EveryFlagHasItsOnlyWriters :
    (let s := withRx (running Block.toy .syndrome [] 0) codeword
     after (step s) (fun t => t.regs.result != s.regs.result) = true) ∧
    (let s := idle Block.toy [.write 0x000C 4 1]
     s.regs.ready = true ∧ s.regs.seq = .idle ∧ after (step s) (fun t => !t.regs.ready && t.regs.seq != .idle) = true) ∧
    (let s := State.afterReset Block.toy [] 0 none
     s.regs.ready = false ∧ after (step s) (fun t => t.regs.ready && t.regs.seq != .busy .init) = true) ∧
    (let s := idle Block.toy [.write 0x000C 4 5]
     after (step s) (fun t => t.regs.lastCmd != s.regs.lastCmd) = true) := by decide +kernel

theorem meets_CompletionIgnoresInterleaving :
    let s := withRx (running Block.toy .decode [.read 0x0010 4] 1) codeword
    s.regs.seq = .busy .decode ∧ (∀ e ∈ LongOp.decode.source s.mem, e ≠ none) ∧
    Waits s ((s.takeInput []).hostRead 0x0010 4) := by
  intro s
  have hm : s.coreMoves = false := rfl
  have hi : s.env.inputs = .read 0x0010 4 :: [] := rfl
  refine ⟨rfl, fun e he => ?_, .tail .refl hm hi rfl (step_host hm hi)⟩
  obtain ⟨x, -, rfl⟩ := List.mem_map.1 he
  exact Option.some_ne_none x

theorem meets_PendingCommandCompletes :
    let s := running Block.toy .encode [.read 0x0010 4, .read 0x0010 4] 1
    s.regs.seq = .busy .encode ∧ s.coreMoves = false ∧ (∀ input ∈ s.env.inputs, input.isTransaction = true) ∧
    after (step s) (fun t => t.env.inputs == [.read 0x0010 4]) = true := by decide +kernel

/-- Each of the three causes is recorded, and a recorded one stays. -/
theorem meets_HostFaultsHaveTheirCauses :
    after (step (idle Block.toy [.read 0x0001 4])) (fun t => t.env.hostFault == some .busError) = true ∧
    after (step (idle Block.toy [.read 0x0800 4])) (fun t => t.env.hostFault == some .readNoValue) = true ∧
    after (step (running Block.toy .encode [] 0)) (fun t => t.env.hostFault == some .commandNoValue) = true ∧
    after (step ((idle Block.toy [.read 0x0800 4]).flagHostFault .busError))
      (fun t => t.env.hostFault == some .busError) = true := by decide +kernel

end Sys2Proof.Tests
end

section
/-! PROOFS. Where the register map places an entry (R75), what a host write stores (R42), the words of the constant registers
(R33 to R35), and which step changes which buffer (R44). -/

namespace Sys2Proof

/-! ## Symbols and parameters -/

/-- Masking with the symbol mask keeps the low `M` bits (R42). -/
theorem Block.and_symbolMask (b : Block) (w : Word) : w &&& b.symbolMask = BitVec.ofNat 32 (w.toNat % 2 ^ b.m) := by
  have hlt : w.toNat % 2 ^ b.m < 2 ^ 32 := Nat.lt_of_le_of_lt (Nat.mod_le _ _) w.isLt
  apply BitVec.eq_of_toNat_eq
  rw [BitVec.toNat_and, b.symbolMask_toNat, BitVec.toNat_ofNat, Nat.mod_eq_of_lt hlt]
  exact Nat.and_two_pow_sub_one_eq_mod w.toNat b.m

/-- PP has `M + 1` bits, so it fits in nine (R12, R13). -/
theorem Block.pp_lt (b : Block) : b.pp < 2 ^ 9 := by
  have hdeg : b.pp < 2 ^ (b.m + 1) := by
    have := b.wf
    simp only [Params.wf, Params.degreeOk, Bool.and_eq_true, decide_eq_true_eq] at this
    exact this.1.2.2
  have := b.m_le_eight
  exact Nat.lt_of_lt_of_le hdeg (Nat.pow_le_pow_right (by decide) (by omega))

/-- Every field of CONFIG fits in its byte (R34), with the sharper bounds of T and K. -/
theorem Block.parameters_le (b : Block) : b.m ≤ 8 ∧ b.t ≤ 127 ∧ b.k ≤ 253 ∧ b.n ≤ 255 := by
  have := b.q_le
  have := b.n_succ
  have := b.one_le_t
  have := b.two_t_lt_n
  have := b.nk_add_k
  have := b.nk_eq
  exact ⟨b.m_le_eight, by omega, by omega, by omega⟩

namespace Machine

/-! ## The constant words -/

/-- CONFIG as an integer: each field in its byte (R34). -/
theorem configWord_toNat (b : Block) :
    (configWord b).toNat = b.n * 2 ^ 24 + b.k * 2 ^ 16 + b.t * 2 ^ 8 + b.m := by
  obtain ⟨hm, ht, hk, hn⟩ := b.parameters_le
  have append_toNat (len : Nat) (x : BitVec len) (c : Nat) (hc : c < 2 ^ 8) :
      (x ++ BitVec.ofNat 8 c).toNat = x.toNat * 2 ^ 8 + c := by
    rw [BitVec.toNat_append, BitVec.toNat_ofNat, Nat.mod_eq_of_lt hc, ← Nat.shiftLeft_add_eq_or_of_lt hc,
      Nat.shiftLeft_eq]
  rw [configWord, append_toNat _ _ _ (by omega), append_toNat _ _ _ (by omega), append_toNat _ _ _ (by omega),
    BitVec.toNat_ofNat, Nat.mod_eq_of_lt (by omega)]
  omega

/-- PRIMPOLY as an integer (R35). -/
theorem primpolyWord_toNat (b : Block) : (primpolyWord b).toNat = b.pp := by
  have := b.pp_lt
  rw [primpolyWord, BitVec.toNat_ofNat, Nat.mod_eq_of_lt (by omega)]

/-! ## The register map -/

theorem Buf.mem_all (buf : Buf) : buf ∈ Buf.all := by
  cases buf <;> decide

/-- The regions of the buffers do not overlap (R75). -/
theorem Buf.regions_disjoint : ∀ x ∈ Buf.all, ∀ y ∈ Buf.all, x ≠ y →
    x.base + 4 * x.slots ≤ y.base ∨ y.base + 4 * y.slots ≤ x.base := by
  decide

/-- A slot's offset finds the slot's own buffer. -/
theorem bufferAt_slot (buf : Buf) {i : Nat} (h : i < buf.slots) : bufferAt (buf.base + 4 * i) = some buf := by
  cases hfind : bufferAt (buf.base + 4 * i) with
  | none =>
    have hout := List.find?_eq_none.1 hfind buf buf.mem_all
    simp only [Bool.and_eq_true, decide_eq_true_eq] at hout
    omega
  | some other =>
    have hin := List.find?_some hfind
    simp only [Bool.and_eq_true, decide_eq_true_eq] at hin
    have hall := List.mem_of_find?_eq_some hfind
    by_contra hne
    have := Buf.regions_disjoint other hall buf buf.mem_all fun e => hne (by rw [e])
    omega

/-- Slot `i` of a buffer's region is the buffer's entry if `i` is a valid index, and reserved otherwise (R75, R77). -/
theorem target_slot (b : Block) (buf : Buf) {i : Nat} (h : i < buf.slots) :
    target b (buf.base + 4 * i) =
      if (buf.valid b).1 ≤ i ∧ i < (buf.valid b).1 + (buf.valid b).2 then .entry buf (i - (buf.valid b).1)
      else .reserved := by
  have hbase : 0x0400 ≤ buf.base := by cases buf <;> decide
  have hindex : (buf.base + 4 * i - buf.base) / 4 = i := by omega
  simp (disch := omega) only [target, if_neg, bufferAt_slot buf h, hindex]

/-- Entry `j` of DATA lies at `0x0400 + 4*j`. -/
theorem target_data (b : Block) {j : Nat} (h : j < b.k) : target b (0x0400 + 4 * j) = .entry .data j := by
  obtain ⟨-, -, hk, -⟩ := b.parameters_le
  have hslot : j < Buf.slots .data := by simp only [Buf.slots]; omega
  simpa [Buf.base, Buf.valid, h] using target_slot b .data hslot

/-- Entry `j` of RX lies at `0x0C00 + 4*j`. -/
theorem target_rx (b : Block) {j : Nat} (h : j < b.n) : target b (0x0C00 + 4 * j) = .entry .rx j := by
  obtain ⟨-, -, -, hn⟩ := b.parameters_le
  have hslot : j < Buf.slots .rx := by simp only [Buf.slots]; omega
  simpa [Buf.base, Buf.valid, h] using target_slot b .rx hslot

/-! ## One legal transaction -/

section
variable {s t : State}

theorem legalAccess_iff (a : Offset) (size : Nat) : legalAccess a size = true ↔ size = 4 ∧ a.toNat % 4 = 0 := by
  simp [legalAccess]

/-- An idle block is at the host's turn (R222). -/
theorem coreMoves_of_idle (h : s.regs.seq = .idle) : s.coreMoves = false := by
  simp [State.coreMoves, (Regs.not_busy_iff _).2 h]

/-- An aligned 32-bit read that finds a fully specified word answers it, with err = 0 (R227). -/
theorem hostRead_exact_resp {a : Offset} {w : Word} (ha : a.toNat % 4 = 0)
    (h : s.reading (target s.block a.toNat) = .exact w) :
    (s.hostRead a 4).env.resp = some { rdata := w, err := false } := by
  rw [State.hostRead, if_pos ((legalAccess_iff a 4).2 ⟨rfl, ha⟩), h]
  rfl

/-- An aligned 32-bit write anywhere but CMD is answered and stored (R228, R229). -/
theorem step_store {a : Offset} {w : Word} {rest : List Input} (hm : s.coreMoves = false)
    (hi : s.env.inputs = .write a 4 w :: rest) (ha : a.toNat % 4 = 0) (hc : target s.block a.toNat ≠ .cmd) :
    step s = .next ((s.takeInput rest).acknowledge.hostStore w (target s.block a.toNat)) := by
  rw [step_host hm hi]
  exact hostWrite_store w ((legalAccess_iff a 4).2 ⟨rfl, ha⟩) hc

/-- A store in DATA changes one entry, to the low `M` bits of the word (R42). -/
theorem State.storeData_mem (s : State) (slot : Nat) (w : Word) : (s.storeData slot w).mem =
    { s.mem with data := s.mem.data.set slot (some (BitVec.ofNat 32 (w.toNat % 2 ^ s.block.m))) } := by
  rw [State.storeData, Block.and_symbolMask]

/-- A store in RX changes one entry, to the low `M` bits of the word (R42). -/
theorem State.storeRx_mem (s : State) (slot : Nat) (w : Word) : (s.storeRx slot w).mem =
    { s.mem with rx := s.mem.rx.set slot (some (BitVec.ofNat 32 (w.toNat % 2 ^ s.block.m))) } := by
  rw [State.storeRx, Block.and_symbolMask]

/-- A write to an input entry is stored when the block is idle (R228). -/
theorem writeInput_idle (store : State → State) (h : s.regs.seq = .idle) : s.writeInput store = store s := by
  simp [State.writeInput, h]

/-- A write to an input entry is dropped when the block is busy (R244). -/
theorem writeInput_busy (store : State → State) {op : LongOp} (h : s.regs.seq = .busy op) :
    s.writeInput store = s.raiseCmdError .writeWhileBusy := by
  simp [State.writeInput, h]

theorem hostStore_data_idle (w : Word) (slot : Nat) (h : s.regs.seq = .idle) :
    s.hostStore w (.entry .data slot) = s.storeData slot w :=
  writeInput_idle (·.storeData slot w) h

theorem hostStore_rx_idle (w : Word) (slot : Nat) (h : s.regs.seq = .idle) :
    s.hostStore w (.entry .rx slot) = s.storeRx slot w :=
  writeInput_idle (·.storeRx slot w) h

/-! ## What a step changes in the buffers -/

/-- Accepting a command changes no buffer (R224). -/
@[simp] theorem accepted_mem (i : Instr) (s : State) : (accepted i s).mem = s.mem := by
  cases i <;> rfl

/-- ENCODE completes by changing PARITY only (R44, R104). -/
theorem encodeData_mem (s : State) : ∃ parity, s.encodeData.mem = { s.mem with parity := parity } := by
  unfold State.encodeData
  split <;> exact ⟨_, rfl⟩

/-- DECODE completes by changing OUT, ERRPOS, ERRVAL and SYND only (R44, R104). -/
theorem decodeRx_mem (s : State) : ∃ out errpos errval synd,
    s.decodeRx.mem = { s.mem with out := out, errpos := errpos, errval := errval, synd := synd } := by
  unfold State.decodeRx
  split <;> exact ⟨_, _, _, _, rfl⟩

/-- SYNDROME completes by changing SYND only (R44, R104). -/
theorem syndromeRx_mem (s : State) : ∃ synd, s.syndromeRx.mem = { s.mem with synd := synd } := by
  unfold State.syndromeRx
  split <;> exact ⟨_, rfl⟩

/-- INIT completes by changing EXP, LOG and GEN only (R44, R104). -/
theorem buildTables_mem (s : State) :
    ∃ exp log gen, s.buildTables.mem = { s.mem with exp := exp, log := log, gen := gen } :=
  ⟨_, _, _, rfl⟩

/-- A store changes at most the one entry it addresses, of DATA or of RX, and that on an idle block only (R42, R228). -/
theorem hostStore_mem_cases (s : State) (w : Word) (tgt : Target) :
    (s.hostStore w tgt).mem = s.mem ∨
    (s.regs.seq = .idle ∧ ∃ slot, tgt = .entry .data slot ∧ (s.hostStore w tgt).mem = (s.storeData slot w).mem) ∨
    (s.regs.seq = .idle ∧ ∃ slot, tgt = .entry .rx slot ∧ (s.hostStore w tgt).mem = (s.storeRx slot w).mem) := by
  cases tgt with
  | entry buf slot =>
    cases buf with
    | data =>
      cases hs : s.regs.seq with
      | idle => exact .inr (.inl ⟨rfl, slot, rfl, by rw [hostStore_data_idle w slot hs]⟩)
      | busy op => exact .inl (by rw [State.hostStore, writeInput_busy (·.storeData slot w) hs]; rfl)
    | rx =>
      cases hs : s.regs.seq with
      | idle => exact .inr (.inr ⟨rfl, slot, rfl, by rw [hostStore_rx_idle w slot hs]⟩)
      | busy op => exact .inl (by rw [State.hostStore, writeInput_busy (·.storeRx slot w) hs]; rfl)
    | parity | out | errpos | errval | synd | gen | exp | log => exact .inl rfl
  | id | config | primpoly | cmd | status | result | reserved => exact .inl rfl

/-- A CMD write changes no buffer (R224). -/
theorem writeCmd_mem {w : Word} (h : writeCmd w s = .next t) : t.mem = s.mem := by
  obtain ⟨_, _, rfl⟩ | ⟨_, _, _, rfl⟩ | ⟨i, _, _, rfl⟩ := writeCmd_cases h
  · rfl
  · rfl
  · exact accepted_mem i s

/-- What a step can change in the buffers and tables: a core step its command's write set, a store one entry of DATA or RX, a
reset everything; every other step nothing (R44, R221, R228, R270). -/
theorem step_mem_cases (h : step s = .next t) :
    t.mem = s.mem ∨
    (∃ op, s.coreMoves = true ∧ s.regs.seq = .busy op ∧ t.mem = (completion op s).mem) ∨
    (s.coreMoves = false ∧ ∃ rest, s.env.inputs = .reset :: rest ∧ t.mem = Memory.reset s.block) ∨
    (s.regs.seq = .idle ∧ ∃ a w rest slot, s.env.inputs = .write a 4 w :: rest ∧ a.toNat % 4 = 0 ∧
      ((target s.block a.toNat = .entry .data slot ∧ t.mem = (s.storeData slot w).mem) ∨
       (target s.block a.toNat = .entry .rx slot ∧ t.mem = (s.storeRx slot w).mem))) := by
  obtain ⟨op, hm, hop, rfl⟩ | ⟨-, -, rfl⟩ | ⟨a, size, rest, -, -, rfl⟩ | ⟨a, size, w, rest, -, hi, hw⟩ |
    ⟨rest, hm, hi, rfl⟩ := step_cases h
  case inl => exact .inr (.inl ⟨op, hm, hop, rfl⟩)
  case inr.inl => exact .inl rfl
  case inr.inr.inl => exact .inl (hostRead_sameArch _ a size).2.2
  case inr.inr.inr.inr => exact .inr (.inr (.inl ⟨hm, rest, hi, rfl⟩))
  case inr.inr.inr.inl =>
    obtain ⟨-, rfl⟩ | ⟨-, -, hc⟩ | ⟨hl, -, rfl⟩ := hostWrite_cases hw
    · exact .inl rfl
    · exact .inl (by simpa using writeCmd_mem hc)
    · obtain ⟨rfl, ha⟩ := (legalAccess_iff a size).1 hl
      obtain hsame | ⟨hs, slot, ht, hmem⟩ | ⟨hs, slot, ht, hmem⟩ :=
        hostStore_mem_cases (s.takeInput rest).acknowledge w (target s.block a.toNat)
      · exact .inl hsame
      · exact .inr (.inr (.inr ⟨hs, a, w, rest, slot, hi, ha, .inl ⟨ht, hmem⟩⟩))
      · exact .inr (.inr (.inr ⟨hs, a, w, rest, slot, hi, ha, .inr ⟨ht, hmem⟩⟩))

end

end Machine

end Sys2Proof

open Sys2Proof Sys2Proof.Machine

/-- Settles O56, by `step_mem_cases` and the write set of each core step. -/
theorem everyBufferHasItsOnlyWriters : Obligations.EveryBufferHasItsOnlyWriters := by
  intro s t hstep hreset completes stored
  obtain hmem | ⟨op, hm, hop, hmem⟩ | ⟨hm, rest, hi, -⟩ | ⟨hs, a, w, rest, slot, hi, ha, ⟨ht, hmem⟩ | ⟨ht, hmem⟩⟩ :=
    step_mem_cases hstep
  · simp [hmem]
  · have hc : completes op := ⟨hm, hop⟩
    cases op with
    | init =>
      obtain ⟨exp, log, gen, hw⟩ := buildTables_mem s
      simp [hmem, completion, hw, hc]
    | encode =>
      obtain ⟨parity, hw⟩ := encodeData_mem s
      simp [hmem, completion, hw, hc]
    | decode =>
      obtain ⟨out, errpos, errval, synd, hw⟩ := decodeRx_mem s
      simp [hmem, completion, hw, hc]
    | syndrome =>
      obtain ⟨synd, hw⟩ := syndromeRx_mem s
      simp [hmem, completion, hw, hc]
  · exact absurd ⟨hm, rest, hi⟩ hreset
  · have hstored := hmem.trans (s.storeData_mem slot w)
    refine ⟨fun _ => ⟨hs, a, w, rest, slot, hi, ha, ht, hstored⟩, ?_⟩
    simp [hmem]
  · have hstored := hmem.trans (s.storeRx_mem slot w)
    refine ⟨by simp [hmem], fun _ => ⟨hs, a, w, rest, slot, hi, ha, ht, hstored⟩, ?_⟩
    simp [hmem]

/-- Settles O41: the two offsets are those of the entries, and the mask keeps the low bits. -/
theorem inputWriteStoresTheLowBits : Obligations.InputWriteStoresTheLowBits := by
  intro s a w rest j hs hi x
  have hm := coreMoves_of_idle hs
  constructor <;> intro ha hj
  · have ht : target s.block a.toNat = .entry .data j := ha ▸ target_data s.block hj
    refine ⟨_, step_store hm hi (by omega) (by simp [ht]), ?_⟩
    rw [ht, hostStore_data_idle (s := (s.takeInput rest).acknowledge) w j hs]
    exact ⟨rfl, rfl, ⟨_, rfl⟩, State.storeData_mem _ j w⟩
  · have ht : target s.block a.toNat = .entry .rx j := ha ▸ target_rx s.block hj
    refine ⟨_, step_store hm hi (by omega) (by simp [ht]), ?_⟩
    rw [ht, hostStore_rx_idle (s := (s.takeInput rest).acknowledge) w j hs]
    exact ⟨rfl, rfl, ⟨_, rfl⟩, State.storeRx_mem _ j w⟩

/-- Settles O45: the register map gives each offset its register, and the words' integers follow from the bounds of the
parameters. -/
theorem constantRegistersReadTheirWords : Obligations.ConstantRegistersReadTheirWords := by
  refine ⟨fun s a rest hm hi => ⟨_, step_host hm hi, fun ha => ?_, fun ha => ?_, fun ha => ?_, fun ha => ?_⟩,
    fun s a w rest hm hi ha => ?_, Block.parameters_le, by decide, by decide, by decide⟩
  · exact hostRead_exact_resp (by omega) (by rw [ha]; rfl)
  · exact ⟨_, hostRead_exact_resp (by omega) (by rw [ha]; rfl), configWord_toNat s.block⟩
  · exact ⟨_, hostRead_exact_resp (by omega) (by rw [ha]; rfl), primpolyWord_toNat s.block⟩
  · exact hostRead_exact_resp (by omega) (by rw [ha]; rfl)
  · obtain ha | ha | ha := ha <;>
      refine ⟨_, step_store hm hi (by omega) (by simp [ha, target]), by rw [ha]; exact ⟨rfl, rfl, rfl⟩⟩

end

section
/-! Reserved offsets and entries (R77). -/

namespace Sys2Proof.Machine

/-- An aligned 32-bit read that finds a fully specified word does nothing but answer it: no free value is drawn and no host fault
recorded (R227). -/
theorem hostRead_exact {s : State} {a : Offset} {w : Word} (ha : a.toNat % 4 = 0)
    (h : s.reading (target s.block a.toNat) = .exact w) : s.hostRead a 4 = s.respond w false := by
  rw [State.hostRead, if_pos ((legalAccess_iff a 4).2 ⟨rfl, ha⟩), h]
  rfl

end Sys2Proof.Machine

open Sys2Proof Sys2Proof.Machine

/-- Settles O50: a reserved target reads as the exact word 0 and stores nothing, whatever the sequencer does. -/
theorem reservedOffsetsReadZeroAndIgnoreWrites : Obligations.ReservedOffsetsReadZeroAndIgnoreWrites := by
  intro s a rest hm ha ht
  refine ⟨fun hi => ?read, fun w hi => ?write⟩
  case read =>
    have hzero : (s.takeInput rest).reading (target s.block a.toNat) = .exact 0 := by rw [ht]; rfl
    have hanswer : (s.takeInput rest).hostRead a 4 = (s.takeInput rest).respond 0 false := hostRead_exact ha hzero
    refine ⟨_, step_host hm hi, ?_⟩
    rw [hanswer]
    exact ⟨⟨rfl, rfl, rfl⟩, rfl, rfl⟩
  case write =>
    refine ⟨_, step_store hm hi ha (by simp [ht]), ?_⟩
    rw [ht]
    exact ⟨⟨rfl, rfl, rfl⟩, ⟨_, rfl⟩, rfl⟩

end

section
/-! PROOFS. The field over the built tables (R123 to R129): what each table entry is, the laws of multiplication, powers and
quotients, and the generator polynomial with its roots and its nonzero coefficients (R133 to R136). -/

namespace Sys2Proof.Machine

/-! ## The entries of the tables -/

/-- At the core step of INIT the tables are built and the command finishes (R140). -/
theorem exec_init_running {s t : State} (hs : s.regs.seq = .busy .init) (h : exec .init s = .next t) :
    t = s.buildTables.finish := by
  have hrun : exec .init s = .next s.buildTables.finish := exec_running .init hs
  rw [hrun] at h
  cases h
  rfl

section
variable (b : Block)

/-- Every entry of EXP, the duplicate at N included, is the power of alpha of its index (R121). -/
theorem buildExp_getD {i : Nat} (h : i ≤ b.n) : (buildExp b.toParams).getD i 0 = alphaPow b.toParams i := by
  rw [List.getD_eq_getElem?_getD]
  obtain hlt | rfl := Nat.lt_or_eq_of_le h
  · rw [buildExp_getElem? b hlt]; rfl
  · rw [buildExp_last, alphaPow_n]; rfl

/-- LOG is the inverse of EXP (R122). -/
theorem buildLog_getD {i : Nat} (h : i < b.n) :
    (buildLog b.toParams (buildExp b.toParams)).getD (alphaPow b.toParams i).toNat 0 = BitVec.ofNat 32 i := by
  rw [List.getD_eq_getElem?_getD, buildLog_alphaPow b h]; rfl

/-- An exponent fits in a word. -/
theorem exponent_toNat {i : Nat} (h : i < b.n) : (BitVec.ofNat 32 i).toNat = i := by
  have := b.n_succ
  have := b.q_le
  rw [BitVec.toNat_ofNat]
  exact Nat.mod_eq_of_lt (by omega)

/-- Every integer from 1 to Q-1 is a power of alpha (R124). -/
theorem exists_alphaPow_toNat {x : Nat} (h0 : 0 < x) (hx : x < b.q) : ∃ i < b.n, (alphaPow b.toParams i).toNat = x := by
  have hq := b.q_le
  have hword : (BitVec.ofNat 32 x).toNat = x := by rw [BitVec.toNat_ofNat]; exact Nat.mod_eq_of_lt (by omega)
  have hne : BitVec.ofNat 32 x ≠ 0 := fun e => by
    rw [e] at hword
    exact absurd hword (Nat.ne_of_lt h0)
  obtain ⟨i, hi, e⟩ := exists_alphaPow b hne (by rw [hword]; exact hx)
  exact ⟨i, hi, by rw [e, hword]⟩

theorem alphaPow_toNat_pos (i : Nat) : 0 < (alphaPow b.toParams i).toNat :=
  Nat.pos_of_ne_zero fun e => alphaPow_ne_zero b i (BitVec.eq_of_toNat_eq e)

/-- The first N entries of EXP are a permutation of the nonzero symbols (R123). -/
theorem powers_perm : (((buildExp b.toParams).take b.n).map (·.toNat)).Perm (List.range' 1 (b.q - 1)) := by
  have hnodup : (((buildExp b.toParams).take b.n).map (·.toNat)).Nodup :=
    b.powers_nodup.map fun x y e => BitVec.eq_of_toNat_eq e
  refine (List.perm_ext_iff_of_nodup hnodup List.nodup_range').2 fun x => ?_
  rw [powers_eq, List.map_map, List.mem_map, List.mem_range'_1]
  constructor
  · rintro ⟨i, -, rfl⟩
    have := alphaPow_toNat_pos b i
    have := alphaPow_lt b i
    simp only [Function.comp_apply]
    omega
  · rintro ⟨h1, hx⟩
    obtain ⟨i, hi, e⟩ := exists_alphaPow_toNat b (x := x) h1 (by omega)
    exact ⟨i, List.mem_range.2 hi, e⟩

/-! ## Powers, products and quotients -/

/-- A natural exponent reads the table at its remainder (R128). -/
theorem Field.pow_natCast_getD (f : Field) (e : Nat) : f.pow (e : Int) = f.exp.getD (e % f.n) 0 := by
  rw [Field.pow, ← Int.natCast_emod, Int.toNat_natCast]

/-- A product of nonzero symbols is the power of the sum of their logarithms (R126). -/
theorem Field.mul_of_ne_zero (f : Field) {x y : Word} (hx : x ≠ 0) (hy : y ≠ 0) :
    f.mul x y = f.pow ((f.logOf x : Int) + f.logOf y) := by
  rw [Field.mul, if_neg (not_or.2 ⟨hx, hy⟩)]

/-- A quotient of nonzero symbols is the power of the difference of their logarithms (R127). -/
theorem Field.div_of_ne_zero (f : Field) {x y : Word} (hx : x ≠ 0) (hy : y ≠ 0) :
    f.div x y = f.pow ((f.logOf x : Int) - f.logOf y) := by
  rw [Field.div, if_neg hy, if_neg hx]

theorem Field.zero_div (f : Field) {y : Word} (hy : y ≠ 0) : f.div 0 y = 0 := by
  rw [Field.div, if_neg hy, if_pos rfl]

/-- Powers add their exponents (R128). -/
theorem buildField_pow_add (e₁ e₂ : Int) :
    (buildField b.toParams).pow (e₁ + e₂) =
      (buildField b.toParams).mul ((buildField b.toParams).pow e₁) ((buildField b.toParams).pow e₂) := by
  have hn : (b.n : Int) ≠ 0 := by have := b.n_pos; omega
  have hsum : (e₁ + e₂) % (b.n : Int) = ((e₁ % b.n).toNat + (e₂ % b.n).toNat : Nat) % (b.n : Int) := by
    rw [Int.natCast_add, Int.toNat_of_nonneg (Int.emod_nonneg _ hn), Int.toNat_of_nonneg (Int.emod_nonneg _ hn),
      ← Int.add_emod]
  rw [pow_eq_alphaPow b (e₁ + e₂), hsum, ← pow_eq_alphaPow, pow_natCast, ← mul_alphaPow, pow_eq_alphaPow b e₁,
    pow_eq_alphaPow b e₂]

/-- The power of a logarithm is the symbol (R123, R128). -/
theorem pow_logOf {x : Word} (h0 : x ≠ 0) (hx : x.toNat < b.q) :
    (buildField b.toParams).pow ((buildField b.toParams).logOf x : Int) = x := by
  obtain ⟨i, hi, rfl⟩ := exists_alphaPow b h0 hx
  rw [logOf_alphaPow b hi, pow_natCast]

/-- A quotient times its divisor is the dividend (R127). -/
theorem div_mul_cancel_symbol {x y : Word} (hx : x.toNat < b.q) (hy : y.toNat < b.q) (hy0 : y ≠ 0) :
    (buildField b.toParams).mul ((buildField b.toParams).div x y) y = x := by
  by_cases hx0 : x = 0
  · rw [hx0, Field.zero_div _ hy0, Field.zero_mul]
  · have hsum := buildField_pow_add b
      ((buildField b.toParams).logOf x - (buildField b.toParams).logOf y) ((buildField b.toParams).logOf y)
    rwa [Int.sub_add_cancel, pow_logOf b hx0 hx, pow_logOf b hy0 hy, ← Field.div_of_ne_zero _ hx0 hy0, eq_comm] at hsum

theorem one_mul_symbol {x : Word} (hx : x.toNat < b.q) : (buildField b.toParams).mul 1 x = x :=
  alphaPow_mul b 0 hx

theorem mul_assoc_symbols {x y z : Word} (hx : x.toNat < b.q) (hy : y.toNat < b.q) (hz : z.toNat < b.q) :
    (buildField b.toParams).mul ((buildField b.toParams).mul x y) z =
      (buildField b.toParams).mul x ((buildField b.toParams).mul y z) := by
  rw [Field.mul_comm _ _ z, mul_mul b hz hx hy, Field.mul_comm _ z y]

theorem mul_eq_zero_iff_symbols {x y : Word} (hx : x.toNat < b.q) (hy : y.toNat < b.q) :
    (buildField b.toParams).mul x y = 0 ↔ x = 0 ∨ y = 0 := by
  constructor
  · intro h
    exact or_iff_not_imp_left.2 fun hx0 => eq_zero_of_mul b hx hy hx0 h
  · rintro (rfl | rfl)
    · exact Field.zero_mul _ y
    · exact Field.mul_zero _ x

/-! ## One factor of the generator -/

theorem one_lt_q : (1 : Word).toNat < b.q := by
  have := b.four_le_q
  show 1 < b.q
  omega

theorem Field.scale_zero (f : Field) (i : Nat) : f.scale i 0 = 0 := if_pos rfl

/-- Scaling by `i` is the product by `alpha^i` (R133). -/
theorem scale_eq_mul (i : Nat) {g : Word} (hg : g.toNat < b.q) :
    (buildField b.toParams).scale i g = (buildField b.toParams).mul (alphaPow b.toParams i) g := by
  by_cases h0 : g = 0
  · rw [h0, Field.scale_zero, Field.mul_zero]
  · rw [Field.scale, if_neg h0, buildField_pow_add, pow_logOf b h0 hg, pow_natCast, Field.mul_comm]

/-- A sum of polynomials of one length, coefficient by coefficient. -/
theorem zipWith_gfAdd_getD {l r : List Word} (hlen : l.length = r.length) (j : Nat) :
    (List.zipWith gfAdd l r).getD j 0 = l.getD j 0 ^^^ r.getD j 0 := by
  induction l generalizing r j with
  | nil => cases List.eq_nil_of_length_eq_zero hlen.symm; exact BitVec.xor_self.symm
  | cons c l ih =>
    cases r with
    | nil => cases hlen
    | cons d r =>
      cases j with
      | zero => rfl
      | succ j => exact ih (Nat.succ.inj hlen) j

/-- A zero beyond the leading coefficient changes no coefficient. -/
theorem concat_zero_getD (l : List Word) (j : Nat) : (l ++ [0]).getD j 0 = l.getD j 0 := by
  induction l generalizing j with
  | nil => cases j <;> rfl
  | cons c l ih =>
    cases j with
    | zero => rfl
    | succ j => exact ih j

/-- The coefficients of `(x + alpha^i) * G`, one by one (R133). -/
theorem timesFactor_getD (f : Field) (g : List Word) (i j : Nat) :
    (f.timesFactor g i).getD j 0 = (0 :: g).getD j 0 ^^^ f.scale i (g.getD j 0) := by
  have hscaled : (g.map (f.scale i)).getD j 0 = f.scale i (g.getD j 0) := by
    rw [← f.scale_zero i, List.getD_map, f.scale_zero]
  rw [Field.timesFactor, zipWith_gfAdd_getD (by simp), concat_zero_getD, hscaled]

theorem scale_eq_zero_iff {i : Nat} {g : Word} (hg : g.toNat < b.q) :
    (buildField b.toParams).scale i g = 0 ↔ g = 0 := by
  rw [scale_eq_mul b i hg, mul_eq_zero_iff_symbols b (alphaPow_lt b i) hg]
  exact or_iff_right (alphaPow_ne_zero b i)

theorem zero_cons_symbols {g : List Word} (hg : AllSymbols b.m g) : AllSymbols b.m (0 :: g) :=
  List.forall_mem_cons.2 ⟨Nat.two_pow_pos _, hg⟩

theorem scaled_symbols (g : List Word) (i : Nat) :
    AllSymbols b.m (g.map ((buildField b.toParams).scale i) ++ [0]) := by
  simp only [AllSymbols, List.forall_mem_append, List.forall_mem_map, List.forall_mem_singleton]
  exact ⟨fun c _ => Field.scale_lt (buildField_symbols b) i c, Nat.two_pow_pos _⟩

theorem timesFactor_symbols {g : List Word} (hg : AllSymbols b.m g) (i : Nat) :
    AllSymbols b.m ((buildField b.toParams).timesFactor g i) :=
  zipWith_gfAdd_lt (zero_cons_symbols b hg) (scaled_symbols b g i)

/-! ## Evaluation -/

/-- A zero leading coefficient does not count. -/
theorem eval_concat_zero (f : Field) (l : List Word) (x : Word) : f.eval (l ++ [0]) x = f.eval l x := by
  induction l with
  | nil => exact BitVec.zero_xor.trans (f.mul_zero x)
  | cons c l ih => simp only [List.cons_append, Field.eval, ih]

/-- Evaluation of a sum of polynomials. -/
theorem eval_zipWith_gfAdd {x : Word} (hx : x.toNat < b.q) {l r : List Word} (hl : AllSymbols b.m l)
    (hr : AllSymbols b.m r) (hlen : l.length = r.length) :
    (buildField b.toParams).eval (List.zipWith gfAdd l r) x =
      (buildField b.toParams).eval l x ^^^ (buildField b.toParams).eval r x := by
  induction l generalizing r with
  | nil => cases List.eq_nil_of_length_eq_zero hlen.symm; exact BitVec.xor_self.symm
  | cons c l ih =>
    cases r with
    | nil => cases hlen
    | cons d r =>
      have ih := ih hl.tail hr.tail (Nat.succ.inj hlen)
      simp only [List.zipWith_cons_cons, Field.eval, gfAdd, ih, mul_xor b hx (eval_lt b hl.tail x) (eval_lt b hr.tail x)]
      ac_rfl

/-- Evaluation of a polynomial scaled by `alpha^i`. -/
theorem eval_map_scale {x : Word} (hx : x.toNat < b.q) (i : Nat) {g : List Word} (hg : AllSymbols b.m g) :
    (buildField b.toParams).eval (g.map ((buildField b.toParams).scale i)) x =
      (buildField b.toParams).mul (alphaPow b.toParams i) ((buildField b.toParams).eval g x) := by
  induction g with
  | nil => exact (Field.mul_zero _ _).symm
  | cons c g ih =>
    have hi := alphaPow_lt b i
    have hv := eval_lt b hg.tail x
    simp only [List.map_cons, Field.eval, ih hg.tail, scale_eq_mul b i hg.head]
    rw [mul_xor b hi hg.head (Field.mul_lt (buildField_symbols b) _ _), mul_mul b hx hi hv]

/-- One pass of R133 multiplies the polynomial's value at `x` by `x + alpha^i`. -/
theorem eval_timesFactor {x : Word} (hx : x.toNat < b.q) (i : Nat) {g : List Word} (hg : AllSymbols b.m g) :
    (buildField b.toParams).eval ((buildField b.toParams).timesFactor g i) x =
      (buildField b.toParams).mul (x ^^^ alphaPow b.toParams i) ((buildField b.toParams).eval g x) := by
  rw [Field.timesFactor, eval_zipWith_gfAdd b hx (zero_cons_symbols b hg) (scaled_symbols b g i) (by simp),
    eval_concat_zero, eval_map_scale b hx i hg, xor_mul b (eval_lt b hg x) hx (alphaPow_lt b i), Field.eval]
  congr 1
  exact BitVec.zero_xor

/-! ## The generator -/

/-- The product of the factors `x + alpha^1` to `x + alpha^len`, from the polynomial 1. -/
def Field.factorProduct (f : Field) (len : Nat) : List Word := (List.range' 1 len).foldl f.timesFactor [1]

theorem factorProduct_succ (f : Field) (len : Nat) :
    f.factorProduct (len + 1) = f.timesFactor (f.factorProduct len) (len + 1) := by
  rw [Field.factorProduct, List.range'_1_concat, List.foldl_append, Nat.add_comm 1 len]
  rfl

/-- R133's start `x + alpha^1` is the first factor times 1. -/
theorem generator_eq_factorProduct {nk : Nat} (h : 1 ≤ nk) :
    (buildField b.toParams).generator nk = (buildField b.toParams).factorProduct nk := by
  obtain ⟨k, rfl⟩ : ∃ k, nk = k + 1 := ⟨nk - 1, by omega⟩
  have hfirst : (buildField b.toParams).timesFactor [1] 1 = [(buildField b.toParams).pow 1, 1] := by
    have hscale : (buildField b.toParams).scale 1 1 = (buildField b.toParams).pow 1 := by
      rw [scale_eq_mul b 1 (one_lt_q b), Field.mul_comm, one_mul_symbol b (alphaPow_lt b 1)]
      exact (pow_natCast b 1).symm
    show [0 ^^^ (buildField b.toParams).scale 1 1, 1 ^^^ 0] = _
    rw [hscale]
    congr 1
    exact BitVec.zero_xor
  rw [Field.factorProduct, List.range'_succ, List.foldl_cons, hfirst]
  rfl

/-- What the product of the first `len` factors is (R135): of degree `len`, monic, with a nonzero constant term, and zero at
`alpha^1` to `alpha^len`. -/
structure IsGenerator (b : Block) (len : Nat) (g : List Word) : Prop where
  symbols : AllSymbols b.m g
  length : g.length = len + 1
  monic : g.getD len 0 = 1
  constant : g.getD 0 0 ≠ 0
  roots : ∀ i, 1 ≤ i → i ≤ len → (buildField b.toParams).eval g (alphaPow b.toParams i) = 0

/-- The polynomial 1 is the product of no factors. -/
theorem isGenerator_one : IsGenerator b 0 [1] where
  symbols := List.forall_mem_singleton.2 (one_lt_q b)
  length := rfl
  monic := rfl
  constant := by decide
  roots i h1 h0 := by omega

/-- The next factor adds one root and keeps the others. -/
theorem IsGenerator.timesFactor {b : Block} {len : Nat} {g : List Word} (h : IsGenerator b len g) :
    IsGenerator b (len + 1) ((buildField b.toParams).timesFactor g (len + 1)) where
  symbols := timesFactor_symbols b h.symbols _
  length := by rw [timesFactor_length, h.length]
  monic := by
    have hbeyond : g.getD (len + 1) 0 = 0 := List.getD_eq_default _ _ (by rw [h.length])
    rw [timesFactor_getD, hbeyond, Field.scale_zero, List.getD_cons_succ, h.monic]
    rfl
  constant := by
    have hlt : (g.getD 0 0).toNat < b.q := coeff_lt h.symbols 0
    rw [timesFactor_getD, List.getD_cons_zero]
    exact fun e => h.constant ((scale_eq_zero_iff b hlt).1 (BitVec.zero_xor.symm.trans e))
  roots i h1 hi := by
    rw [eval_timesFactor b (alphaPow_lt b i) _ h.symbols]
    obtain hle | rfl := Nat.le_or_eq_of_le_succ hi
    · rw [h.roots i h1 hle, Field.mul_zero]
    · rw [BitVec.xor_self]
      exact Field.zero_mul _ _

theorem isGenerator_factorProduct (len : Nat) : IsGenerator b len ((buildField b.toParams).factorProduct len) := by
  induction len with
  | zero => exact isGenerator_one b
  | succ len ih => rw [factorProduct_succ]; exact ih.timesFactor

theorem isGenerator_generator : IsGenerator b b.nk ((buildField b.toParams).generator b.nk) := by
  have hnk : 1 ≤ b.nk := by have := b.one_le_t; rw [b.nk_eq]; omega
  rw [generator_eq_factorProduct b hnk]
  exact isGenerator_factorProduct b b.nk

/-! ## No coefficient of the generator is zero -/

/-- Two equal sums of four words, from the sums they share the words `u` and `v` with. -/
theorem xor_eq_xor_of_shared {u v w x y z e₁ e₂ : Word} (h : v ^^^ w = e₁ ^^^ e₂) (h' : y ^^^ z = x ^^^ u) :
    (u ^^^ y) ^^^ (w ^^^ z) = (e₁ ^^^ x) ^^^ (e₂ ^^^ v) := by
  calc (u ^^^ y) ^^^ (w ^^^ z) = (y ^^^ z) ^^^ (w ^^^ u) := by ac_rfl
    _ = (x ^^^ w) ^^^ (u ^^^ u) := by rw [h']; ac_rfl
    _ = (x ^^^ w) ^^^ (v ^^^ v) := by rw [BitVec.xor_self, BitVec.xor_self]
    _ = (v ^^^ w) ^^^ (x ^^^ v) := by ac_rfl
    _ = (e₁ ^^^ x) ^^^ (e₂ ^^^ v) := by rw [h]; ac_rfl

/-- Scaling is linear on symbols. -/
theorem scale_xor (i : Nat) {x y : Word} (hx : x.toNat < b.q) (hy : y.toNat < b.q) :
    (buildField b.toParams).scale i (x ^^^ y) =
      (buildField b.toParams).scale i x ^^^ (buildField b.toParams).scale i y := by
  rw [scale_eq_mul b i (xor_lt b.m hx hy), scale_eq_mul b i hx, scale_eq_mul b i hy, mul_xor b (alphaPow_lt b i) hx hy]

/-- Scalings add their exponents. -/
theorem scale_scale (i j : Nat) {x : Word} (hx : x.toNat < b.q) :
    (buildField b.toParams).scale i ((buildField b.toParams).scale j x) = (buildField b.toParams).scale (i + j) x := by
  rw [scale_eq_mul b i (Field.scale_lt (buildField_symbols b) j x), scale_eq_mul b j hx, scale_eq_mul b _ hx,
    ← mul_assoc_symbols b (alphaPow_lt b i) (alphaPow_lt b j) hx, mul_alphaPow]

/-- Scaling a nonzero symbol by different exponents from 1 to N gives different symbols. -/
theorem scale_succ_injOn {i j : Nat} (hi : i < b.n) (hj : j < b.n) {x : Word} (h0 : x ≠ 0) (hx : x.toNat < b.q)
    (h : (buildField b.toParams).scale (i + 1) x = (buildField b.toParams).scale (j + 1) x) : i = j := by
  have hpow := alphaPow_lt b
  rw [scale_eq_mul b _ hx, scale_eq_mul b _ hx] at h
  have hprod : (buildField b.toParams).mul (alphaPow b.toParams (i + 1) ^^^ alphaPow b.toParams (j + 1)) x = 0 := by
    rw [xor_mul b hx (hpow _) (hpow _), h]
    exact BitVec.xor_self
  have hsum := ((mul_eq_zero_iff_symbols b (xor_lt b.m (hpow _) (hpow _)) hx).1 hprod).resolve_right h0
  have heq := BitVec.xor_eq_zero_iff.1 hsum
  rw [alphaPow_succ, alphaPow_succ] at heq
  exact alphaPow_injOn b hi hj (timesAlpha_inj b (hpow i) (hpow j) heq)

/-- The relation of the coefficients `e` of `x^(j-1)` and `c` of `x^j` in the product `P` of the first `len` factors:
`alpha^(len+1) * (alpha^j + 1) * c = (alpha^(len+1) + alpha^j) * e`. It compares the coefficients of
`(x + alpha^len) * P(alpha * x) = alpha^len * (x + 1) * P(x)`. -/
def Field.Neighbours (f : Field) (len j : Nat) (e c : Word) : Prop :=
  f.scale (len + 1 + j) c ^^^ f.scale (len + 1) c = f.scale (len + 1) e ^^^ f.scale j e

section
variable {b} {len j : Nat} {e c c' : Word} (he : e.toNat < b.q) (hc : c.toNat < b.q) (hc' : c'.toNat < b.q)
include he hc

/-- Both sides of the relation times `alpha^i`. -/
theorem neighbours_scaled (h : (buildField b.toParams).Neighbours len j e c) (i : Nat) :
    (buildField b.toParams).scale (i + (len + 1 + j)) c ^^^ (buildField b.toParams).scale (i + (len + 1)) c =
      (buildField b.toParams).scale (i + (len + 1)) e ^^^ (buildField b.toParams).scale (i + j) e := by
  have hlt (k : Nat) (x : Word) : ((buildField b.toParams).scale k x).toNat < b.q :=
    Field.scale_lt (buildField_symbols b) k x
  have hi := congrArg ((buildField b.toParams).scale i) h
  simpa only [scale_xor b i (hlt _ _) (hlt _ _), scale_scale b _ _ he, scale_scale b _ _ hc] using hi

include hc'

/-- The next factor keeps the relation: three neighbours `e`, `c`, `c'` become two, `e + alpha^(len+1) * c` and
`c + alpha^(len+1) * c'`. -/
theorem neighbours_timesFactor (h : (buildField b.toParams).Neighbours len j e c)
    (h' : (buildField b.toParams).Neighbours len (j + 1) c c') :
    (buildField b.toParams).Neighbours (len + 1) (j + 1) (e ^^^ (buildField b.toParams).scale (len + 1) c)
      (c ^^^ (buildField b.toParams).scale (len + 1) c') := by
  have hlt (k : Nat) (x : Word) : ((buildField b.toParams).scale k x).toNat < b.q :=
    Field.scale_lt (buildField_symbols b) k x
  have h := neighbours_scaled he hc h 1
  have h' := neighbours_scaled hc hc' h' (len + 2)
  simp only [Field.Neighbours, scale_xor b _ he (hlt _ _), scale_xor b _ hc (hlt _ _), scale_scale b _ _ hc,
    scale_scale b _ _ hc']
  rw [show 1 + (len + 1 + j) = j + 1 + (len + 1) by omega, Nat.add_comm 1 (len + 1), Nat.add_comm 1 j] at h
  rw [show len + 2 + (len + 1 + (j + 1)) = len + 1 + 1 + (j + 1) + (len + 1) by omega,
    show len + 2 + (j + 1) = len + 1 + 1 + (j + 1) by omega, show len + 2 + (len + 1) = len + 1 + 1 + (len + 1) from rfl] at h'
  exact xor_eq_xor_of_shared h h'

end

/-- The coefficients of a product of factors are neighbours. -/
theorem factorProduct_neighbours (len j : Nat) :
    (buildField b.toParams).Neighbours len j ((0 :: (buildField b.toParams).factorProduct len).getD j 0)
      (((buildField b.toParams).factorProduct len).getD j 0) := by
  have zero_left (len : Nat) (c : Word) : (buildField b.toParams).Neighbours len 0 0 c := by
    rw [Field.Neighbours, Field.scale_zero, Field.scale_zero, Nat.add_zero, BitVec.xor_self, BitVec.xor_self]
  induction len generalizing j with
  | zero =>
    match j with
    | 0 => exact zero_left 0 _
    | 1 =>
      show (buildField b.toParams).Neighbours 0 1 1 0
      rw [Field.Neighbours, Field.scale_zero, Field.scale_zero, BitVec.xor_self, BitVec.xor_self]
    | j + 2 => rfl
  | succ len ih =>
    have hsym := (isGenerator_factorProduct b len).symbols
    have hcons := zero_cons_symbols b hsym
    rw [factorProduct_succ]
    cases j with
    | zero => exact zero_left (len + 1) _
    | succ j =>
      rw [List.getD_cons_succ, timesFactor_getD, timesFactor_getD, List.getD_cons_succ]
      exact neighbours_timesFactor (coeff_lt hcons j) (coeff_lt hsym j) (coeff_lt hsym (j + 1)) (ih j) (ih (j + 1))

/-- No coefficient of a product of fewer than N factors is zero. -/
theorem factorProduct_ne_zero {len : Nat} (hlen : len < b.n) {j : Nat} (hj : j ≤ len) :
    ((buildField b.toParams).factorProduct len).getD j 0 ≠ 0 := by
  have hg := isGenerator_factorProduct b len
  induction j with
  | zero => exact hg.constant
  | succ j ih =>
    have ih := ih (by omega)
    intro hzero
    have h := factorProduct_neighbours b len (j + 1)
    rw [Field.Neighbours, hzero, Field.scale_zero, Field.scale_zero, List.getD_cons_succ] at h
    have heq := BitVec.xor_eq_zero_iff.1 (h.symm.trans BitVec.xor_self)
    have := scale_succ_injOn b hlen (by omega : j < b.n) ih (coeff_lt hg.symbols j) heq
    omega

/-- Every coefficient of a block's generator is nonzero. -/
theorem generator_ne_zero : ∀ c ∈ (buildField b.toParams).generator b.nk, c ≠ 0 := by
  have := b.one_le_t
  have := b.two_t_lt_n
  have := b.nk_eq
  intro c hc
  obtain ⟨j, hj, rfl⟩ := List.mem_iff_getElem.1 hc
  rw [← List.getD_eq_getElem _ 0 hj, generator_eq_factorProduct b (by omega)]
  rw [generator_length] at hj
  exact factorProduct_ne_zero b (by omega) (by omega)

/-! ## The generator in exponent form -/

/-- A coefficient in exponent form is UNDEF or the entry of LOG (R136). -/
theorem toExponent_eq (f : Field) (g : Word) :
    f.toExponent g = if g = 0 then undef else f.log.getD g.toNat 0 := by
  rw [Field.toExponent, Field.logOf, BitVec.ofNat_toNat, BitVec.setWidth_eq]

/-- The exponent form of a nonzero symbol is not UNDEF. -/
theorem toExponent_ne_undef {g : Word} (h0 : g ≠ 0) (hg : g.toNat < b.q) : (buildField b.toParams).toExponent g ≠ undef := by
  have hlt := logOf_lt b h0 hg
  have := b.n_succ
  have := b.q_le
  rw [Field.toExponent, if_neg h0]
  intro e
  have e := congrArg BitVec.toNat e
  rw [exponent_toNat b hlt] at e
  have : undef.toNat = 0xFFFFFFFF := rfl
  omega

theorem toExponent_one : (buildField b.toParams).toExponent 1 = 0 := by
  have hlog : (buildField b.toParams).logOf 1 = 0 := logOf_alphaPow b b.n_pos
  rw [Field.toExponent, hlog, if_neg (by decide)]
  rfl

/-- Entry `j` of GEN is coefficient `j` of the generator in exponent form, whatever a lookup beyond the length gives. -/
theorem buildGen_getD {j : Nat} (h : j ≤ b.nk) (d : Word) :
    (buildGen b.toParams).getD j d =
      (buildField b.toParams).toExponent (((buildField b.toParams).generator b.nk).getD j 0) := by
  have hlt : j < ((buildField b.toParams).generator b.nk).length := by rw [generator_length]; omega
  simp only [buildGen, List.getD_eq_getElem?_getD, List.getElem?_map, List.getElem?_eq_getElem hlt]
  rfl

end

end Sys2Proof.Machine

open Sys2Proof Sys2Proof.Machine

/-- Settles O12: EXP holds the powers of alpha, LOG their exponents, and the powers are all the nonzero symbols. -/
theorem initLeavesInverseTables : Obligations.InitLeavesInverseTables := by
  intro s t hs h
  obtain rfl := exec_init_running hs h
  simp only [State.finish_mem, State.buildTables_exp, State.buildTables_log]
  have hlast : alphaPow s.block.toParams s.block.n = 1 := alphaPow_n s.block
  refine ⟨fun i hi => ?_, fun x h0 hx => ?_, ?_, buildLog_length s.block _, ?_, ?_, fun i hi => ?_, powers_perm s.block⟩
  · rw [buildExp_getD s.block (Nat.le_of_lt hi), buildLog_getD s.block hi]
  · obtain ⟨i, hi, rfl⟩ := exists_alphaPow_toNat s.block h0 hx
    rw [buildLog_getD s.block hi, exponent_toNat s.block hi, buildExp_getD s.block (Nat.le_of_lt hi)]
    exact ⟨hi, rfl⟩
  · rw [List.getD_eq_getElem?_getD, buildLog_zero]
    rfl
  · exact buildExp_getD s.block (Nat.zero_le _)
  · rw [buildExp_getD s.block (Nat.le_refl _), hlast]
  · rw [buildExp_getD s.block hi]
    exact alphaPow_ne_zero s.block i

/-- Settles O13: nonzero symbols are powers of alpha, whose exponents add, and multiplying by alpha is linear. -/
theorem fieldMultiplicationLaws : Obligations.FieldMultiplicationLaws := by
  intro b f x y z hx hy hz
  refine ⟨fun hx0 hy0 => ?_, f.mul_comm x y, mul_assoc_symbols b hx hy hz, one_mul_symbol b hx, mul_xor b hx hy hz,
    mul_eq_zero_iff_symbols b hx hy⟩
  rw [f.mul_of_ne_zero hx0 hy0, ← Int.natCast_add, f.pow_natCast_getD]
  rfl

/-- Settles O14: a power depends on its exponent's remainder modulo N only, and a quotient is a power of a difference. -/
theorem fieldPowerAndQuotientLaws : Obligations.FieldPowerAndQuotientLaws := by
  intro b f
  have hn : f.pow b.n = 1 := by rw [pow_natCast, alphaPow_n]
  exact ⟨fun _ => rfl, pow_natCast b 0, hn, buildField_pow_add b, fun _ _ hx hy hy0 => div_mul_cancel_symbol b hx hy hy0⟩

/-- Settles O15: entry by entry GEN is the exponent form of the generator, which is monic with a nonzero constant term. -/
theorem initLeavesTheGeneratorInExponentForm : Obligations.InitLeavesTheGeneratorInExponentForm := by
  intro s t hs h g
  obtain rfl := exec_init_running hs h
  have hg : IsGenerator s.block s.block.nk g := isGenerator_generator s.block
  simp only [State.finish_mem, State.buildTables_gen, State.buildTables_log]
  refine ⟨buildGen_length s.block, fun j hj => ?_, ?_, ?_⟩
  · rw [buildGen_getD s.block hj, toExponent_eq]
    rfl
  · rw [buildGen_getD s.block (Nat.le_refl _), hg.monic, toExponent_one]
  · rw [buildGen_getD s.block (Nat.zero_le _)]
    exact toExponent_ne_undef s.block hg.constant (coeff_lt hg.symbols 0)

/-- Settles O16: the generator is built factor by factor, and each factor adds its root; no coefficient is zero in any block,
for neighbouring ones are nonzero multiples of each other. -/
theorem generatorHasItsRoots : Obligations.GeneratorHasItsRoots := by
  refine ⟨?roots, generator_ne_zero Block.reference, generator_ne_zero Block.toy⟩
  intro b f g
  have hg : IsGenerator b b.nk g := isGenerator_generator b
  refine ⟨hg.length, hg.monic, hg.constant, fun i h1 hi => ?_⟩
  rw [pow_natCast]
  exact hg.roots i h1 hi

end

section
/-! PROOFS. The encoder's word is a multiple of the generator (R150 to R154): its syndromes are the values of its polynomial at the
generator's roots, so SYNDROME and DECODE find them zero. -/

namespace Sys2Proof.Machine

/-! ## Sums, reversed lists and zero polynomials -/

/-- A sum taken from its last term to its first. -/
theorem xorSum_reflect (len : Nat) (g : Nat → Word) : xorSum len g = xorSum len fun j => g (len - 1 - j) := by
  induction len generalizing g with
  | zero => rfl
  | succ len ih =>
    have hshift : xorSum len (fun j => g (j + 1)) = xorSum len fun j => g (len - j) := by
      rw [ih]
      exact xorSum_congr _ _ _ fun j hj => congrArg g (by omega)
    rw [xorSum_succ_left, hshift, xorSum, BitVec.xor_comm, Nat.add_sub_cancel, Nat.sub_self]

/-- A coefficient of the polynomial whose highest coefficient comes first in the list. -/
theorem coeff_reverse {l : List Word} {j : Nat} (h : j < l.length) : coeff l.reverse j = l.getD (l.length - 1 - j) 0 := by
  simp only [coeff, List.getD_eq_getElem?_getD, List.getElem?_reverse h]

/-- A word that two sums share drops out of their sum. -/
theorem xor_cancel_shared (u v w : Word) : (u ^^^ v) ^^^ (u ^^^ w) = v ^^^ w := by
  calc (u ^^^ v) ^^^ (u ^^^ w) = (u ^^^ u) ^^^ (v ^^^ w) := by ac_rfl
    _ = v ^^^ w := by rw [BitVec.xor_self, BitVec.zero_xor]

theorem eval_replicate_zero (f : Field) (len : Nat) (x : Word) : f.eval (List.replicate len 0) x = 0 := by
  induction len with
  | zero => rfl
  | succ len ih =>
    rw [List.replicate_succ, Field.eval, ih, Field.mul_zero]
    rfl

/-! ## One data symbol through the register -/

/-- After one more data symbol the parity is the register's next content, read from its last position (R152). -/
theorem parity_concat (f : Field) (gen : List Word) (nk : Nat) (data : List Word) (d : Word) :
    (f.parity gen nk (data ++ [d])).reverse = f.shiftRegister (gen.take nk) (f.parity gen nk data).reverse d := by
  simp only [Field.parity, List.foldl_concat, List.reverse_reverse]

section
variable (b : Block)

theorem nk_pos : 0 < b.nk := by
  have := b.one_le_t
  rw [b.nk_eq]
  omega

/-- Evaluation of a list whose tail starts at the power `l.length`. -/
theorem eval_append (i : Nat) {l r : List Word} (hl : AllSymbols b.m l) (hr : AllSymbols b.m r) :
    (buildField b.toParams).eval (l ++ r) (alphaPow b.toParams i) =
      (buildField b.toParams).eval l (alphaPow b.toParams i) ^^^
        (buildField b.toParams).mul (alphaPow b.toParams (i * l.length))
          ((buildField b.toParams).eval r (alphaPow b.toParams i)) := by
  have hi := alphaPow_lt b i
  have hv := eval_lt b hr (alphaPow b.toParams i)
  induction l with
  | nil => exact (one_mul_symbol b hv).symm.trans BitVec.zero_xor.symm
  | cons c l ih =>
    have hshift : (buildField b.toParams).mul (alphaPow b.toParams i)
          ((buildField b.toParams).mul (alphaPow b.toParams (i * l.length))
            ((buildField b.toParams).eval r (alphaPow b.toParams i))) =
        (buildField b.toParams).mul (alphaPow b.toParams (i * (c :: l).length))
          ((buildField b.toParams).eval r (alphaPow b.toParams i)) := by
      rw [← mul_assoc_symbols b hi (alphaPow_lt b _) hv, mul_alphaPow, List.length_cons, Nat.mul_succ, Nat.add_comm]
    rw [List.cons_append, Field.eval, Field.eval, ih hl.tail,
      mul_xor b hi (eval_lt b hl.tail _) (Field.mul_lt (buildField_symbols b) _ _), hshift, BitVec.xor_assoc]

/-- A generator coefficient in exponent form injects its product by the feedback `alpha^fe` (R152). -/
theorem inject_toExponent (fe : Nat) {g : Word} (hg : g.toNat < b.q) :
    (buildField b.toParams).inject fe ((buildField b.toParams).toExponent g) = (buildField b.toParams).scale fe g := by
  by_cases h0 : g = 0
  · rw [h0, Field.scale_zero, Field.toExponent, if_pos rfl, Field.inject, if_pos rfl]
  · rw [Field.inject, if_neg (toExponent_ne_undef b h0 hg), Field.toExponent, if_neg h0, exponent_toNat b (logOf_lt b h0 hg),
      Field.scale, if_neg h0]

/-- Below its leading 1 the generator takes the value `alpha^(i*NK)` at its root `alpha^i`. -/
theorem eval_generator_take {i : Nat} (h1 : 1 ≤ i) (hi : i ≤ b.nk) :
    (buildField b.toParams).eval (((buildField b.toParams).generator b.nk).take b.nk) (alphaPow b.toParams i) =
      alphaPow b.toParams (i * b.nk) := by
  have hg := isGenerator_generator b
  generalize (buildField b.toParams).generator b.nk = g at hg
  have hlt : b.nk < g.length := by rw [hg.length]; omega
  have hsplit : g = g.take b.nk ++ [1] := by
    rw [← hg.monic, List.getD_eq_getElem _ _ hlt, List.take_append_getElem, List.take_of_length_le (by rw [hg.length])]
  have hone : (buildField b.toParams).eval [1] (alphaPow b.toParams i) = 1 := by
    show 1 ^^^ (buildField b.toParams).mul _ 0 = 1
    rw [Field.mul_zero]
    rfl
  have hroot := hg.roots i h1 hi
  rw [hsplit, eval_append b i (fun x hx => hg.symbols x (List.mem_of_mem_take hx))
    (List.forall_mem_singleton.2 (one_lt_q b)), hone, Field.mul_comm, one_mul_symbol b (alphaPow_lt b _),
    List.length_take_of_le (Nat.le_of_lt hlt)] at hroot
  exact BitVec.xor_eq_zero_iff.1 hroot

theorem generator_take_symbols : AllSymbols b.m (((buildField b.toParams).generator b.nk).take b.nk) :=
  fun x hx => generator_lt b x (List.mem_of_mem_take hx)

/-- What GEN injects for a feedback exponent is the generator below its leading 1, scaled (R152). -/
theorem map_inject_buildGen (fe : Nat) :
    ((buildGen b.toParams).take b.nk).map ((buildField b.toParams).inject fe) =
      (((buildField b.toParams).generator b.nk).take b.nk).map ((buildField b.toParams).scale fe) := by
  simp only [buildGen, ← List.map_take, List.map_map]
  exact List.map_congr_left fun g hg => inject_toExponent b fe (generator_take_symbols b g hg)

/-- One data symbol `d` through the register `init, c` (R152): at a root of the generator the injected products are worth the
feedback at the power NK, the place beyond the register. -/
theorem eval_shiftRegister {i : Nat} (h1 : 1 ≤ i) (hi : i ≤ b.nk) {init : List Word} {c d : Word}
    (hinit : AllSymbols b.m init) (hc : c.toNat < b.q) (hd : d.toNat < b.q) (hlen : init.length + 1 = b.nk) :
    (buildField b.toParams).eval ((buildField b.toParams).shiftRegister ((buildGen b.toParams).take b.nk) (init ++ [c]) d)
        (alphaPow b.toParams i) =
      (buildField b.toParams).eval (0 :: init) (alphaPow b.toParams i) ^^^
        (buildField b.toParams).mul (alphaPow b.toParams (i * b.nk)) (d ^^^ c) := by
  have hfb : (d ^^^ c).toNat < b.q := xor_lt b.m hd hc
  simp only [Field.shiftRegister, List.getLastD_concat, List.dropLast_concat]
  generalize d ^^^ c = fb at hfb
  by_cases h0 : fb = 0
  · rw [if_pos h0, h0, Field.mul_zero]
    exact BitVec.xor_zero.symm
  · have hpow : alphaPow b.toParams ((buildField b.toParams).logOf fb) = fb :=
      (pow_natCast b _).symm.trans (pow_logOf b h0 hfb)
    have hscaled : AllSymbols b.m ((((buildField b.toParams).generator b.nk).take b.nk).map
        ((buildField b.toParams).scale ((buildField b.toParams).logOf fb))) :=
      List.forall_mem_map.2 fun g _ => Field.scale_lt (buildField_symbols b) _ g
    rw [if_neg h0, map_inject_buildGen, eval_zipWith_gfAdd b (alphaPow_lt b i) (zero_cons_symbols b hinit) hscaled
        (by simp [generator_length, hlen]), eval_map_scale b (alphaPow_lt b i) _ (generator_take_symbols b),
      eval_generator_take b h1 hi, hpow, Field.mul_comm]

/-! ## The encoder's word -/

/-- The register of a data vector of symbols holds NK symbols: all but the last position, and the last one. -/
theorem parity_reverse_eq_concat (data : List Word) :
    ∃ init c, ((buildField b.toParams).parity (buildGen b.toParams) b.nk data).reverse = init ++ [c] ∧
      AllSymbols b.m init ∧ c.toNat < b.q ∧ init.length + 1 = b.nk := by
  have hlen := (buildField b.toParams).parity_length (buildGen b.toParams) b.nk data (nk_pos b) (by rw [buildGen_length]; omega)
  have hsym := Field.parity_lt (buildField_symbols b) (buildGen b.toParams) b.nk data
  obtain hnil | ⟨init, c, e⟩ :=
    List.eq_nil_or_concat ((buildField b.toParams).parity (buildGen b.toParams) b.nk data).reverse
  · rw [List.reverse_eq_nil_iff.1 hnil] at hlen
    exact absurd hlen (Nat.ne_of_lt (nk_pos b))
  · rw [List.concat_eq_append] at e
    have hmem : ∀ x ∈ init ++ [c], x.toNat < 2 ^ b.m := fun x hx => hsym x (List.mem_reverse.1 (e ▸ hx))
    have hlen' := congrArg List.length e
    rw [List.length_reverse, hlen, List.length_append] at hlen'
    exact ⟨init, c, e, fun x hx => hmem x (List.mem_append_left _ hx), hmem c (by simp), hlen'.symm⟩

/-- The register after `d`, with `d` in front of the symbols `taken` before it, is worth `alpha^i` times what stood there. -/
theorem eval_shiftRegister_append {i : Nat} (h1 : 1 ≤ i) (hi : i ≤ b.nk) {init taken : List Word} {c d : Word}
    (hinit : AllSymbols b.m init) (hc : c.toNat < b.q) (hd : d.toNat < b.q) (hlen : init.length + 1 = b.nk)
    (htaken : AllSymbols b.m taken) :
    (buildField b.toParams).eval
        ((buildField b.toParams).shiftRegister ((buildGen b.toParams).take b.nk) (init ++ [c]) d ++ d :: taken)
        (alphaPow b.toParams i) =
      (buildField b.toParams).mul (alphaPow b.toParams i)
        ((buildField b.toParams).eval (init ++ [c] ++ taken) (alphaPow b.toParams i)) := by
  have hreg : AllSymbols b.m (init ++ [c]) := List.forall_mem_append.2 ⟨hinit, List.forall_mem_singleton.2 hc⟩
  have hct : AllSymbols b.m (c :: taken) := List.forall_mem_cons.2 ⟨hc, htaken⟩
  have hdt : AllSymbols b.m (d :: taken) := List.forall_mem_cons.2 ⟨hd, htaken⟩
  have hnext := Field.shiftRegister_lt (buildField_symbols b) ((buildGen b.toParams).take b.nk) _ d hreg
  have hnextLen := (buildField b.toParams).shiftRegister_length ((buildGen b.toParams).take b.nk) (init ++ [c]) d b.nk
    (by omega) (by simp) (by simp [hlen])
  have hbeyond : (d ^^^ c) ^^^ (buildField b.toParams).eval (d :: taken) (alphaPow b.toParams i) =
      (buildField b.toParams).eval (c :: taken) (alphaPow b.toParams i) := xor_cancel_shared d c _
  have hbefore : (buildField b.toParams).eval (0 :: init ++ c :: taken) (alphaPow b.toParams i) =
      (buildField b.toParams).mul (alphaPow b.toParams i)
        ((buildField b.toParams).eval (init ++ [c] ++ taken) (alphaPow b.toParams i)) := by
    rw [List.append_assoc]
    exact BitVec.zero_xor
  rw [eval_append b i hnext hdt, hnextLen, eval_shiftRegister b h1 hi hinit hc hd hlen, BitVec.xor_assoc,
    ← mul_xor b (alphaPow_lt b _) (xor_lt b.m hd hc) (eval_lt b hdt _), hbeyond, ← hbefore,
    eval_append b i (zero_cons_symbols b hinit) hct, List.length_cons, hlen]

/-- The polynomial of the encoder's word is zero at the generator's roots (R154), whatever number of symbols was taken. -/
theorem eval_encoded {i : Nat} (h1 : 1 ≤ i) (hi : i ≤ b.nk) {data : List Word} (hdata : AllSymbols b.m data) :
    (buildField b.toParams).eval
      (data ++ (buildField b.toParams).parity (buildGen b.toParams) b.nk data).reverse (alphaPow b.toParams i) = 0 := by
  rw [List.reverse_append]
  induction data using List.reverseRecOn with
  | nil =>
    rw [Field.parity, List.foldl_nil, List.reverse_reverse, List.reverse_nil, List.append_nil]
    exact eval_replicate_zero _ b.nk _
  | append_singleton data d ih =>
    obtain ⟨hsym, hd⟩ := List.forall_mem_append.1 hdata
    obtain ⟨init, c, hreg, hinit, hc, hlen⟩ := parity_reverse_eq_concat b data
    have ih := ih hsym
    have htaken : AllSymbols b.m data.reverse := fun x hx => hsym x (List.mem_reverse.1 hx)
    rw [hreg] at ih
    rw [parity_concat, hreg, List.reverse_concat,
      eval_shiftRegister_append b h1 hi hinit hc (hd d (by simp)) hlen htaken, ih, Field.mul_zero]

/-- A syndrome is the value of the word's polynomial at a power of alpha: the entry `s` is the coefficient `N-1-s` (R45, R172). -/
theorem syndrome_eq_eval {rx : List Word} (hlen : rx.length = b.n) (hrx : AllSymbols b.m rx) (i : Nat) :
    (buildField b.toParams).syndrome rx i = (buildField b.toParams).eval rx.reverse (alphaPow b.toParams i) := by
  rw [eval_alphaPow b (fun x hx => hrx x (List.mem_reverse.1 hx)), List.length_reverse, hlen, Field.syndrome, xorSum_reflect]
  refine xorSum_congr _ _ _ fun j (hj : j < b.n) => ?_
  have hback : b.n - 1 - (b.n - 1 - j) = j := by omega
  rw [coeff_reverse (by omega), pow_natCast, buildField_n, hlen, hback]

/-- A codeword of the encoder has only zero syndromes (R154). -/
theorem syndromes_encoded {data : List Word} (hlen : data.length = b.k) (hdata : AllSymbols b.m data) :
    (buildField b.toParams).syndromes b.nk
      (data ++ (buildField b.toParams).parity (buildGen b.toParams) b.nk data) = List.replicate b.nk 0 := by
  have hparity := (buildField b.toParams).parity_length (buildGen b.toParams) b.nk data (nk_pos b) (by simp)
  have hword : (data ++ (buildField b.toParams).parity (buildGen b.toParams) b.nk data).length = b.n := by
    rw [List.length_append, hlen, hparity, b.nk_add_k]
  have hsym : AllSymbols b.m (data ++ (buildField b.toParams).parity (buildGen b.toParams) b.nk data) :=
    List.forall_mem_append.2 ⟨hdata, Field.parity_lt (buildField_symbols b) _ _ _⟩
  refine List.eq_replicate_iff.2 ⟨Field.syndromes_length _ _ _, fun x hx => ?_⟩
  obtain ⟨j, hj, rfl⟩ := List.mem_map.1 hx
  rw [syndrome_eq_eval b hword hsym]
  exact eval_encoded b (by omega) (List.mem_range.1 hj) hdata

end

/-! ## The two commands on a word with zero syndromes -/

/-- Over built tables the state's arithmetic is that of the block's own tables (R140). -/
theorem State.TablesBuilt.field_eq {s : State} (h : s.TablesBuilt) : s.field = buildField s.block.toParams := by
  obtain ⟨hexp, hlog, -⟩ := h
  rw [State.field, hexp, hlog]
  rfl

theorem allZero_replicate (len : Nat) : allZero (List.replicate len 0) = true := by simp [allZero]

/-- With every syndrome zero DECODE takes the no-error path (R174). -/
theorem decodeWord_of_zero_syndromes {f : Field} {nk : Nat} {rx : List Word} (t : Nat)
    (h : f.syndromes nk rx = List.replicate nk 0) :
    f.decodeWord nk t rx =
      { synd := List.replicate nk 0, outcome := .noError, l := 0, count := 0, steps := 0,
        errpos := List.replicate t 0, errval := List.replicate t 0, out := rx } := by
  rw [Field.decodeWord, h, if_pos (allZero_replicate nk)]

/-- The write set of SYNDROME when every RX entry holds a value (R201). -/
theorem syndromeRx_of_values {s : State} {rx : List Word} (h : s.mem.rx = rx.map some) :
    s.syndromeRx = s.storeSyndromes ((s.field.syndromes s.block.nk rx).map some) (allZero (s.field.syndromes s.block.nk rx)) := by
  rw [State.syndromeRx, h, allValues_map_some]

/-- The write set of DECODE when every RX entry holds a value (R200). -/
theorem decodeRx_of_values {s : State} {rx : List Word} (h : s.mem.rx = rx.map some) :
    s.decodeRx = s.storeDecoded (s.field.decodeWord s.block.nk s.block.t rx) := by
  rw [State.decodeRx, h, allValues_map_some]

end Sys2Proof.Machine

open Sys2Proof Sys2Proof.Machine

/-- Settles O22: RX is a codeword, whose syndromes are zero (`syndromes_encoded`), and DECODE then takes the no-error path. -/
theorem encodedWordDecodesToItself : Obligations.EncodedWordDecodesToItself := by
  intro s data htables hlen hdata hrx
  have hzero : s.field.syndromes s.block.nk (data ++ s.field.parity s.mem.gen s.block.nk data) =
      List.replicate s.block.nk 0 := by
    have hfield := htables.field_eq
    obtain ⟨-, -, hgen⟩ := htables
    rw [hfield, hgen]
    exact syndromes_encoded s.block hlen hdata
  refine ⟨fun hs => ?syndrome, fun hs => ?decode⟩
  case syndrome =>
    refine ⟨_, exec_running .syndrome hs, ?_⟩
    rw [completion, syndromeRx_of_values hrx, hzero]
    exact ⟨List.map_replicate, allZero_replicate _⟩
  case decode =>
    refine ⟨_, exec_running .decode hs, ?_⟩
    rw [completion, decodeRx_of_values hrx, decodeWord_of_zero_syndromes _ hzero]
    exact ⟨List.map_replicate, allZero_replicate _, rfl, hrx.symm⟩

end

section
/-! PROOFS. The decoder's parts (R172 to R189): an all-zero word has zero syndromes, which row a Berlekamp-Massey step selects and
what every row keeps, and the exponents the root search lists. -/

namespace Sys2Proof.Machine

/-! ## The syndromes of the all-zero word -/

theorem Field.syndrome_replicate_zero (f : Field) (len i : Nat) : f.syndrome (List.replicate len 0) i = 0 := by
  refine xorSum_zero _ _ fun s _ => ?_
  rw [List.getD_eq_getElem?_getD, List.getElem?_getD_replicate_default_eq, Field.zero_mul]

/-! ## The root search -/

theorem Field.mem_roots {f : Field} {loc : Locator} {i : Nat} :
    i ∈ f.roots loc ↔ 1 ≤ i ∧ i ≤ f.n ∧ f.locatorValue loc i = 0 := by
  rw [Field.roots, List.mem_filter, List.mem_range'_1, beq_iff_eq, Nat.add_comm 1, Nat.lt_succ_iff, and_assoc]

theorem Field.roots_ascending (f : Field) (loc : Locator) : (f.roots loc).Pairwise (· < ·) :=
  List.Pairwise.filter _ List.pairwise_lt_range'

/-- The position `N-i` of the root `alpha^i` has the buffer index `i-1` (R45, R189). -/
theorem Field.rootIndex_eq (f : Field) {i : Nat} (h1 : 1 ≤ i) (hn : i ≤ f.n) : f.rootIndex i = i - 1 := by
  rw [Field.rootIndex]
  omega

/-! ## Row selection -/

/-- Among the rows `j .. u-1` with a nonzero discrepancy, `q` is the latest of those with the largest step-minus-degree. -/
structure LatestMaximum (rows : List BmRow) (j u q : Nat) : Prop where
  lt : q < u
  nonzero : (rowAt rows q).d ≠ 0
  ul_le : ∀ k < u, j ≤ k → (rowAt rows k).d ≠ 0 → (rowAt rows k).ul ≤ (rowAt rows q).ul
  ul_lt : ∀ k < u, q < k → (rowAt rows k).d ≠ 0 → (rowAt rows k).ul < (rowAt rows q).ul

/-- The `while` loop of R179 stops at the latest row with a nonzero discrepancy: the first maximum of the scan back. -/
theorem latestMaximum_latestNonzero {rows : List BmRow} (h0 : (rowAt rows 0).d ≠ 0) (q : Nat) :
    LatestMaximum rows (latestNonzero rows q) (q + 1) (latestNonzero rows q) := by
  induction q with
  | zero =>
    refine ⟨Nat.one_pos, h0, fun k hk _ _ => ?_, fun k hk (hlt : 0 < k) _ => by omega⟩
    rw [Nat.lt_one_iff.1 hk]
    rfl
  | succ q ih =>
    rw [latestNonzero]
    split
    next hzero =>
      have hbelow : ∀ k < q + 2, (rowAt rows k).d ≠ 0 → k < q + 1 := fun k hk hd =>
        Nat.lt_of_le_of_ne (Nat.le_of_lt_succ hk) fun e => hd (e ▸ hzero)
      exact ⟨Nat.lt_succ_of_lt ih.lt, ih.nonzero, fun k hk hle hd => ih.ul_le k (hbelow k hk hd) hle hd,
        fun k hk hlt hd => ih.ul_lt k (hbelow k hk hd) hlt hd⟩
    next hd =>
      refine ⟨Nat.lt_succ_self _, hd, fun k hk hle _ => ?_, fun k hk hlt _ => by omega⟩
      rw [Nat.le_antisymm (Nat.le_of_lt_succ hk) hle]

/-- The `repeat` loop of R179 takes one more row into the scan with each turn. -/
theorem latestMaximum_improveRow {rows : List BmRow} {u q : Nat} (j : Nat) (hj : j ≤ q) (h : LatestMaximum rows j u q) :
    LatestMaximum rows 0 u (improveRow rows q j) := by
  induction j generalizing q with
  | zero => exact h
  | succ j ih =>
    obtain ⟨hlt, hnz, hle, hafter⟩ := h
    rw [improveRow]
    split
    next hbetter =>
      obtain ⟨hd, hul⟩ := hbetter
      have hsmaller : ∀ k < u, j < k → (rowAt rows k).d ≠ 0 → (rowAt rows k).ul < (rowAt rows j).ul :=
        fun k hk hjk hkd => Int.lt_of_le_of_lt (hle k hk hjk hkd) hul
      refine ih (Nat.le_refl j) ⟨by omega, hd, fun k hk hjk hkd => ?_, hsmaller⟩
      obtain rfl | hjk := Nat.eq_or_lt_of_le hjk
      · exact Int.le_refl _
      · exact Int.le_of_lt (hsmaller k hk hjk hkd)
    next hworse =>
      refine ih (Nat.le_of_succ_le hj) ⟨hlt, hnz, fun k hk hjk hkd => ?_, hafter⟩
      obtain rfl | hjk := Nat.eq_or_lt_of_le hjk
      · exact Int.not_lt.1 fun hul => hworse ⟨hkd, hul⟩
      · exact hle k hk hjk hkd

theorem latestMaximum_selectRow {rows : List BmRow} {u : Nat} (h0 : (rowAt rows 0).d ≠ 0) (hu : 1 ≤ u) :
    LatestMaximum rows 0 u (selectRow rows u) := by
  have hlast := latestMaximum_latestNonzero h0 (u - 1)
  rw [Nat.sub_add_cancel hu] at hlast
  exact latestMaximum_improveRow _ (Nat.le_refl _) hlast

/-! ## The rows of the iteration -/

theorem rowAt_append_of_lt {rows : List BmRow} {r : Nat} (row : BmRow) (h : r < rows.length) :
    rowAt (rows ++ [row]) r = rowAt rows r :=
  List.getD_append _ _ _ _ h

@[simp] theorem rowAt_append_length (rows : List BmRow) (row : BmRow) : rowAt (rows ++ [row]) rows.length = row := by
  simp [rowAt, List.getD_eq_getElem?_getD]

/-- What R186 says of one row: its locator has `NK+1` coefficients, the constant term 1, and zeros above the row's degree. -/
structure BmRow.Wf (nk : Nat) (row : BmRow) : Prop where
  sigma_length : row.sigma.length = nk + 1
  constant : coeff row.sigma 0 = 1
  above : ∀ i, row.l < i → coeff row.sigma i = 0

/-- What the iteration keeps of the rows written so far (R186); row 0 has a nonzero discrepancy, so the selection finds a row. -/
structure RowsWf (nk : Nat) (rows : List BmRow) : Prop where
  start : (rowAt rows 0).d ≠ 0
  two_le_length : 2 ≤ rows.length
  row : ∀ r < rows.length, (rowAt rows r).Wf nk
  degree_le : ∀ r < rows.length, (rowAt rows r).l ≤ r - 1
  degree_mono : ∀ r, r + 1 < rows.length → (rowAt rows r).l ≤ (rowAt rows (r + 1)).l

theorem coeff_one_cons_replicate (nk : Nat) : ∀ i, 0 < i → coeff (1 :: List.replicate nk 0) i = 0
  | _ + 1, _ => List.getElem?_getD_replicate_default_eq ..

/-- The two start rows have the locator 1, of degree 0 (R177). -/
theorem rowsWf_startRows (synd : List Word) (nk : Nat) : RowsWf nk (startRows synd nk) := by
  have hrow : ∀ (d : Word) (ul : Int), BmRow.Wf nk { d := d, sigma := 1 :: List.replicate nk 0, l := 0, ul := ul } :=
    fun d ul => ⟨by simp, rfl, coeff_one_cons_replicate nk⟩
  have hzero : ∀ r < (startRows synd nk).length, (rowAt (startRows synd nk) r).Wf nk ∧ (rowAt (startRows synd nk) r).l = 0
    | 0, _ => ⟨hrow _ _, rfl⟩
    | 1, _ => ⟨hrow _ _, rfl⟩
  exact ⟨show (1 : Word) ≠ 0 by decide, Nat.le_refl 2, fun r hr => (hzero r hr).1,
    fun r hr => (hzero r hr).2 ▸ Nat.zero_le _, fun r hr => (hzero r (Nat.lt_of_succ_lt hr)).2 ▸ Nat.zero_le _⟩

/-- Coefficient `i` of the new locator (R181); `u - q` is the shift. -/
theorem coeff_newLocator (f : Field) {nk i : Nat} (u q : Nat) (rowU rowQ : BmRow) (hi : i ≤ nk) :
    coeff (f.newLocator nk u q rowU rowQ) i =
      (if u - q ≤ i ∧ i - (u - q) ≤ rowQ.l then
        f.mul (f.div rowU.d rowQ.d) (coeff rowQ.sigma (i - (u - q))) else 0) ^^^
      (if i ≤ rowU.l then coeff rowU.sigma i else 0) := by
  have hlt : i < nk + 1 := Nat.lt_succ_of_le hi
  simp [coeff, Field.newLocator, List.getD_eq_getElem?_getD, hlt]

/-- A row before step `u` shifts by at least 1, so the constant term stays, and the sum's degree is at most the larger one (R181,
R182). -/
theorem newLocator_wf (f : Field) {nk u q : Nat} {rowU rowQ row : BmRow} (hU : rowU.Wf nk) (hq : q < u)
    (hsigma : row.sigma = f.newLocator nk u q rowU rowQ) (hl : row.l = max rowU.l (rowQ.l + u - q)) : row.Wf nk := by
  refine ⟨by simp [hsigma, Field.newLocator], ?_, fun i hi => ?_⟩
  · have hshift : ¬ (u - q ≤ 0 ∧ 0 - (u - q) ≤ rowQ.l) := by omega
    rw [hsigma, coeff_newLocator f u q rowU rowQ (Nat.zero_le nk), if_neg hshift, if_pos (Nat.zero_le _), hU.constant]
    rfl
  · by_cases hnk : i ≤ nk
    · have hshift : ¬ (u - q ≤ i ∧ i - (u - q) ≤ rowQ.l) := by omega
      have hdegree : ¬ i ≤ rowU.l := by omega
      rw [hsigma, coeff_newLocator f u q rowU rowQ hnk, if_neg hshift, if_neg hdegree]
      rfl
    · rw [hsigma]
      exact List.getD_eq_default _ _ (by simp [Field.newLocator]; omega)

/-- Step `u` writes a well-formed row whose degree is at least the degree of row u and at most `u` (R186). -/
theorem bmStep_wf (f : Field) {nk u : Nat} (synd : List Word) {rows : List BmRow} (h : RowsWf nk rows)
    (hlen : rows.length = u + 1) :
    (f.bmStep nk synd rows u).Wf nk ∧ (rowAt rows u).l ≤ (f.bmStep nk synd rows u).l ∧ (f.bmStep nk synd rows u).l ≤ u := by
  obtain ⟨hstart, htwo, hrow, hdegree, -⟩ := h
  have hq := (latestMaximum_selectRow hstart (u := u) (by omega)).lt
  have hU := hrow u (by omega)
  have hlU := hdegree u (by omega)
  have hlQ := hdegree (selectRow rows u) (by omega)
  by_cases hd : (rowAt rows u).d = 0
  · have hsigma : (f.bmStep nk synd rows u).sigma = (rowAt rows u).sigma := if_pos hd
    have hl : (f.bmStep nk synd rows u).l = (rowAt rows u).l := if_pos hd
    exact ⟨⟨hsigma ▸ hU.sigma_length, hsigma ▸ hU.constant, hsigma ▸ hl ▸ hU.above⟩, by omega, by omega⟩
  · have hl : (f.bmStep nk synd rows u).l = max (rowAt rows u).l ((rowAt rows (selectRow rows u)).l + u - selectRow rows u) :=
      if_neg hd
    exact ⟨newLocator_wf f hU hq (if_neg hd) hl, by omega, by omega⟩

theorem rowsWf_append_bmStep (f : Field) {nk u : Nat} (synd : List Word) {rows : List BmRow} (h : RowsWf nk rows)
    (hlen : rows.length = u + 1) : RowsWf nk (rows ++ [f.bmStep nk synd rows u]) := by
  obtain ⟨hwf, hmono, hle⟩ := bmStep_wf f synd h hlen
  have hnew := rowAt_append_length rows (f.bmStep nk synd rows u)
  have hold : ∀ r < rows.length, rowAt (rows ++ [f.bmStep nk synd rows u]) r = rowAt rows r := fun r => rowAt_append_of_lt _
  have hcases : ∀ r < (rows ++ [f.bmStep nk synd rows u]).length, r < rows.length ∨ r = rows.length := fun r hr => by
    simp only [List.length_append, List.length_singleton] at hr
    omega
  obtain ⟨hstart, htwo, hrow, hdegree, hdmono⟩ := h
  refine ⟨?start, ?length, fun r hr => ?row, fun r hr => ?degree, fun r hr => ?mono⟩
  case start => rwa [hold 0 (by omega)]
  case length => simp; omega
  case row =>
    obtain hr | rfl := hcases r hr
    · rw [hold r hr]; exact hrow r hr
    · rw [hnew]; exact hwf
  case degree =>
    obtain hr | rfl := hcases r hr
    · rw [hold r hr]; exact hdegree r hr
    · rw [hnew]; omega
  case mono =>
    obtain hr | hlast := hcases (r + 1) hr
    · rw [hold r (by omega), hold (r + 1) hr]; exact hdmono r hr
    · obtain rfl : r = u := by omega
      rw [hold r (by omega), hlast, hnew]; exact hmono

/-- The iteration keeps R186's invariants and writes at most one row for each step allowed (R184). -/
theorem bmLoop_wf (f : Field) {nk : Nat} (t : Nat) (synd : List Word) (fuel : Nat) {u : Nat} {rows : List BmRow}
    (h : RowsWf nk rows) (hlen : rows.length = u + 1) :
    RowsWf nk (f.bmLoop nk t synd fuel rows u) ∧ (f.bmLoop nk t synd fuel rows u).length ≤ u + 1 + fuel := by
  induction fuel generalizing u rows with
  | zero => exact ⟨h, Nat.le_of_eq hlen⟩
  | succ fuel ih =>
    have hnext := rowsWf_append_bmStep f synd h hlen
    have hlenNext : (rows ++ [f.bmStep nk synd rows u]).length = u + 1 + 1 := by simp [hlen]
    simp only [Field.bmLoop]
    split
    · obtain ⟨hwf, hle⟩ := ih hnext hlenNext
      exact ⟨hwf, by omega⟩
    · exact ⟨hnext, by omega⟩

theorem bmRows_wf (f : Field) (nk t : Nat) (synd : List Word) :
    RowsWf nk (f.bmLoop nk t synd nk (startRows synd nk) 1) ∧
      (f.bmLoop nk t synd nk (startRows synd nk) 1).length ≤ nk + 2 := by
  obtain ⟨hwf, hle⟩ := bmLoop_wf f t synd nk (u := 1) (rowsWf_startRows synd nk) rfl
  exact ⟨hwf, by omega⟩

/-- The final degree is at most NK (R186): at most NK steps run. -/
theorem berlekampMassey_l_le (f : Field) (nk t : Nat) (synd : List Word) : (f.berlekampMassey nk t synd).l ≤ nk := by
  obtain ⟨hwf, hle⟩ := bmRows_wf f nk t synd
  have htwo := hwf.two_le_length
  have hlast := hwf.degree_le _ (Nat.sub_lt (by omega) Nat.one_pos)
  exact hlast.trans (by omega)

end Sys2Proof.Machine

open Sys2Proof Sys2Proof.Machine

/-- Settles O28: the syndromes are then NK zeros, and DECODE takes the no-error path; a product by a zero entry is zero. -/
theorem zeroSyndromesGiveNoError : Obligations.ZeroSyndromesGiveNoError := by
  refine ⟨fun f nk t rx h => ?_, fun f nk len => ?_⟩
  · exact decodeWord_of_zero_syndromes t (List.eq_replicate_iff.2 ⟨f.syndromes_length nk rx, h⟩)
  · refine List.eq_replicate_iff.2 ⟨f.syndromes_length nk _, fun x hx => ?_⟩
    obtain ⟨j, -, rfl⟩ := List.mem_map.1 hx
    exact f.syndrome_replicate_zero len _

/-- Settles O30: the start rows meet R186's invariants and every step keeps them (`bmLoop_wf`). -/
theorem berlekampMasseyRowInvariants : Obligations.BerlekampMasseyRowInvariants := by
  intro f nk t synd rows
  obtain ⟨⟨-, -, hrow, hdegree, hmono⟩, -⟩ := bmRows_wf f nk t synd
  have hstep : ∀ u, u + 1 < rows.length → (rowAt rows (u + 1)).l ≤ u := fun u hu => hdegree (u + 1) hu
  refine ⟨fun r hr => ⟨(hrow r hr).constant, (hrow r hr).above⟩, hmono, fun u _ hu => hstep u hu,
    berlekampMassey_l_le f nk t synd, fun r hr => (hrow r hr).sigma_length, fun u j _ hu hj => ?_⟩
  have hle := hstep u hu
  omega

/-- Settles O31: the selection starts at the latest row with a nonzero discrepancy and scans back to row 0, keeping the latest
maximum of the rows seen. -/
theorem selectedRowIsTheLatestMaximum : Obligations.SelectedRowIsTheLatestMaximum := by
  intro rows u hu h0 q
  obtain ⟨hlt, hnz, hle, hafter⟩ := latestMaximum_selectRow h0 hu
  exact ⟨hlt, hnz, fun j hj => hle j hj (Nat.zero_le j), hafter⟩

/-- Settles O32: the search runs over the exponents 1 to N in ascending order and keeps those at which the locator is zero. -/
theorem rootsAscendAndMarkTheirIndex : Obligations.RootsAscendAndMarkTheirIndex := by
  refine fun f loc => ⟨fun i => Field.mem_roots, f.roots_ascending loc, fun i hi => ?_⟩
  obtain ⟨h1, hn, -⟩ := Field.mem_roots.1 hi
  exact f.rootIndex_eq h1 hn

end

section
/-! PROOFS. The two immediate commands (R225, R226): a word with a reserved bit set is no command, a pending command is neither of
the two, what a command leaves of the command error, and the bit of READY in STATUS. -/

namespace Sys2Proof.Machine

/-- A word with a reserved bit set is illegal, whatever its opcode (R101, R103). -/
theorem decode_of_reservedField_ne_zero {w : Word} (h : reservedField w ≠ 0) : decode w = .error .reservedBits := by
  rw [decode, if_neg h]

/-- NOP is immediate: the sequencer never runs it (R225). -/
theorem LongOp.instr_ne_nop (op : LongOp) : op.instr ≠ .nop := by
  cases op <;> decide

/-- CLRERR is immediate: the sequencer never runs it (R226). -/
theorem LongOp.instr_ne_clrerr (op : LongOp) : op.instr ≠ .clrerr := by
  cases op <;> decide

/-- Of the registers a core step writes READY and RESULT at most, before BUSY falls (R221). -/
theorem completion_regs (op : LongOp) (s : State) :
    ∃ ready result, (completion op s).regs = { s.regs with ready := ready, result := result } := by
  cases op with
  | init => exact ⟨_, _, rfl⟩
  | encode => rw [completion, State.encodeData]; split <;> exact ⟨_, _, rfl⟩
  | decode => rw [completion, State.decodeRx]; split <;> exact ⟨_, _, rfl⟩
  | syndrome => rw [completion, State.syndromeRx]; split <;> exact ⟨_, _, rfl⟩

theorem completion_cmdErr (op : LongOp) (s : State) : (completion op s).regs.cmdErr = s.regs.cmdErr := by
  obtain ⟨ready, result, h⟩ := completion_regs op s
  rw [h]

/-- Accepting any command but CLRERR leaves CMD_ERR (R224, R226). -/
theorem accepted_cmdErr {i : Instr} (hi : i ≠ .clrerr) (s : State) : (accepted i s).regs.cmdErr = s.regs.cmdErr := by
  cases i with
  | clrerr => exact absurd rfl hi
  | nop | init | encode | decode | syndrome => rfl

/-- No command but CLRERR clears CMD_ERR: acceptance and completion leave it, a refusal sets it (R226, R241). -/
theorem exec_keeps_cmdErr {i : Instr} {s t : State} (hi : i ≠ .clrerr) (h : exec i s = .next t)
    (hs : s.regs.cmdErr = true) : t.regs.cmdErr = true := by
  obtain ⟨-, rfl⟩ | ⟨op, -, -, rfl⟩ | ⟨op, -, -, rfl⟩ := exec_cases h
  · rw [accepted_cmdErr hi, hs]
  · rw [State.finish_cmdErr, completion_cmdErr, hs]
  · rfl

/-- READY is bit 1 of STATUS (R37). -/
theorem Regs.statusWord_getLsbD_one (r : Regs) : r.statusWord.getLsbD 1 = r.ready := by
  simp only [Regs.statusWord, bit, BitVec.getLsbD_append]
  simp

/-- STATUS of an idle block right after CLRERR: LASTCMD is CLRERR, READY is as before, every other field is zero (R37, R226). -/
theorem statusWord_accepted_clrerr {s : State} (hs : s.regs.seq = .idle) : (accepted .clrerr s).regs.statusWord =
    0#20 ++ opcode .clrerr ++ ErrCause.code .noError ++ 0#1 ++ bit false ++ bit s.regs.ready ++ bit false := by
  have hbusy : (accepted .clrerr s).regs.busy = false := (Regs.not_busy_iff _).2 hs
  rw [Regs.statusWord, hbusy]
  rfl

end Sys2Proof.Machine

open Sys2Proof Sys2Proof.Machine

/-- Settles O7: NOP is accepted on an idle block and refused on a busy one, for the sequencer never runs it. -/
theorem nopOnlyRecordsItself : Obligations.NopOnlyRecordsItself := by
  refine ⟨by decide, fun w _ hrsv => ⟨_, decode_of_reservedField_ne_zero hrsv⟩, fun s hs => ?idle, fun s op hs => ?busy⟩
  case idle => exact exec_idle .nop hs
  case busy => exact exec_refused_while_busy .nop hs op.instr_ne_nop

/-- Settles O8: CLRERR is accepted on an idle block and refused on a busy one; no other command clears the flag
(`exec_keeps_cmdErr`). In the worked example STATUS = 0x216 has the bit of READY set, and CLRERR leaves READY as it is. -/
theorem clrerrClearsTheCommandError : Obligations.ClrerrClearsTheCommandError := by
  refine ⟨by decide, fun i s t hi h hs => exec_keeps_cmdErr hi h hs, fun s rest => rfl, fun s hs hstatus => ?status,
    fun s hs => ?idle, fun s op hs => ?busy⟩
  case status =>
    have hready : s.regs.ready = true := by rw [← Regs.statusWord_getLsbD_one, hstatus]; decide
    refine ⟨_, exec_idle .clrerr hs, ?_⟩
    rw [statusWord_accepted_clrerr hs, hready]
    decide
  case idle => exact exec_idle .clrerr hs
  case busy => exact exec_refused_while_busy .clrerr hs op.instr_ne_clrerr

end

section
/-! PROOFS. The exceptions of the port (R242 to R245): which words are illegal, what a CMD write and an illegal access do at the
host's turn, and that a core step depends on no register but RESULT and READY. -/

namespace Sys2Proof.Machine

/-! ## Illegal words -/

/-- The opcodes 6 to 15 are reserved (R103). -/
theorem decode_of_reserved_opcode {w : Word} (hrsv : reservedField w = 0) (hop : 6 ≤ (opField w).toNat) :
    decode w = .error .reservedOpcode := by
  rw [decode, if_pos hrsv]
  split
  case h_7 => rfl
  all_goals omega

/-- A word with a reserved bit set or a reserved opcode is no command (R101, R103). -/
theorem exists_decode_error {w : Word} (h : reservedField w ≠ 0 ∨ 6 ≤ (opField w).toNat) : ∃ e, decode w = .error e := by
  by_cases hrsv : reservedField w = 0
  · exact ⟨_, decode_of_reserved_opcode hrsv (h.resolve_left (absurd hrsv))⟩
  · exact ⟨_, decode_of_reservedField_ne_zero hrsv⟩

section
variable {s t : State}

/-! ## One transaction at the host's turn -/

/-- An aligned 32-bit write at the offset of CMD is a CMD write (R224). -/
theorem step_writeCmd {w : Word} {rest : List Input} (hm : s.coreMoves = false)
    (hi : s.env.inputs = .write 0x000C 4 w :: rest) : step s = writeCmd w (s.takeInput rest).acknowledge := by
  rw [step_host hm hi]
  exact hostWrite_cmd w rfl rfl

theorem legalAccess_eq_false {a : Offset} {size : Nat} (h : size ≠ 4 ∨ a.toNat % 4 ≠ 0) : legalAccess a size = false := by
  rw [← Bool.not_eq_true, legalAccess_iff]
  omega

theorem hostRead_illegal {a : Offset} {size : Nat} (h : legalAccess a size = false) : s.hostRead a size = s.busError := by
  rw [State.hostRead, h]
  rfl

/-- An illegal access, a read or a write, is a bus error whatever it addresses (R245, R249). -/
theorem step_illegalAccess {a : Offset} {size : Nat} {w : Word} {rest : List Input} (hm : s.coreMoves = false)
    (hi : s.env.inputs = .read a size :: rest ∨ s.env.inputs = .write a size w :: rest)
    (h : legalAccess a size = false) : step s = .next (s.takeInput rest).busError := by
  obtain hi | hi := hi
  · rw [step_host hm hi, hostStep, hostRead_illegal h]
  · rw [step_host hm hi, hostStep, hostWrite_illegal w h]

/-- A first host fault stops the checked step (R43, R73, R245). -/
theorem checkedStep_fault {f : Fault} (h : step s = .next t) (hf : t.env.hostFault = some f) : checkedStep s = .fault f := by
  simp only [checkedStep, h, hf]

/-- While a command is pending, a write to an entry of DATA or RX raises WRITE_WHILE_BUSY and stores nothing (R244). -/
theorem hostStore_input_busy (w : Word) (slot : Nat) {buf : Buf} (hbuf : buf = .data ∨ buf = .rx) {op : LongOp}
    (h : s.regs.seq = .busy op) : s.hostStore w (.entry buf slot) = s.raiseCmdError .writeWhileBusy := by
  obtain rfl | rfl := hbuf
  · exact writeInput_busy (·.storeData slot w) h
  · exact writeInput_busy (·.storeRx slot w) h

/-! ## What a core step depends on -/

theorem AllHold.exists_values {l : List Entry} (h : AllHold l) : ∃ ws : List Word, l = ws.map some := by
  cases hv : allValues l with
  | none => exact absurd rfl (h none ((allValues_eq_none_iff l).1 hv))
  | some ws => exact ⟨ws, allValues_eq_some hv⟩

/-- The write set of ENCODE when every DATA entry holds a value (R152). -/
theorem encodeData_of_values {data : List Word} (h : s.mem.data = data.map some) :
    s.encodeData = { s with mem := { s.mem with parity := (s.field.parity s.mem.gen s.block.nk data).map some } } := by
  rw [State.encodeData, h, allValues_map_some]

theorem State.field_congr (hb : t.block = s.block) (hmem : t.mem = s.mem) : t.field = s.field := by
  rw [State.field, State.field, hb, hmem]

/-- Where the entries a command reads hold values, its write set is a function of the parameters, the buffers and tables, RESULT and
READY: no other register and nothing outside the block enters it (R104). -/
theorem completion_congr (op : LongOp) (hb : t.block = s.block) (hmem : t.mem = s.mem)
    (hres : t.regs.result = s.regs.result) (hrdy : t.regs.ready = s.regs.ready) (hsrc : AllHold (op.source s.mem)) :
    (completion op t).mem = (completion op s).mem ∧
    (completion op t).regs.result = (completion op s).regs.result ∧
    (completion op t).regs.ready = (completion op s).regs.ready := by
  have hf := State.field_congr hb hmem
  obtain ⟨ws, hs⟩ := hsrc.exists_values
  cases op with
  | init => simp [completion, State.buildTables, hb, hmem, hres]
  | encode =>
    have ht : t.mem.data = ws.map some := hmem ▸ hs
    simp [completion, encodeData_of_values hs, encodeData_of_values ht, hb, hmem, hf, hres, hrdy]
  | decode =>
    have ht : t.mem.rx = ws.map some := hmem ▸ hs
    simp [completion, decodeRx_of_values hs, decodeRx_of_values ht, State.storeDecoded, hb, hmem, hf, hrdy]
  | syndrome =>
    have ht : t.mem.rx = ws.map some := hmem ▸ hs
    simp [completion, syndromeRx_of_values hs, syndromeRx_of_values ht, State.storeSyndromes, hb, hmem, hf, hres, hrdy]

end

end Sys2Proof.Machine

open Sys2Proof Sys2Proof.Machine

/-- Settles O37: the word decodes to an error, and the only effect of such a CMD write on an idle block is the raised error. -/
theorem illegalWordRaisesIllegalCmd : Obligations.IllegalWordRaisesIllegalCmd := by
  intro s w rest hs hi hw
  obtain ⟨e, he⟩ := exists_decode_error hw
  have hstep := step_writeCmd (coreMoves_of_idle hs) hi
  rw [writeCmd_illegal (s := (s.takeInput rest).acknowledge) hs he] at hstep
  exact ⟨_, hstep, rfl, rfl, rfl⟩

/-- Settles O38: the refusal touches CMD_ERR and ERRCAUSE alone, and the pending core step depends on neither
(`completion_congr`). -/
theorem cmdWriteWhileBusyIsRefused : Obligations.CmdWriteWhileBusyIsRefused := by
  intro s w rest op hm hs hi
  have hstep := step_writeCmd hm hi
  rw [writeCmd_busy (s := (s.takeInput rest).acknowledge) w hs] at hstep
  exact ⟨_, hstep, rfl, rfl, rfl, _, exec_running op hs, rfl, completion_congr op rfl rfl rfl rfl⟩

/-- Settles O39: the offset is that of a valid entry of DATA or RX, and a busy block drops the store. -/
theorem inputWriteWhileBusyIsDropped : Obligations.InputWriteWhileBusyIsDropped := by
  intro s a w rest op j hm hs hi ha
  have htarget : ∃ buf, (buf = .data ∨ buf = .rx) ∧ target s.block a.toNat = .entry buf j := by
    obtain ⟨ha, hj⟩ | ⟨ha, hj⟩ := ha
    · exact ⟨.data, .inl rfl, ha ▸ target_data s.block hj⟩
    · exact ⟨.rx, .inr rfl, ha ▸ target_rx s.block hj⟩
  obtain ⟨buf, hbuf, ht⟩ := htarget
  have hstep := step_store hm hi (by omega) (by simp [ht])
  rw [ht, hostStore_input_busy (s := (s.takeInput rest).acknowledge) w j hbuf hs] at hstep
  exact ⟨_, hstep, rfl, rfl, rfl⟩

/-- Settles O43: the port answers a bus error before it looks at what is addressed, and the checked step sees the fault it records. -/
theorem busErrorChangesNothing : Obligations.BusErrorChangesNothing := by
  intro s a size w rest hm hi h
  have hstep := step_illegalAccess hm hi (legalAccess_eq_false h)
  refine ⟨⟨_, hstep, ⟨rfl, rfl, rfl⟩, rfl⟩, fun hclean => checkedStep_fault hstep ?_⟩
  have hrec : (s.takeInput rest).busError.env.hostFault = some (s.env.hostFault.getD .busError) := rfl
  rw [hrec, hclean]
  rfl

end

section
/-! PROOFS. What one step does to the state of the block, said once (R220 to R224), and the machine's invariant (R31, R37, R39, R41,
R44, R56). -/

namespace Sys2Proof.Machine

variable {s t : State}

/-! ## The offset of CMD -/

/-- Only the offset of CMD addresses CMD (R75). -/
theorem eq_cmdOffset_of_target {b : Block} {a : Offset} (h : target b a.toNat = .cmd) : a = 0x000C := by
  refine BitVec.eq_of_toNat_eq (Classical.byContradiction fun (hne : ¬ a.toNat = 0x000C) => ?_)
  simp only [target, if_neg hne] at h
  repeat' split at h
  all_goals cases h

/-! ## What a store does -/

/-- A store in an entry of DATA or RX happens on an idle block, and is refused on a busy one; every other store is ignored (R228,
R229, R244). -/
theorem hostStore_cases (s : State) (w : Word) (tgt : Target) :
    s.hostStore w tgt = s ∨
    (s.regs.seq = .idle ∧ ∃ slot, s.hostStore w tgt = s.storeData slot w ∨ s.hostStore w tgt = s.storeRx slot w) ∨
    (∃ op, s.regs.seq = .busy op ∧ s.hostStore w tgt = s.raiseCmdError .writeWhileBusy) := by
  cases tgt with
  | entry buf slot =>
    cases buf with
    | data =>
      cases hs : s.regs.seq with
      | idle => exact .inr (.inl ⟨rfl, slot, .inl (hostStore_data_idle w slot hs)⟩)
      | busy op => exact .inr (.inr ⟨op, rfl, hostStore_input_busy w slot (.inl rfl) hs⟩)
    | rx =>
      cases hs : s.regs.seq with
      | idle => exact .inr (.inl ⟨rfl, slot, .inr (hostStore_rx_idle w slot hs)⟩)
      | busy op => exact .inr (.inr ⟨op, rfl, hostStore_input_busy w slot (.inr rfl) hs⟩)
    | parity | out | errpos | errval | synd | gen | exp | log => exact .inl rfl
  | id | config | primpoly | cmd | status | result | reserved => exact .inl rfl

/-! ## What one step does to the block -/

theorem Seq.idle_ne_busy (op : LongOp) : Seq.idle ≠ .busy op := Seq.noConfusion

theorem SameArch.refl (s : State) : SameArch s s := ⟨rfl, rfl, rfl⟩

/-- Acceptance works on the block alone, whatever stands outside it. -/
theorem accepted_sameArch (i : Instr) (h : SameArch s t) : SameArch (accepted i s) (accepted i t) := by
  obtain ⟨hb, hr, hm⟩ := h
  cases i <;> exact ⟨hb, by simp [accepted, State.setLastCmd, State.acceptLong, State.clearCmdError, hr], hm⟩

/-- What one step does to the parameters, the registers and the buffers: the core step of the pending command; nothing; a raised
command error; an accepted command; a store in DATA or RX; or the platform's reset (R220 to R224, R228, R270). -/
inductive ArchStep (s t : State) : Prop
  | core (op : LongOp) (hm : s.coreMoves = true) (hs : s.regs.seq = .busy op) (ht : t = (completion op s).finish)
  | same (h : SameArch s t)
  | raised (cause : ErrCause) (hcause : cause ≠ .noError) (h : SameArch (s.raiseCmdError cause) t)
  | accepts (i : Instr) (w : Word) (rest : List Input) (hs : s.regs.seq = .idle)
      (hi : s.env.inputs = .write 0x000C 4 w :: rest) (hd : decode w = .ok i) (h : SameArch (accepted i s) t)
  | stores (slot : Nat) (w : Word) (hs : s.regs.seq = .idle)
      (h : SameArch (s.storeData slot w) t ∨ SameArch (s.storeRx slot w) t)
  | reset (rest : List Input) (hm : s.coreMoves = false) (hi : s.env.inputs = .reset :: rest) (ht : t = s.platformReset rest)

theorem archStep_of_step (h : step s = .next t) : ArchStep s t := by
  obtain ⟨op, hm, hs, ht⟩ | ⟨-, -, rfl⟩ | ⟨a, size, rest, -, -, rfl⟩ | ⟨a, size, w, rest, -, hi, hw⟩ | ⟨rest, hm, hi, ht⟩ :=
    step_cases h
  case inl => exact .core op hm hs ht
  case inr.inl => exact .same (SameArch.refl t)
  case inr.inr.inl => exact .same (hostRead_sameArch (s.takeInput rest) a size)
  case inr.inr.inr.inr => exact .reset rest hm hi ht
  case inr.inr.inr.inl =>
    obtain ⟨-, rfl⟩ | ⟨hl, hcmd, hc⟩ | ⟨-, -, rfl⟩ := hostWrite_cases hw
    case inl => exact .same ⟨rfl, rfl, rfl⟩
    case inr.inl =>
      obtain ⟨rfl, -⟩ := (legalAccess_iff a size).1 hl
      obtain rfl := eq_cmdOffset_of_target hcmd
      obtain ⟨_, -, rfl⟩ | ⟨_, -, -, rfl⟩ | ⟨i, hs, hd, rfl⟩ := writeCmd_cases hc
      · exact .raised .cmdWhileBusy (by decide) ⟨rfl, rfl, rfl⟩
      · exact .raised .illegalCmd (by decide) ⟨rfl, rfl, rfl⟩
      · exact .accepts i w rest hs hi hd (accepted_sameArch i ⟨rfl, rfl, rfl⟩)
    case inr.inr =>
      obtain he | ⟨hs, slot, he | he⟩ | ⟨op, -, he⟩ :=
        hostStore_cases (s.takeInput rest).acknowledge w (target (s.takeInput rest).block a.toNat) <;> rw [he]
      · exact .same ⟨rfl, rfl, rfl⟩
      · exact .stores slot w hs (.inl ⟨rfl, rfl, rfl⟩)
      · exact .stores slot w hs (.inr ⟨rfl, rfl, rfl⟩)
      · exact .raised .writeWhileBusy (by decide) ⟨rfl, rfl, rfl⟩

/-! ## What a core step leaves unchanged -/

theorem completion_block (op : LongOp) (s : State) : (completion op s).block = s.block := by
  cases op with
  | init => rfl
  | encode => rw [completion, State.encodeData]; split <;> rfl
  | decode => rw [completion, State.decodeRx]; split <;> rfl
  | syndrome => rw [completion, State.syndromeRx]; split <;> rfl

/-- ENCODE completes without touching a register (R152). -/
theorem encodeData_regs (s : State) : s.encodeData.regs = s.regs := by
  rw [State.encodeData]
  split <;> rfl

/-- SYNDROME completes by changing SYNZERO only among the registers (R201). -/
theorem syndromeRx_regs (s : State) :
    ∃ z, s.syndromeRx.regs = { s.regs with result := { s.regs.result with synzero := z } } := by
  rw [State.syndromeRx]
  split <;> exact ⟨_, rfl⟩

theorem allHold_map_some (l : List Word) : AllHold (l.map some) := by
  intro e he
  obtain ⟨w, -, rfl⟩ := List.mem_map.1 he
  exact Option.some_ne_none w

theorem allHold_freeSymbols (b : Block) (start len : Nat) : AllHold (freeSymbols b start len) := by
  intro e he
  obtain ⟨j, -, rfl⟩ := List.mem_map.1 he
  exact Option.some_ne_none _

theorem allHold_freeIndices (b : Block) (start len : Nat) : AllHold (freeIndices b start len) := by
  intro e he
  obtain ⟨j, -, rfl⟩ := List.mem_map.1 he
  exact Option.some_ne_none _

theorem freeOutcome_ne_notRun (drawn : Nat) : freeOutcome drawn ≠ .notRun := by
  rw [freeOutcome]
  split <;> decide

/-- Each of the decoder's outcomes is one of the codes 1 to 4 (R36). -/
theorem decodeWord_outcome_ne_notRun (f : Field) (nk t : Nat) (rx : List Word) :
    (f.decodeWord nk t rx).outcome ≠ .notRun := by
  simp only [Field.decodeWord]
  split
  · exact DecodeOutcome.noConfusion
  · split
    · exact DecodeOutcome.noConfusion
    · split <;> exact DecodeOutcome.noConfusion

/-- SYNDROME completes with a value in every entry of SYND (R201, R43). -/
theorem syndromeRx_allHold (s : State) : AllHold s.syndromeRx.mem.synd := by
  rw [State.syndromeRx]
  split
  · exact allHold_map_some _
  · exact allHold_freeSymbols _ _ _

/-- DECODE completes with a value in every entry of its write set, and an outcome that says so (R200, R43). -/
theorem decodeRx_allHold (s : State) :
    s.decodeRx.regs.result.outcome ≠ .notRun ∧ AllHold s.decodeRx.mem.out ∧ AllHold s.decodeRx.mem.errpos ∧
      AllHold s.decodeRx.mem.errval ∧ AllHold s.decodeRx.mem.synd := by
  rw [State.decodeRx]
  split
  · exact ⟨decodeWord_outcome_ne_notRun _ _ _ _, allHold_map_some _, allHold_map_some _, allHold_map_some _, allHold_map_some _⟩
  · exact ⟨freeOutcome_ne_notRun _, allHold_freeSymbols _ _ _, allHold_freeIndices _ _ _, allHold_freeSymbols _ _ _,
      allHold_freeSymbols _ _ _⟩

/-- Only INIT's core step writes READY (R40). -/
theorem completion_ready {op : LongOp} (hop : op ≠ .init) (s : State) : (completion op s).regs.ready = s.regs.ready := by
  cases op with
  | init => exact absurd rfl hop
  | encode => rw [completion, encodeData_regs]
  | decode => rw [completion, State.decodeRx]; split <;> rfl
  | syndrome => obtain ⟨z, h⟩ := syndromeRx_regs s; rw [completion, h]

/-! ## The invariant -/

/-- The invariant speaks of the block's own state only. -/
theorem State.Inv.of_sameArch (h : s.Inv) (hst : SameArch s t) : t.Inv := by
  cases s
  cases t
  obtain ⟨rfl, rfl, rfl⟩ := hst
  exact { h with }

theorem State.Inv.raiseCmdError (h : s.Inv) {cause : ErrCause} (hcause : cause ≠ .noError) : (s.raiseCmdError cause).Inv :=
  { h with
    clearIffNoCause := by
      have := h.clearIffNoCause
      cases hc : s.regs.cmdErr <;> simp_all }

/-- On an idle block an accepted command is the running one if it is long, and INIT's acceptance takes READY away (R224). -/
theorem State.Inv.accepted (h : s.Inv) (hs : s.regs.seq = .idle) (i : Instr) : (accepted i s).Inv := by
  have hready : s.regs.ready = true := by
    rw [← Bool.not_eq_false, h.notReadyIffInit, hs]
    exact Seq.idle_ne_busy .init
  have hlong (op : LongOp) : (s.acceptLong op).Inv :=
    { h with
      notReadyIffInit := by simp [hready]
      lastCmdRuns := fun running hrun => by rw [Seq.busy.inj hrun]; rfl
      readyTables := fun _ => h.readyTables hready }
  have hnone (op : LongOp) (hop : s.regs.seq = .busy op) : False := Seq.idle_ne_busy op (hs.symm.trans hop)
  cases i with
  | nop => exact { h with lastCmdRuns := fun op hop => (hnone op hop).elim }
  | clrerr => exact { h with lastCmdRuns := fun op hop => (hnone op hop).elim, clearIffNoCause := by simp [Machine.accepted] }
  | init | encode | decode | syndrome => exact hlong _

theorem State.Inv.storeData (h : s.Inv) (slot : Nat) (w : Word) : (s.storeData slot w).Inv :=
  { h with buffersWf := storeData_buffersWf slot w h.buffersWf }

theorem State.Inv.storeRx (h : s.Inv) (slot : Nat) (w : Word) : (s.storeRx slot w).Inv :=
  { h with buffersWf := storeRx_buffersWf slot w h.buffersWf }

theorem State.inv_afterReset (b : Block) (inputs : List Input) (free : Nat) (hostFault : Option Fault) :
    (State.afterReset b inputs free hostFault).Inv where
  buffersWf := ((Bool.and_eq_true _ _).mp (Memory.reset_wf b)).1
  notReadyIffInit := by simp [Regs.reset]
  clearIffNoCause := by simp [Regs.reset]
  lastCmdRuns op hop := by rw [← Seq.busy.inj hop]; rfl
  readyTables h := by simp [Regs.reset] at h
  notRunNoValues _ := ⟨fun _ h => List.eq_of_mem_replicate h, fun _ h => List.eq_of_mem_replicate h,
    fun _ h => List.eq_of_mem_replicate h⟩
  runAllHold h := absurd rfl h

/-- A core step leaves what READY says of the tables: INIT builds them, and the others run only while READY is 1 and write none. -/
theorem State.Inv.completion_tablesBuilt (h : s.Inv) {op : LongOp} (hs : s.regs.seq = .busy op) :
    (completion op s).regs.ready = true ∧ (completion op s).TablesBuilt := by
  by_cases hop : op = .init
  · subst hop
    exact ⟨rfl, rfl, rfl, rfl⟩
  · have hready : s.regs.ready = true := by
      rw [← Bool.not_eq_false, h.notReadyIffInit, hs]
      exact fun e => hop (Seq.busy.inj e)
    obtain ⟨hg, he, hl⟩ := completion_tables (s := s) op hop
    refine ⟨(completion_ready hop s).trans hready, ?_⟩
    rw [TablesBuilt, completion_block, hg, he, hl]
    exact h.readyTables hready

/-- A core step leaves what OUTCOME says of DECODE's write set. -/
theorem State.Inv.completion_outcome (h : s.Inv) (op : LongOp) :
    ((completion op s).regs.result.outcome = .notRun →
      NoValues (completion op s).mem.out ∧ NoValues (completion op s).mem.errpos ∧ NoValues (completion op s).mem.errval) ∧
    ((completion op s).regs.result.outcome ≠ .notRun →
      AllHold (completion op s).mem.out ∧ AllHold (completion op s).mem.errpos ∧ AllHold (completion op s).mem.errval ∧
      AllHold (completion op s).mem.synd) := by
  cases op with
  | init => exact ⟨h.notRunNoValues, h.runAllHold⟩
  | encode =>
    obtain ⟨parity, hm⟩ := encodeData_mem s
    rw [completion, hm, encodeData_regs]
    exact ⟨h.notRunNoValues, h.runAllHold⟩
  | decode =>
    obtain ⟨hrun, hhold⟩ := decodeRx_allHold s
    exact ⟨fun hn => absurd hn hrun, fun _ => hhold⟩
  | syndrome =>
    have hsynd := syndromeRx_allHold s
    obtain ⟨synd, hm⟩ := syndromeRx_mem s
    obtain ⟨z, hr⟩ := syndromeRx_regs s
    rw [hm] at hsynd
    rw [completion, hm, hr]
    refine ⟨h.notRunNoValues, fun hrun => ?_⟩
    obtain ⟨hout, hpos, hval, -⟩ := h.runAllHold hrun
    exact ⟨hout, hpos, hval, hsynd⟩

/-- The core step of the running command keeps the invariant. -/
theorem State.Inv.completion (h : s.Inv) {op : LongOp} (hs : s.regs.seq = .busy op) : (completion op s).finish.Inv := by
  obtain ⟨hready, htables⟩ := h.completion_tablesBuilt hs
  obtain ⟨hnot, hrun⟩ := h.completion_outcome op
  have hfield : op ≠ .init → s.field.Symbols s.block.m := fun hop =>
    field_symbols (h.readyTables ((completion_ready hop s).symm.trans hready)).tablesWf
  obtain ⟨ready, result, hregs⟩ := completion_regs op s
  exact {
    buffersWf := by rw [finish_mem, finish_block, completion_block]; exact completion_buffersWf op hfield h.buffersWf
    notReadyIffInit := by simp [hready]
    clearIffNoCause := by rw [finish_cmdErr, finish_errCause, hregs]; exact h.clearIffNoCause
    lastCmdRuns := fun running hrun => by simp at hrun
    readyTables := fun _ => htables
    notRunNoValues := hnot
    runAllHold := hrun }

end Sys2Proof.Machine

open Sys2Proof Sys2Proof.Machine

/-- Settles O54: each of the things a step does to the block keeps the invariant. -/
theorem everyStepKeepsTheInvariant : Obligations.EveryStepKeepsTheInvariant := by
  intro s t h hstep
  cases archStep_of_step hstep with
  | core op _ hs ht => rw [ht]; exact h.completion hs
  | same hst => exact h.of_sameArch hst
  | raised cause hcause hst => exact (h.raiseCmdError hcause).of_sameArch hst
  | accepts i w rest hs _ _ hst => exact (h.accepted hs i).of_sameArch hst
  | stores slot w _ hst =>
    obtain hst | hst := hst
    · exact (h.storeData slot w).of_sameArch hst
    · exact (h.storeRx slot w).of_sameArch hst
  | reset rest _ _ ht => rw [ht]; exact State.inv_afterReset _ _ _ _

/-- Settles O53: at reset INIT is running, no error is recorded and no buffer holds a value. -/
theorem invariantHoldsAfterReset : Obligations.InvariantHoldsAfterReset :=
  State.inv_afterReset

end

section
/-! PROOFS. The command words (R100 to R103): each command has one word, and the words the decoder rejects are the reserved ones. -/

namespace Sys2Proof

/-- A word is its reserved field followed by its opcode field (R100). -/
theorem reservedField_append_opField (w : Word) : reservedField w ++ opField w = w :=
  (BitVec.extractLsb'_append_extractLsb'_eq_extractLsb' rfl).trans BitVec.extractLsb'_eq_self

theorem decode_encode (i : Instr) : decode (encode i) = .ok i := by
  cases i <;> decide

/-- A word the decoder reads as a command has a zero reserved field and the command's opcode (R101, R102). -/
theorem fields_of_decode {w : Word} {i : Instr} (h : decode w = .ok i) : reservedField w = 0 ∧ opField w = opcode i := by
  rw [decode] at h
  split at h
  next hrsv =>
    refine ⟨hrsv, BitVec.eq_of_toNat_eq ?_⟩
    split at h
    case h_7 => cases h
    all_goals
      cases h
      assumption
  next => cases h

/-- With a zero reserved field the opcodes 0 to 5 are commands (R102). -/
theorem exists_decode_ok {w : Word} (hrsv : reservedField w = 0) (hop : (opField w).toNat < 6) : ∃ i, decode w = .ok i := by
  rw [decode, if_pos hrsv]
  interval_cases (opField w).toNat <;> exact ⟨_, rfl⟩

end Sys2Proof

open Sys2Proof Sys2Proof.Machine

/-- Settles O1: a word is its two fields, and a command fixes both. -/
theorem eachCommandHasExactlyOneWord : Obligations.EachCommandHasExactlyOneWord := by
  refine ⟨fun i _ => decode_encode i, fun w i h => ?_⟩
  obtain ⟨hrsv, hop⟩ := fields_of_decode h
  have hsplit := reservedField_append_opField w
  rw [hrsv, hop] at hsplit
  exact hsplit.symm

/-- Settles O2: the two fields decide, the reserved one first. -/
theorem illegalWordsAreTheReservedOnes : Obligations.IllegalWordsAreTheReservedOnes := by
  refine fun w => ⟨fun ⟨e, he⟩ => ?_, exists_decode_error⟩
  by_contra hlegal
  obtain ⟨hrsv, hop⟩ := not_or.1 hlegal
  obtain ⟨i, hi⟩ := exists_decode_ok (not_not.1 hrsv) (Nat.not_le.1 hop)
  rw [hi] at he
  cases he

/-- Settles O3, by evaluating the decoder on the nine words. -/
theorem opcodeTableWordsDecode : Obligations.OpcodeTableWordsDecode := by
  unfold Obligations.OpcodeTableWordsDecode
  decide

end

section
/-! PROOFS. The six commands (R140, R152, R200, R201, R221, R224): a step always answers, what each core step writes, from which
entries, and what it leaves alone (R44, R104). -/

namespace Sys2Proof.Machine

variable {s : State}

/-! ## Every step answers -/

theorem exists_exec (i : Instr) (s : State) : ∃ t, exec i s = .next t := by
  cases hs : s.regs.seq with
  | idle => exact ⟨_, exec_idle i hs⟩
  | busy op =>
    by_cases hop : op.instr = i
    · exact ⟨_, hop ▸ exec_running op hs⟩
    · exact ⟨_, exec_refused_while_busy i hs hop⟩

theorem exists_writeCmd (w : Word) (s : State) : ∃ t, writeCmd w s = .next t := by
  cases hs : s.regs.seq with
  | busy op => exact ⟨_, writeCmd_busy w hs⟩
  | idle =>
    cases hd : decode w with
    | error e => exact ⟨_, writeCmd_illegal hs hd⟩
    | ok i => rw [writeCmd_legal hs hd]; exact exists_exec i s

theorem exists_hostWrite (a : Offset) (size : Nat) (w : Word) (s : State) : ∃ t, hostWrite a size w s = .next t := by
  cases hl : legalAccess a size with
  | false => exact ⟨_, hostWrite_illegal w hl⟩
  | true =>
    by_cases hc : target s.block a.toNat = .cmd
    · rw [hostWrite_cmd w hl hc]; exact exists_writeCmd w _
    · exact ⟨_, hostWrite_store w hl hc⟩

theorem exists_step (s : State) : ∃ t, step s = .next t := by
  cases hm : s.coreMoves with
  | true =>
    obtain ⟨op, hs⟩ := busy_of_coreMoves hm
    exact ⟨_, step_core hm hs⟩
  | false =>
    cases hi : s.env.inputs with
    | nil => exact ⟨_, step_idle hm hi⟩
    | cons input rest =>
      rw [step_host hm hi]
      cases input with
      | read a size => exact ⟨_, rfl⟩
      | write a size w => exact exists_hostWrite a size w _
      | reset => exact ⟨_, rfl⟩

/-! ## Buffers that hold values -/

/-- A buffer whose entries all hold values of their kind, as the list of its values. -/
theorem AllHold.exists_bounded_values {l : List Entry} {bound : Nat} (h : AllHold l) (hlt : ∀ w, some w ∈ l → w.toNat < bound) :
    ∃ ws : List Word, l = ws.map some ∧ ws.length = l.length ∧ ∀ x ∈ ws, x.toNat < bound := by
  obtain ⟨ws, rfl⟩ := h.exists_values
  exact ⟨ws, rfl, List.length_map _ |>.symm, fun x hx => hlt x (List.mem_map_of_mem hx)⟩

theorem exists_freeSymbols_values (b : Block) (start len : Nat) :
    ∃ ws : List Word, freeSymbols b start len = ws.map some ∧ ws.length = len ∧ ∀ x ∈ ws, x.toNat < b.q := by
  simpa only [freeSymbols_length] using (allHold_freeSymbols b start len).exists_bounded_values (freeSymbols_lt b start len)

theorem exists_freeIndices_values (b : Block) (start len : Nat) :
    ∃ ws : List Word, freeIndices b start len = ws.map some ∧ ws.length = len ∧ ∀ x ∈ ws, x.toNat < b.n := by
  simpa only [freeIndices_length] using (allHold_freeIndices b start len).exists_bounded_values (freeIndices_lt b start len)

/-! ## A core step on an entry that holds no value -/

/-- The write set of ENCODE when some DATA entry holds no value (R43). -/
theorem encodeData_of_none (h : none ∈ s.mem.data) : s.encodeData =
    ({ s with mem := { s.mem with parity := freeSymbols s.block s.env.free s.block.nk } }.useFree
      s.block.nk).flagHostFault .commandNoValue := by
  rw [State.encodeData, (allValues_eq_none_iff _).2 h]

/-- The write set of SYNDROME when some RX entry holds no value (R43). -/
theorem syndromeRx_of_none (h : none ∈ s.mem.rx) : s.syndromeRx =
    ((s.storeSyndromes (freeSymbols s.block (s.env.free + 1) s.block.nk) (freeFlag s.env.free)).useFree
      (1 + s.block.nk)).flagHostFault .commandNoValue := by
  rw [State.syndromeRx, (allValues_eq_none_iff _).2 h]

/-- The write set of DECODE when some RX entry holds no value (R43). -/
theorem decodeRx_of_none (h : none ∈ s.mem.rx) : s.decodeRx =
    (s.storeUnspecified.useFree (5 + s.block.n + s.block.nk + s.block.t + s.block.t)).flagHostFault .commandNoValue := by
  rw [State.decodeRx, (allValues_eq_none_iff _).2 h]

/-- Outside the block a core step records at most a host fault, and that only where a source entry holds no value (R43). -/
theorem completion_env_cases (op : LongOp) (s : State) :
    (completion op s).env = s.env ∨
    (none ∈ op.source s.mem ∧ ∃ len, (completion op s).env =
      { s.env with free := s.env.free + len, hostFault := some (s.env.hostFault.getD .commandNoValue) }) := by
  by_cases hsrc : none ∈ op.source s.mem
  · right
    refine ⟨hsrc, ?_⟩
    cases op with
    | init => cases hsrc
    | encode => rw [completion, encodeData_of_none hsrc]; exact ⟨_, rfl⟩
    | decode => rw [completion, decodeRx_of_none hsrc]; exact ⟨_, rfl⟩
    | syndrome => rw [completion, syndromeRx_of_none hsrc]; exact ⟨_, rfl⟩
  · left
    obtain ⟨ws, hws⟩ := AllHold.exists_values (l := op.source s.mem) fun e he hnone => hsrc (hnone ▸ he)
    cases op with
    | init => rfl
    | encode => rw [completion, encodeData_of_values hws]
    | decode => rw [completion, decodeRx_of_values hws]; rfl
    | syndrome => rw [completion, syndromeRx_of_values hws]; rfl

/-! ## What a core step writes -/

/-- The write set of a command in the buffers and tables (R44, R104): what the core step of `op` may change of `mem` into `mem'`. -/
structure LongOp.Frame (op : LongOp) (mem mem' : Memory) : Prop where
  data : mem'.data = mem.data
  rx : mem'.rx = mem.rx
  parity : op ≠ .encode → mem'.parity = mem.parity
  decoded : op ≠ .decode → mem'.out = mem.out ∧ mem'.errpos = mem.errpos ∧ mem'.errval = mem.errval
  synd : op ≠ .decode → op ≠ .syndrome → mem'.synd = mem.synd
  tables : op ≠ .init → mem'.exp = mem.exp ∧ mem'.log = mem.log ∧ mem'.gen = mem.gen

theorem completion_frame (op : LongOp) (s : State) : op.Frame s.mem (completion op s).mem := by
  cases op with
  | init =>
    obtain ⟨exp, log, gen, h⟩ := buildTables_mem s
    rw [completion, h]
    constructor <;> simp
  | encode =>
    obtain ⟨parity, h⟩ := encodeData_mem s
    rw [completion, h]
    constructor <;> simp
  | decode =>
    obtain ⟨out, errpos, errval, synd, h⟩ := decodeRx_mem s
    rw [completion, h]
    constructor <;> simp
  | syndrome =>
    obtain ⟨synd, h⟩ := syndromeRx_mem s
    rw [completion, h]
    constructor <;> simp

/-- RESULT is written by DECODE, and its SYNZERO by SYNDROME too (R40). -/
theorem completion_result (op : LongOp) (s : State) :
    (op ≠ .decode → (completion op s).regs.result =
      { s.regs.result with synzero := (completion op s).regs.result.synzero }) ∧
    (op ≠ .decode → op ≠ .syndrome → (completion op s).regs.result = s.regs.result) := by
  cases op with
  | init => exact ⟨fun _ => rfl, fun _ _ => rfl⟩
  | encode => rw [completion, encodeData_regs]; exact ⟨fun _ => rfl, fun _ _ => rfl⟩
  | decode => exact ⟨fun h => absurd rfl h, fun h => absurd rfl h⟩
  | syndrome =>
    obtain ⟨z, hz⟩ := syndromeRx_regs s
    rw [completion, hz]
    exact ⟨fun _ => rfl, fun _ h => absurd rfl h⟩

theorem LongOp.instr_inj {op op' : LongOp} : op.instr = op'.instr ↔ op = op' := by
  cases op <;> cases op' <;> decide

/-- Acceptance leaves the parameters, RESULT, the inputs and the last response, and READY unless INIT is accepted (R224). -/
theorem accepted_frame (i : Instr) (s : State) :
    (accepted i s).block = s.block ∧ (accepted i s).regs.result = s.regs.result ∧
    (i ≠ .init → (accepted i s).regs.ready = s.regs.ready) ∧
    (accepted i s).env.inputs = s.env.inputs ∧ (accepted i s).env.resp = s.env.resp := by
  cases i <;> simp [accepted]

end Sys2Proof.Machine

open Sys2Proof Sys2Proof.Machine

/-- Settles O5: the sequencer's turn, the host's turn and the idle block each have a next state (`exists_step`). -/
theorem everyStepAnswersANextState : Obligations.EveryStepAnswersANextState := exists_step

/-- Settles O4: at the host's turn the port runs what it decodes; at the sequencer's turn the step is the core step. -/
theorem stepRunsTheDecodedCommand : Obligations.StepRunsTheDecodedCommand := by
  refine ⟨fun s w i rest hs hi hd => ?_, fun s op hm hs => ?_⟩
  · rw [step_writeCmd (coreMoves_of_idle hs) hi]
    exact writeCmd_legal (s := (s.takeInput rest).acknowledge) hs hd
  · rw [step_core hm hs, exec_running op hs]

/-- Settles O6: the block is idle, runs the command, or runs another. -/
theorem everyCommandAnswersANextState : Obligations.EveryCommandAnswersANextState := by
  refine fun i s => ⟨exec_idle i, fun op hs hop => ?_, fun op hs hop => exec_refused_while_busy i hs hop⟩
  subst hop
  exact exec_running op hs

/-- Settles O9, by the accepted state of each long-running command. -/
theorem longCommandAcceptance : Obligations.LongCommandAcceptance := by
  intro s op hs
  refine ⟨_, exec_idle op.instr hs, ?_⟩
  cases op <;> simp [accepted, LongOp.instr, State.acceptLong]

/-- Settles O10, by the completed state of INIT. -/
theorem initCompletionBuildsTheTables : Obligations.InitCompletionBuildsTheTables :=
  fun _ hs => exec_running .init hs

/-- Settles O17: acceptance changes no buffer, and the tables the core step builds are the ones that stand there. -/
theorem initAgainLeavesTheTables : Obligations.InitAgainLeavesTheTables := by
  intro s t u ⟨hexp, hlog, hgen⟩ hs ht hu
  rw [exec_idle .init hs] at ht
  obtain rfl := Host.Outcome.next.inj ht
  obtain rfl := exec_init_running rfl hu
  refine ⟨?_, rfl, rfl, rfl⟩
  show { s.mem with exp := buildExp s.block.toParams, log := buildLog s.block.toParams (buildExp s.block.toParams),
                    gen := buildGen s.block.toParams } = s.mem
  rw [← hlog, ← hexp, ← hgen]

/-- Settles O18, by ENCODE's write set on a DATA that holds its values. -/
theorem encodeCompletionWritesParity : Obligations.EncodeCompletionWritesParity := by
  intro s data hs hdata
  rw [show Instr.encode = LongOp.instr .encode from rfl, exec_running .encode hs, completion, encodeData_of_values hdata]
  rfl

/-- Settles O23: PARITY then holds free symbols. -/
theorem encodeOfMissingDataIsUnspecified : Obligations.EncodeOfMissingDataIsUnspecified := by
  intro s hs hnone
  obtain ⟨parity, hvalues, hlen, hlt⟩ := exists_freeSymbols_values s.block s.env.free s.block.nk
  refine ⟨_, parity, exec_running .encode hs, hlen, hlt, ?_⟩
  rw [completion, encodeData_of_none hnone, ← hvalues]
  exact ⟨rfl, rfl, rfl, Option.some_ne_none _⟩

/-- Settles O24, by SYNDROME's write set on an RX that holds its values. -/
theorem syndromeCompletionWritesSyndromes : Obligations.SyndromeCompletionWritesSyndromes := by
  intro s rx hs hrx synd
  rw [show Instr.syndrome = LongOp.instr .syndrome from rfl, exec_running .syndrome hs, completion, syndromeRx_of_values hrx]
  rfl

/-- Settles O25: SYND then holds free symbols, and SYNZERO is a free flag. -/
theorem syndromeOfMissingRxIsUnspecified : Obligations.SyndromeOfMissingRxIsUnspecified := by
  intro s hs hnone
  obtain ⟨synd, hvalues, hlen, hlt⟩ := exists_freeSymbols_values s.block (s.env.free + 1) s.block.nk
  refine ⟨_, synd, freeFlag s.env.free, exec_running .syndrome hs, hlen, hlt, ?_⟩
  rw [completion, syndromeRx_of_none hnone, ← hvalues]
  exact ⟨rfl, rfl, rfl, Option.some_ne_none _⟩

/-- Settles O26, by DECODE's write set on an RX that holds its values. -/
theorem decodeCompletionWritesTheResult : Obligations.DecodeCompletionWritesTheResult := by
  intro s rx hs hrx r
  rw [show Instr.decode = LongOp.instr .decode from rfl, exec_running .decode hs, completion, decodeRx_of_values hrx]
  rfl

/-- Settles O27: each buffer of the write set then holds free values of its kind, and the outcome is one of the four. -/
theorem decodeOfMissingRxIsUnspecified : Obligations.DecodeOfMissingRxIsUnspecified := by
  intro s hs hnone
  have hsymbols := exists_freeSymbols_values s.block
  obtain ⟨out, hout, houtLen, houtLt⟩ := hsymbols (s.env.free + 5) s.block.n
  obtain ⟨synd, hsynd, hsyndLen, hsyndLt⟩ := hsymbols (s.env.free + 5 + s.block.n) s.block.nk
  obtain ⟨errpos, hpos, hposLen, hposLt⟩ :=
    exists_freeIndices_values s.block (s.env.free + 5 + s.block.n + s.block.nk) s.block.t
  obtain ⟨errval, hval, hvalLen, hvalLt⟩ := hsymbols (s.env.free + 5 + s.block.n + s.block.nk + s.block.t) s.block.t
  have hlt : ∀ x ∈ out ++ synd ++ errval, x.toNat < s.block.q :=
    List.forall_mem_append.2 ⟨List.forall_mem_append.2 ⟨houtLt, hsyndLt⟩, hvalLt⟩
  refine ⟨_, out, synd, errpos, errval, s.storeUnspecified.regs.result, exec_running .decode hs, houtLen, hsyndLen, hposLen,
    hvalLen, hlt, hposLt, freeOutcome_ne_notRun s.env.free, ?_⟩
  rw [completion, decodeRx_of_none hnone, ← hout, ← hsynd, ← hpos, ← hval]
  exact ⟨rfl, rfl, rfl, Option.some_ne_none _⟩

/-- Settles O35: acceptance writes LASTCMD, the sequencer and READY, a refusal the command error, and a core step its write set
(`completion_frame`). -/
theorem commandsWriteOnlyTheirWriteSets : Obligations.CommandsWriteOnlyTheirWriteSets := by
  intro i s t h
  obtain ⟨-, rfl⟩ | ⟨op, rfl, -, rfl⟩ | ⟨op, -, -, rfl⟩ := exec_cases h
  case inl =>
    obtain ⟨hb, hres, hready, hin, hresp⟩ := accepted_frame i s
    rw [accepted_mem, hres]
    exact ⟨hb, rfl, rfl, fun _ => rfl, fun _ => ⟨rfl, rfl, rfl⟩, fun _ _ => rfl, fun hi => ⟨rfl, rfl, rfl, hready hi⟩,
      fun _ => rfl, fun _ _ => rfl, hin, hresp⟩
  case inr.inl =>
    have hne (op' : LongOp) : op.instr ≠ op'.instr → op ≠ op' := mt LongOp.instr_inj.2
    obtain ⟨hdata, hrx, hparity, hdecoded, hsynd, htables⟩ := completion_frame op s
    obtain ⟨hres, hzero⟩ := completion_result op s
    have henv : (completion op s).env.inputs = s.env.inputs ∧ (completion op s).env.resp = s.env.resp := by
      obtain he | ⟨-, len, he⟩ := completion_env_cases op s <;> simp [he]
    refine ⟨completion_block op s, hdata, hrx, fun h => hparity (hne .encode h), fun h => hdecoded (hne .decode h),
      fun h h' => hsynd (hne .decode h) (hne .syndrome h'), fun h => ?_, fun h => hres (hne .decode h),
      fun h h' => congrArg Result.synzero (hzero (hne .decode h) (hne .syndrome h')), henv⟩
    obtain ⟨hexp, hlog, hgen⟩ := htables (hne .init h)
    exact ⟨hexp, hlog, hgen, completion_ready (hne .init h) s⟩
  case inr.inr =>
    exact ⟨rfl, rfl, rfl, fun _ => rfl, fun _ => ⟨rfl, rfl, rfl⟩, fun _ _ => rfl, fun _ => ⟨rfl, rfl, rfl, rfl⟩,
      fun _ => rfl, fun _ _ => rfl, rfl, rfl⟩

/-- Settles O36: the buffers a core step reads are the same, and so is its write set, specified or not. -/
theorem commandsReadOnlyTheirSources : Obligations.CommandsReadOnlyTheirSources := by
  refine ⟨fun s gen data hs => ⟨_, _, exec_running .decode hs, exec_running .decode hs, ?_⟩,
    fun s rx hs => ⟨_, _, exec_running .encode hs, exec_running .encode hs, ?_⟩⟩
  · simp only [completion, State.decodeRx]
    cases allValues s.mem.rx <;> rfl
  · simp only [completion, State.encodeData]
    cases allValues s.mem.data <;> rfl

end

section
/-! PROOFS. The port at the host's turn (R42, R73 to R78, R227 to R229): where an offset lies, what is ignored, and what each read
answers. -/

namespace Sys2Proof.Machine

/-! ## The register map, from the offset to the entry -/

/-- Every buffer's region is word-aligned and lies between the registers and the last reserved stretch (R75). -/
theorem Buf.base_bounds (buf : Buf) : buf.base % 4 = 0 ∧ 0x0400 ≤ buf.base ∧ buf.base + 4 * buf.slots ≤ 0x2800 := by
  cases buf <;> decide

/-- An offset above the registers and outside the buffers' regions is reserved (R77). -/
theorem target_outside (b : Block) {a : Nat} (h : (0x0018 ≤ a ∧ a < 0x0400) ∨ (0x2800 ≤ a ∧ a < 0x4000)) :
    target b a = .reserved := by
  have hnone : bufferAt a = none := List.find?_eq_none.2 fun buf _ => by
    have := buf.base_bounds
    simp only [Bool.and_eq_true, decide_eq_true_eq]
    omega
  simp (disch := omega) only [target, if_neg, hnone]

/-- An aligned offset that addresses a valid entry is the entry's own (R75). -/
theorem offset_of_target_entry {b : Block} {a slot : Nat} {buf : Buf} (ha : a % 4 = 0) (h : target b a = .entry buf slot) :
    a = buf.base + 4 * ((buf.valid b).1 + slot) ∧ slot < (buf.valid b).2 := by
  unfold target at h
  iterate 6
    split at h
    · cases h
  split at h
  next => cases h
  next buf' hbuf =>
    dsimp only at h
    split at h
    next hvalid =>
      cases h
      have hin := List.find?_some hbuf
      have := buf.base_bounds
      simp only [Bool.and_eq_true, decide_eq_true_eq] at hin
      omega
    next => cases h

/-- Entries of DATA and RX are numbered from 0, as their slots are (R46, R48). -/
theorem offset_of_target_input {b : Block} {a slot : Nat} {buf : Buf} (ha : a % 4 = 0) (h : target b a = .entry buf slot) :
    (buf = .data → a = 0x0400 + 4 * slot ∧ slot < b.k) ∧ (buf = .rx → a = 0x0C00 + 4 * slot ∧ slot < b.n) := by
  have hoff := offset_of_target_entry ha h
  constructor <;> rintro rfl <;> simpa [Buf.base, Buf.valid] using hoff

section
variable {s t : State}

/-! ## Ignored writes -/

/-- Only the entries of DATA and RX are written by the host (R229). -/
theorem hostStore_ignored (w : Word) {tgt : Target} (h : ∀ buf slot, tgt = .entry buf slot → buf ≠ .data ∧ buf ≠ .rx) :
    s.hostStore w tgt = s := by
  cases tgt with
  | entry buf slot =>
    cases buf with
    | data => exact absurd rfl (h .data slot rfl).1
    | rx => exact absurd rfl (h .rx slot rfl).2
    | parity | out | errpos | errval | synd | gen | exp | log => rfl
  | id | config | primpoly | cmd | status | result | reserved => rfl

/-! ## Reads -/

/-- An aligned 32-bit read answers what it finds (R227). -/
theorem hostRead_legal {a : Offset} (ha : a.toNat % 4 = 0) :
    s.hostRead a 4 = s.answerRead (s.reading (target s.block a.toNat)) := by
  rw [State.hostRead, if_pos ((legalAccess_iff a 4).2 ⟨rfl, ha⟩)]

/-- What a read leaves outside the block but its response: the inputs and the latency stay. -/
theorem hostRead_env (s : State) (a : Offset) (size : Nat) :
    (s.hostRead a size).env.inputs = s.env.inputs ∧ (s.hostRead a size).env.wait = s.env.wait := by
  unfold State.hostRead State.answerRead
  dsimp only
  split
  · split <;> split <;> exact ⟨rfl, rfl⟩
  · exact ⟨rfl, rfl⟩

/-- A read is answered without an error, and every specified bit is that of the word found (R43, R283). -/
theorem answerRead_resp (s : State) (r : Reading) :
    ∃ w : Word, (s.answerRead r).env.resp = some { rdata := w, err := false } ∧
      ∀ i, r.unspecified.getLsbD i = false → w.getLsbD i = r.word.getLsbD i := by
  have hresp (answered : State) : (if r.noValue then answered.flagHostFault .readNoValue else answered).env.resp =
      answered.env.resp := by split <;> rfl
  rw [State.answerRead, hresp]
  split
  next => exact ⟨_, rfl, fun _ _ => rfl⟩
  next =>
    refine ⟨_, rfl, fun i hi => ?_⟩
    simpa [hi] using fun h => BitVec.lt_of_getLsbD h

/-- A wholly unspecified word is the next free one, and the read of an entry without a value is recorded (R43, R283). -/
theorem answerRead_any (s : State) (noValue : Bool) :
    (s.answerRead (.any noValue)).env.resp = some { rdata := Config.freeWord s.env.free, err := false } ∧
    (s.answerRead (.any noValue)).env.free = s.env.free + 1 ∧
    (s.answerRead (.any noValue)).env.hostFault =
      if noValue then some (s.env.hostFault.getD .readNoValue) else s.env.hostFault := by
  have hword : (0#32 &&& ~~~0xFFFFFFFF#32) ||| (Config.freeWord s.env.free &&& 0xFFFFFFFF#32) =
      Config.freeWord s.env.free := by
    rw [BitVec.zero_and, BitVec.zero_or]
    exact BitVec.and_allOnes
  have hresp := congrArg (fun w : Word => some ({ rdata := w, err := false } : Response)) hword
  cases noValue <;> exact ⟨hresp, rfl, rfl⟩

/-! ## The fields of STATUS and RESULT -/

/-- Fields of two words whose bits agree there are equal. -/
theorem extractLsb'_congr {v w : Word} {start len : Nat} (h : ∀ i, start ≤ i → i < start + len → w.getLsbD i = v.getLsbD i) :
    w.extractLsb' start len = v.extractLsb' start len := by
  apply BitVec.eq_of_getLsbD_eq
  intro i hi
  rw [BitVec.getLsbD_extractLsb', BitVec.getLsbD_extractLsb', h (start + i) (by omega) (by omega)]

/-- The fields of STATUS at their bits (R37). -/
theorem Regs.statusWord_fields (r : Regs) :
    r.statusWord.getLsbD 0 = r.busy ∧ r.statusWord.getLsbD 1 = r.ready ∧ r.statusWord.getLsbD 2 = r.cmdErr ∧
    r.statusWord.getLsbD 3 = false ∧ r.statusWord.extractLsb' 4 4 = r.errCause.code ∧
    r.statusWord.extractLsb' 8 4 = opcode r.lastCmd ∧ r.statusWord.extractLsb' 12 20 = 0 := by
  have herr : r.statusWord.extractLsb' 4 4 = r.errCause.code := by
    simp (disch := omega) only [Regs.statusWord, BitVec.extractLsb'_append_eq_of_le]
    exact BitVec.extractLsb'_append_eq_right
  have hlast : r.statusWord.extractLsb' 8 4 = opcode r.lastCmd := by
    simp (disch := omega) only [Regs.statusWord, BitVec.extractLsb'_append_eq_of_le]
    exact BitVec.extractLsb'_append_eq_right
  have hzero : r.statusWord.extractLsb' 12 20 = 0 := by
    simp (disch := omega) only [Regs.statusWord, BitVec.extractLsb'_append_eq_of_le]
    exact BitVec.extractLsb'_eq_self
  refine ⟨?_, r.statusWord_getLsbD_one, ?_, ?_, herr, hlast, hzero⟩ <;>
    simp only [Regs.statusWord, bit, BitVec.getLsbD_append] <;> simp

/-- The fields of RESULT at their bits (R36). -/
theorem Result.word_fields (r : Result) :
    r.word.extractLsb' 0 3 = r.outcome.code ∧ r.word.getLsbD 3 = r.synzero ∧ r.word.extractLsb' 4 4 = 0 ∧
    r.word.extractLsb' 8 8 = r.locdeg ∧ r.word.extractLsb' 16 8 = r.rootcnt ∧ r.word.extractLsb' 24 8 = r.bmsteps := by
  have hzero : r.word.getLsbD 3 = r.synzero := by
    simp only [Result.word, bit, BitVec.getLsbD_append]
    simp
  refine ⟨BitVec.extractLsb'_append_eq_right, hzero, ?_, ?_, ?_, ?_⟩ <;>
    simp (disch := omega) only [Result.word, BitVec.extractLsb'_append_eq_of_le]
  iterate 3 exact BitVec.extractLsb'_append_eq_right
  exact BitVec.extractLsb'_eq_self

/-! ## The bits of RESULT that a running command leaves specified -/

/-- Unless DECODE runs, a read of RESULT has every bit specified but SYNZERO's, and that one too unless SYNDROME runs (R283). -/
theorem resultUnspecified_getLsbD {r : Regs} (h : r.seq ≠ .busy .decode) {i : Nat}
    (hi : i = 3 → r.seq ≠ .busy .syndrome) : r.resultUnspecified.getLsbD i = false := by
  unfold Regs.resultUnspecified
  split
  next => exact BitVec.getLsbD_zero
  next op hop =>
    cases op with
    | init => exact BitVec.getLsbD_zero
    | encode => exact BitVec.getLsbD_zero
    | decode => exact absurd hop h
    | syndrome =>
      have hne : i ≠ 3 := fun e => hi e hop
      show (BitVec.twoPow 32 3).getLsbD i = false
      rw [BitVec.getLsbD_twoPow]
      simp [Ne.symm hne]

end

end Sys2Proof.Machine

open Sys2Proof Sys2Proof.Machine

/-- Settles O48: each row gives its buffer's base, slots and valid range, and the other offsets lie outside every region. -/
theorem registerMapPlacesEveryEntry : Obligations.RegisterMapPlacesEveryEntry := by
  intro b
  refine ⟨?rows, fun a _ h => target_outside b h, rfl, rfl, rfl, rfl, rfl, rfl⟩
  have hslot (buf : Buf) : ∀ i < buf.slots, target b (buf.base + 4 * i) =
      if (buf.valid b).1 ≤ i ∧ i < (buf.valid b).1 + (buf.valid b).2 then .entry buf (i - (buf.valid b).1)
      else .reserved := fun i hi => target_slot b buf hi
  simp only [List.forall_mem_cons]
  exact ⟨hslot .data, hslot .parity, hslot .rx, hslot .out, hslot .errpos, hslot .errval, hslot .synd, hslot .gen,
    hslot .exp, hslot .log, fun _ h => nomatch h⟩

/-- Settles O42: an aligned offset that addresses an entry of DATA or RX is the entry's own, so this one addresses neither, and
the port acknowledges the write and stores nothing. -/
theorem otherWritesAreIgnored : Obligations.OtherWritesAreIgnored := by
  intro s a w rest hm hi ha hcmd hdata hrx
  have htarget : target s.block a.toNat ≠ .cmd := fun h => hcmd (by rw [eq_cmdOffset_of_target h]; rfl)
  have hother : ∀ buf slot, target s.block a.toNat = .entry buf slot → buf ≠ .data ∧ buf ≠ .rx := fun buf slot h => by
    obtain ⟨hd, hr⟩ := offset_of_target_input ha h
    exact ⟨fun e => hdata slot (hd e).2 (hd e).1, fun e => hrx slot (hr e).2 (hr e).1⟩
  have hstep := step_store hm hi ha htarget
  rw [hostStore_ignored w hother] at hstep
  exact ⟨_, hstep, ⟨rfl, rfl, rfl⟩, ⟨_, rfl⟩, rfl⟩

/-- Settles O44: a read changes its response, the free counter and the fault record at most. -/
theorem readsChangeNoState : Obligations.ReadsChangeNoState := by
  intro s a size rest hm hi
  exact ⟨_, step_host hm hi, hostRead_sameArch (s.takeInput rest) a size, (hostRead_env _ a size).1⟩

/-- Settles O46: STATUS is read exactly, whatever runs. -/
theorem statusReadsItsFields : Obligations.StatusReadsItsFields := by
  intro s rest hm hi
  exact ⟨_, _, step_host hm hi, hostRead_exact_resp rfl rfl, s.regs.statusWord_fields⟩

/-- Settles O47: the bits of RESULT a read answers are the current ones except those in the running command's write set. -/
theorem resultReadsItsFields : Obligations.ResultReadsItsFields := by
  intro s rest hm hi hdec
  obtain ⟨w, hresp, hbits⟩ := answerRead_resp (s.takeInput rest) ((s.takeInput rest).reading .result)
  have hspec : ∀ i, i ≠ 3 → w.getLsbD i = s.regs.result.word.getLsbD i := fun i hne =>
    hbits i (resultUnspecified_getLsbD hdec fun e => absurd e hne)
  have hfield (start len : Nat) (h : 3 < start ∨ start + len ≤ 3) :
      w.extractLsb' start len = s.regs.result.word.extractLsb' start len :=
    extractLsb'_congr fun i h1 h2 => hspec i (by omega)
  obtain ⟨hout, hzero, hres, hdeg, hcnt, hsteps⟩ := s.regs.result.word_fields
  have hread : (s.takeInput rest).hostRead 0x0014 4 = (s.takeInput rest).answerRead ((s.takeInput rest).reading .result) :=
    hostRead_legal rfl
  rw [← hread] at hresp
  exact ⟨_, w, step_host hm hi, hresp, (hfield 0 3 (by omega)).trans hout,
    fun hsyn => (hbits 3 (resultUnspecified_getLsbD hdec fun _ => hsyn)).trans hzero, (hfield 4 4 (by omega)).trans hres,
    (hfield 8 8 (by omega)).trans hdeg, (hfield 16 8 (by omega)).trans hcnt, (hfield 24 8 (by omega)).trans hsteps⟩

/-- Settles O49: what a read of an entry finds depends on the entry's value and on whether the running command writes its buffer. -/
theorem entryReads : Obligations.EntryReads := by
  intro s a rest buf slot hm hi ha ht
  have hread (r : Reading) (hr : s.readEntry buf slot = r) :
      (s.takeInput rest).hostRead a 4 = (s.takeInput rest).answerRead r := by
    subst hr
    exact (hostRead_legal ha).trans (by rw [State.takeInput_block, ht]; rfl)
  refine ⟨_, step_host hm hi, fun w hw hrun => ?value, fun w hw hrun => ?written, fun hw => ?missing⟩
  case value =>
    rw [hread (.exact w) (by rw [State.readEntry, hw]; simp [hrun])]
    exact ⟨rfl, rfl⟩
  case written =>
    rw [hread (.any false) (by rw [State.readEntry, hw]; simp [hrun])]
    exact answerRead_any (s.takeInput rest) false
  case missing =>
    rw [hread (.any true) (by rw [State.readEntry, hw])]
    obtain ⟨hresp, hfree, hfault⟩ := answerRead_any (s.takeInput rest) true
    exact ⟨hresp, hfree, by rw [hfault]; exact Option.some_ne_none _⟩

end

section
/-! PROOFS. Every step, and runs (R40, R82, R222, R240, R241, R270, R284): who writes each register, what a transaction does while a
command is pending, how a pending command completes, and who records a fault of the host program. -/

namespace Sys2Proof.Machine

variable {s t : State}

/-! ## Registers -/

/-- STATUS and RESULT right after reset (R59). -/
theorem Regs.reset_words : Regs.reset.statusWord = 0x00000101 ∧ Regs.reset.result.word = 0 := by decide

/-- STATUS once a CMD write has come while the reset-time INIT is pending, and once that INIT has completed (R59, R270). -/
theorem Regs.reset_statusWords_after :
    { Regs.reset with cmdErr := true, errCause := .cmdWhileBusy }.statusWord = 0x00000125 ∧
    { Regs.reset with ready := true, seq := .idle }.statusWord = 0x00000102 := by decide

/-- Only CLRERR's acceptance writes ERRCAUSE (R226). -/
theorem accepted_errCause {i : Instr} (hi : i ≠ .clrerr) (s : State) : (accepted i s).regs.errCause = s.regs.errCause := by
  cases i with
  | clrerr => exact absurd rfl hi
  | nop | init | encode | decode | syndrome => rfl

/-- An accepted command is recorded in LASTCMD (R224). -/
theorem accepted_lastCmd (i : Instr) (s : State) : (accepted i s).regs.lastCmd = i := by
  cases i <;> rfl

/-- On an idle block acceptance leaves the block idle or running the accepted command (R224, R225). -/
theorem accepted_seq (i : Instr) (hs : s.regs.seq = .idle) :
    (accepted i s).regs.seq = .idle ∨ ∃ op : LongOp, (accepted i s).regs.seq = .busy op ∧ i = op.instr := by
  cases i with
  | nop | clrerr => exact .inl hs
  | init => exact .inr ⟨.init, rfl, rfl⟩
  | encode => exact .inr ⟨.encode, rfl, rfl⟩
  | decode => exact .inr ⟨.decode, rfl, rfl⟩
  | syndrome => exact .inr ⟨.syndrome, rfl, rfl⟩

/-- The causes of a command error are the codes 1 to 3 (R240). -/
theorem ErrCause.eq_of_ne_noError {cause : ErrCause} (h : cause ≠ .noError) :
    cause = .illegalCmd ∨ cause = .cmdWhileBusy ∨ cause = .writeWhileBusy := by
  cases cause with
  | noError => exact absurd rfl h
  | illegalCmd => exact .inl rfl
  | cmdWhileBusy => exact .inr (.inl rfl)
  | writeWhileBusy => exact .inr (.inr rfl)

/-! ## A host transaction while a command is pending -/

/-- A transaction while a command is pending changes no buffer and no register but the command error (R243, R244, R281). -/
theorem transaction_keeps_pending {op : LongOp} {input : Input} {rest : List Input} (h : step s = .next t)
    (hs : s.regs.seq = .busy op) (hm : s.coreMoves = false) (hi : s.env.inputs = input :: rest)
    (ht : input.isTransaction = true) :
    t.block = s.block ∧ t.mem = s.mem ∧ t.regs.seq = s.regs.seq ∧ t.regs.result = s.regs.result ∧
      t.regs.ready = s.regs.ready := by
  have hbusy : s.regs.seq ≠ .idle := by simp [hs]
  cases archStep_of_step h with
  | core _ hcore => exact absurd (hm.symm.trans hcore) Bool.false_ne_true
  | same h =>
    obtain ⟨hb, hr, hmem⟩ := h
    exact ⟨hb, hmem, by rw [hr], by rw [hr], by rw [hr]⟩
  | raised cause _ h =>
    obtain ⟨hb, hr, hmem⟩ := h
    exact ⟨hb, hmem, by rw [hr]; rfl, by rw [hr]; rfl, by rw [hr]; rfl⟩
  | accepts _ _ _ hidle => exact absurd hidle hbusy
  | stores _ _ hidle => exact absurd hidle hbusy
  | reset _ _ hreset =>
    obtain ⟨rfl, -⟩ := List.cons.inj (hi.symm.trans hreset)
    cases ht

/-- What a write transaction leaves outside the block while a command is pending: the inputs and the latency stay, and a host fault
is recorded by an illegal access only. -/
theorem hostWrite_env {a : Offset} {size : Nat} {w : Word} (h : hostWrite a size w s = .next t) :
    ((∃ op, s.regs.seq = .busy op) → t.env.inputs = s.env.inputs ∧ t.env.wait = s.env.wait) ∧
    (t.env.hostFault = s.env.hostFault ∨
      (legalAccess a size = false ∧ t.env.hostFault = some (s.env.hostFault.getD .busError))) := by
  obtain ⟨hl, rfl⟩ | ⟨-, -, hc⟩ | ⟨-, -, rfl⟩ := hostWrite_cases h
  case inl => exact ⟨fun _ => ⟨rfl, rfl⟩, .inr ⟨hl, rfl⟩⟩
  case inr.inl =>
    obtain ⟨_, -, rfl⟩ | ⟨_, -, -, rfl⟩ | ⟨i, hs, -, rfl⟩ := writeCmd_cases hc
    · exact ⟨fun _ => ⟨rfl, rfl⟩, .inl rfl⟩
    · exact ⟨fun _ => ⟨rfl, rfl⟩, .inl rfl⟩
    · refine ⟨fun ⟨op, hop⟩ => absurd (hs.symm.trans hop) (Seq.idle_ne_busy op), .inl ?_⟩
      cases i <;> rfl
  case inr.inr =>
    obtain he | ⟨_, _, he | he⟩ | ⟨_, _, he⟩ := hostStore_cases s.acknowledge w (target s.block a.toNat) <;> rw [he] <;>
      exact ⟨fun _ => ⟨rfl, rfl⟩, .inl rfl⟩

/-- A transaction taken while a command is pending leaves one input fewer and one fewer to wait for (R222, R284). -/
theorem transaction_env {op : LongOp} {input : Input} {rest : List Input} (h : step s = .next t)
    (hs : s.regs.seq = .busy op) (hm : s.coreMoves = false) (hi : s.env.inputs = input :: rest)
    (ht : input.isTransaction = true) : t.env.wait = s.env.wait - 1 ∧ t.env.inputs = rest := by
  rw [step_host hm hi] at h
  cases input with
  | read a size =>
    obtain rfl := Host.Outcome.next.inj h
    obtain ⟨hin, hwait⟩ := hostRead_env (s.takeInput rest) a size
    exact ⟨hwait, hin⟩
  | write a size w =>
    obtain ⟨hin, hwait⟩ := (hostWrite_env (s := s.takeInput rest) h).1 ⟨op, hs⟩
    exact ⟨hwait, hin⟩
  | reset => cases ht

/-- Whatever transactions come before its core step, a pending command stays pending, and what it works on stays (R82, R281). -/
theorem waits_keeps_pending {op : LongOp} (hs : s.regs.seq = .busy op) (h : Waits s t) :
    t.block = s.block ∧ t.mem = s.mem ∧ t.regs.seq = .busy op ∧ t.regs.result = s.regs.result ∧
      t.regs.ready = s.regs.ready := by
  induction h with
  | refl => exact ⟨rfl, rfl, hs, rfl, rfl⟩
  | tail _ hm hi ht hstep ih =>
    obtain ⟨hb, hmem, hseq, hres, hrdy⟩ := ih
    obtain ⟨hb', hmem', hseq', hres', hrdy'⟩ := transaction_keeps_pending hstep hseq hm hi ht
    exact ⟨hb'.trans hb, hmem'.trans hmem, hseq'.trans hseq, hres'.trans hres, hrdy'.trans hrdy⟩

/-- The number of host steps before the sequencer's turn, with only transactions to come, is bounded by the latency and by the
inputs. -/
theorem exists_run_to_coreMoves {op : LongOp} (inputs : List Input) (hs : s.regs.seq = .busy op) (hi : s.env.inputs = inputs)
    (ht : ∀ input ∈ inputs, input.isTransaction = true) :
    ∃ len t, len ≤ s.env.wait ∧ len ≤ inputs.length ∧ Sys2Proof.core.run len s = .next t ∧ t.regs.seq = .busy op ∧
      t.coreMoves = true := by
  induction inputs generalizing s with
  | nil => exact ⟨0, s, Nat.zero_le _, Nat.le_refl _, rfl, hs, by simp [State.coreMoves, hs, hi]⟩
  | cons input rest ih =>
    cases hm : s.coreMoves with
    | true => exact ⟨0, s, Nat.zero_le _, Nat.zero_le _, rfl, hs, hm⟩
    | false =>
      have hwait : s.env.wait ≠ 0 := by
        intro h0
        simp [State.coreMoves, hs, h0] at hm
      obtain ⟨hinput, hrest⟩ := List.forall_mem_cons.1 ht
      obtain ⟨u, hu⟩ := exists_step s
      have hseq := (transaction_keeps_pending hu hs hm hi hinput).2.2.1
      obtain ⟨hw, hin⟩ := transaction_env hu hs hm hi hinput
      obtain ⟨len, t, hlen, hlen', hrun, hpend, hcore⟩ := ih (hseq.trans hs) hin hrest
      refine ⟨len + 1, t, by omega, Nat.succ_le_succ hlen', ?_, hpend, hcore⟩
      have hstep : Sys2Proof.core.step s = .next u := hu
      simp only [Host.Core.run, hstep]
      exact hrun

/-! ## Faults of the host program -/

/-- Why a step from `s` records the fault `f` of the host program (R43, R73, R245). -/
def FaultCause (s : State) : Fault → Prop
  | .busError => ∃ a size w rest, legalAccess a size = false ∧
      (s.env.inputs = .read a size :: rest ∨ s.env.inputs = .write a size w :: rest)
  | .readNoValue => ∃ a rest buf slot, s.env.inputs = .read a 4 :: rest ∧
      target s.block a.toNat = .entry buf slot ∧ s.mem.entry buf slot = none
  | .commandNoValue => ∃ op, s.coreMoves = true ∧ s.regs.seq = .busy op ∧ none ∈ op.source s.mem

/-- A read finds no value only in an entry that holds none (R43). -/
theorem entry_none_of_noValue {tgt : Target} (h : (s.reading tgt).noValue = true) :
    ∃ buf slot, tgt = .entry buf slot ∧ s.mem.entry buf slot = none := by
  cases tgt with
  | entry buf slot =>
    refine ⟨buf, slot, rfl, ?_⟩
    simp only [State.reading, State.readEntry] at h
    split at h
    · assumption
    · split at h <;> cases h
  | id | config | primpoly | cmd | status | result | reserved => cases h

theorem answerRead_hostFault (s : State) (r : Reading) : (s.answerRead r).env.hostFault =
    if r.noValue then some (s.env.hostFault.getD .readNoValue) else s.env.hostFault := by
  unfold State.answerRead
  dsimp only
  split <;> split <;> rfl

/-- A step leaves the record of a host fault, or records one that has its cause; a record made before stays (log entry 1). -/
theorem step_hostFault (h : step s = .next t) :
    t.env.hostFault = s.env.hostFault ∨ ∃ f, FaultCause s f ∧ t.env.hostFault = some (s.env.hostFault.getD f) := by
  obtain ⟨op, hm, hs, rfl⟩ | ⟨-, -, rfl⟩ | ⟨a, size, rest, -, hi, rfl⟩ | ⟨a, size, w, rest, -, hi, hw⟩ | ⟨rest, -, -, rfl⟩ :=
    step_cases h
  case inl =>
    rw [State.finish_env]
    obtain he | ⟨hsrc, len, he⟩ := completion_env_cases op s <;> rw [he]
    · exact .inl rfl
    · exact .inr ⟨.commandNoValue, ⟨op, hm, hs, hsrc⟩, rfl⟩
  case inr.inl => exact .inl rfl
  case inr.inr.inl =>
    cases hl : legalAccess a size with
    | false =>
      rw [hostRead_illegal hl]
      exact .inr ⟨.busError, ⟨a, size, 0, rest, hl, .inl hi⟩, rfl⟩
    | true =>
      obtain ⟨rfl, ha⟩ := (legalAccess_iff a size).1 hl
      rw [hostRead_legal ha, answerRead_hostFault]
      split
      next hnone =>
        obtain ⟨buf, slot, htgt, hentry⟩ := entry_none_of_noValue hnone
        exact .inr ⟨.readNoValue, ⟨a, rest, buf, slot, hi, htgt, hentry⟩, rfl⟩
      next => exact .inl rfl
  case inr.inr.inr.inl =>
    obtain hsame | ⟨hl, hrec⟩ := (hostWrite_env hw).2
    · exact .inl hsame
    · exact .inr ⟨.busError, ⟨a, size, w, rest, hl, .inr hi⟩, hrec⟩
  case inr.inr.inr.inr => exact .inl rfl

end Sys2Proof.Machine

open Sys2Proof Sys2Proof.Machine

/-- Settles O55: none of the things a step does to the block writes a parameter. -/
theorem parametersNeverChange : Obligations.ParametersNeverChange := by
  intro s t h
  cases archStep_of_step h with
  | core op _ _ ht => rw [ht]; exact completion_block op s
  | same h => exact h.1
  | raised _ _ h => exact h.1
  | accepts i _ _ _ _ _ h => exact h.1.trans (accepted_frame i s).1
  | stores _ _ _ h => exact h.elim And.left And.left
  | reset _ _ _ ht => rw [ht]; rfl

/-- Settles O40: of the things a step does to the block, only CLRERR's acceptance and a reset clear the flag, and only a raised
error sets it. -/
theorem commandErrorIsSticky : Obligations.CommandErrorIsSticky := by
  intro s t h
  cases archStep_of_step h with
  | core op _ _ ht =>
    obtain ⟨ready, result, hr⟩ := completion_regs op s
    have hflag : t.regs.cmdErr = s.regs.cmdErr := by rw [ht]; exact completion_cmdErr op s
    have hcause : t.regs.errCause = s.regs.errCause := by rw [ht, State.finish_errCause, hr]
    exact ⟨fun hset => .inl ⟨hflag.trans hset, hcause⟩, fun h0 h1 => by rw [hflag, h0] at h1; cases h1⟩
  | same h =>
    rw [h.2.1]
    exact ⟨fun hset => .inl ⟨hset, rfl⟩, fun h0 h1 => by rw [h0] at h1; cases h1⟩
  | raised cause hcause h =>
    rw [h.2.1, State.raiseCmdError_errCause]
    exact ⟨fun hset => .inl ⟨rfl, if_pos hset⟩, fun h0 _ => by simpa [h0] using ErrCause.eq_of_ne_noError hcause⟩
  | accepts i w rest hs hi hd h =>
    rw [h.2.1]
    by_cases hclr : i = .clrerr
    · subst hclr
      exact ⟨fun _ => .inr (.inr ⟨_, _, w, rest, hi, rfl, hs, hd, rfl, rfl⟩), fun _ h1 => nomatch h1⟩
    · rw [accepted_cmdErr hclr, accepted_errCause hclr]
      exact ⟨fun hset => .inl ⟨hset, rfl⟩, fun h0 h1 => by rw [h0] at h1; cases h1⟩
  | stores slot w _ h =>
    have hregs : t.regs = s.regs := h.elim (·.2.1) (·.2.1)
    rw [hregs]
    exact ⟨fun hset => .inl ⟨hset, rfl⟩, fun h0 h1 => by rw [h0] at h1; cases h1⟩
  | reset rest hm hi ht =>
    exact ⟨fun _ => .inr (.inl ⟨hm, rest, hi⟩), fun _ h1 => by rw [ht] at h1; cases h1⟩

/-- Settles O57: each register is written by one of the things a step does to the block. -/
theorem everyFlagHasItsOnlyWriters : Obligations.EveryFlagHasItsOnlyWriters := by
  intro s t h hreset completes accepts
  cases archStep_of_step h with
  | core op hm hs ht =>
    have hc : completes op := ⟨hm, hs⟩
    obtain ⟨ready, result, hregs⟩ := completion_regs op s
    have hlast : t.regs.lastCmd = s.regs.lastCmd := by rw [ht, State.finish_lastCmd, hregs]
    obtain ⟨hres, hres'⟩ := completion_result op s
    have hresult : t.regs.result = (completion op s).regs.result := by rw [ht]; rfl
    have hready : op ≠ .init → t.regs.ready = s.regs.ready := fun hop => by rw [ht]; exact completion_ready hop s
    refine ⟨fun hne => ?_, fun h1 h0 => ?_, fun h0 h1 => ?_, fun hne => absurd hlast hne, fun hidle => ?_,
      fun op' hs' _ => ⟨hm, hs'⟩⟩
    · rw [hresult] at hne ⊢
      by_cases hdec : op = .decode
      · exact .inl (hdec ▸ hc)
      · by_cases hsyn : op = .syndrome
        · exact .inr ⟨hsyn ▸ hc, hres hdec⟩
        · exact absurd (hres' hdec hsyn) hne
    · by_cases hop : op = .init
      · rw [ht, hop] at h0; cases h0
      · rw [hready hop, h1] at h0; cases h0
    · by_cases hop : op = .init
      · exact hop ▸ hc
      · rw [hready hop, h0] at h1; cases h1
    · exact absurd (hidle.symm.trans hs) (Seq.idle_ne_busy op)
  | same h => rw [h.2.1]; simp +contextual
  | raised _ _ h => rw [h.2.1]; simp +contextual
  | accepts i w rest hs hi hd h =>
    have ha : accepts i := ⟨hs, w, rest, hi, hd⟩
    obtain ⟨-, hres, hready, -⟩ := accepted_frame i s
    rw [h.2.1, hres, accepted_lastCmd]
    refine ⟨fun h => absurd rfl h, fun h1 h0 => ?_, fun h0 h1 => ?_, fun _ => ⟨i, rfl, ha⟩, fun _ hbusy => ?_,
      fun op hop => absurd (hs.symm.trans hop) (Seq.idle_ne_busy op)⟩
    · by_cases hinit : i = .init
      · exact hinit ▸ ha
      · rw [hready hinit, h1] at h0; cases h0
    · by_cases hinit : i = .init
      · rw [hinit] at h1; simp [accepted] at h1
      · rw [hready hinit, h0] at h1; cases h1
    · obtain hidle | ⟨op, hop, rfl⟩ := accepted_seq i hs
      · exact absurd hidle hbusy
      · exact ⟨op, hop, ha⟩
  | stores _ _ _ h =>
    have hregs : t.regs = s.regs := h.elim (·.2.1) (·.2.1)
    rw [hregs]
    simp +contextual
  | reset rest hm hi _ => exact absurd ⟨hm, rest, hi⟩ hreset

/-- Settles O58: transactions leave the pending command and what it works on, and its write set depends on nothing else
(`completion_congr`). -/
theorem completionIgnoresInterleaving : Obligations.CompletionIgnoresInterleaving := by
  intro s t op hs hsrc hwaits
  obtain ⟨hb, hmem, hseq, hres, hrdy⟩ := waits_keeps_pending hs hwaits
  exact ⟨hseq, completion_congr op hb hmem hres hrdy hsrc⟩

/-- Settles O59, by induction on the transactions to come (`exists_run_to_coreMoves`). -/
theorem pendingCommandCompletes : Obligations.PendingCommandCompletes := by
  refine ⟨fun s t op input rest hs hm hi ht h => ?_, fun s op hs ht => ?_⟩
  · obtain ⟨-, -, hseq, -⟩ := transaction_keeps_pending h hs hm hi ht
    exact ⟨hseq.trans hs, transaction_env h hs hm hi ht⟩
  · obtain ⟨len, t, hwait, hlen, hrun, hpend, hcore⟩ := exists_run_to_coreMoves s.env.inputs hs rfl ht
    exact ⟨len, t, _, hwait, hlen, hrun, hpend, hcore, step_core hcore hpend, rfl⟩

/-- Settles O60: the first record stays, and each is made by the case of the step that `FaultCause` names. -/
theorem hostFaultsHaveTheirCauses : Obligations.HostFaultsHaveTheirCauses := by
  intro s t h
  refine ⟨fun f hf => ?stays, fun hnone => ?made⟩
  case stays =>
    obtain hsame | ⟨f', -, hrec⟩ := step_hostFault h
    · rw [hsame, hf]
    · rw [hrec, hf]; rfl
  case made =>
    have hcause (f : Fault) (hf : t.env.hostFault = some f) : FaultCause s f := by
      obtain hsame | ⟨f', hc, hrec⟩ := step_hostFault h
      · rw [hsame, hnone] at hf; cases hf
      · rw [hrec, hnone] at hf; cases hf; exact hc
    exact ⟨hcause .busError, hcause .readNoValue, hcause .commandNoValue⟩

/-- Settles O51, by the reset state. -/
theorem resetReplacesTheState : Obligations.ResetReplacesTheState := by
  intro s rest hm hi
  obtain ⟨hstatus, hresult⟩ := Regs.reset_words
  exact ⟨_, step_host hm hi, rfl, hstatus, hresult, rfl, rfl, rfl, rfl, rfl, rfl, rfl, rfl, rfl, rfl, rfl⟩

/-- Settles O52: with an input to come it is the host's turn, and the reset-time INIT is running; with none it completes. -/
theorem resetTimeInitCompletes : Obligations.ResetTimeInitCompletes := by
  intro b free hostFault after
  have hhost (input : Input) (rest : List Input) : step (after (input :: rest)) = hostStep input rest (after (input :: rest)) :=
    step_host (State.afterReset_coreMoves b free hostFault input rest) rfl
  obtain ⟨hstatus, hresult⟩ := Regs.reset_words
  obtain ⟨hrefused, hcompleted⟩ := Regs.reset_statusWords_after
  refine ⟨fun _ => hstatus, hhost, fun rest => ?status, fun rest => ?result, fun w rest => ?command, ?complete⟩
  case status => exact ⟨_, hhost _ rest, hostRead_exact_resp rfl (congrArg Reading.exact hstatus)⟩
  case result => exact ⟨_, hhost _ rest, hostRead_exact_resp rfl (congrArg Reading.exact hresult)⟩
  case command =>
    have hstep := step_writeCmd (State.afterReset_coreMoves b free hostFault (.write 0x000C 4 w) rest) rfl
    rw [writeCmd_busy (op := .init) w rfl] at hstep
    exact ⟨_, hstep, hrefused, rfl⟩
  case complete =>
    exact ⟨_, step_core (op := .init) rfl rfl, hcompleted, hresult, ⟨rfl, rfl, rfl⟩, rfl⟩

end

section
/-! PROOFS. The exponent table as integers (R121), and the encoder's register (R152, R154). -/

namespace Sys2Proof.Machine

/-! ## The exponent table as integers -/

/-- The powers of two at the positions below `len` where `x` has a bit 1 sum to the low `len` bits of `x`. -/
theorem xorSum_powerOfTwo_toNat (x : Nat) {len : Nat} (h : len ≤ 32) :
    (xorSum len fun i => if x.testBit i then powerOfTwo i else 0).toNat = x % 2 ^ len := by
  induction len with
  | zero => exact (Nat.mod_one x).symm
  | succ len ih =>
    rw [xorSum, BitVec.toNat_xor, ih (by omega)]
    apply Nat.eq_of_testBit_eq
    intro j
    have hbit : (if x.testBit len then powerOfTwo len else 0).toNat.testBit j = (decide (len = j) && x.testBit len) := by
      split
      next hx => rw [powerOfTwo_toNat (by omega), Nat.testBit_two_pow, hx, Bool.and_true]
      next hx => simp [hx]
    rw [Nat.testBit_xor, hbit, Nat.testBit_mod_two_pow, Nat.testBit_mod_two_pow]
    by_cases hj : len = j
    · subst hj; simp
    · have hlt : j < len + 1 ↔ j < len := by omega
      simp [hj, hlt]

section
variable (b : Block)

/-- PP has `M+1` bits, the top one set (R12). -/
theorem pp_degree : b.pp.testBit b.m = true ∧ b.pp < 2 ^ (b.m + 1) := by
  have := b.wf
  simp only [Params.wf, Params.degreeOk, Bool.and_eq_true, decide_eq_true_eq] at this
  exact this.1.2

/-- `EXP[M]` as an integer: PP without its top bit (R121). -/
theorem alphaToM_toNat : (alphaToM b.toParams).toNat = b.pp ^^^ 2 ^ b.m := by
  obtain ⟨htop, hlt⟩ := pp_degree b
  have := b.m_le_eight
  rw [alphaToM, xorSum_powerOfTwo_toNat b.pp (by omega)]
  apply Nat.eq_of_testBit_eq
  intro j
  rw [Nat.testBit_mod_two_pow, Nat.testBit_xor, Nat.testBit_two_pow]
  obtain hj | rfl | hj := Nat.lt_trichotomy j b.m
  · simp [hj, hj.ne']
  · simp [htop]
  · have hzero : b.pp.testBit j = false :=
      Nat.testBit_lt_two_pow (Nat.lt_of_lt_of_le hlt (Nat.pow_le_pow_right (by decide) hj))
    simp [hzero, hj.ne]

/-- Doubling a symbol, or a symbol with its top bit flipped, loses no bit. -/
theorem shiftLeft_one_toNat {x : Word} (hx : x.toNat < b.q) : (x <<< 1).toNat = x.toNat * 2 := by
  have := b.q_le
  rw [BitVec.toNat_shiftLeft, Nat.shiftLeft_eq, Nat.pow_one]
  exact Nat.mod_eq_of_lt (by omega)

/-- Multiplying by alpha as integers: the double, reduced by `EXP[M]` when the top bit is set (R121). -/
theorem timesAlpha_toNat {x : Word} (hx : x.toNat < b.q) : (timesAlpha b.toParams x).toNat =
    if 2 ^ (b.m - 1) ≤ x.toNat then (alphaToM b.toParams).toNat ^^^ ((x.toNat ^^^ 2 ^ (b.m - 1)) * 2) else x.toNat * 2 := by
  have := b.two_le_m
  have := b.m_le_eight
  have hmask : (powerOfTwo (b.m - 1)).toNat = 2 ^ (b.m - 1) := powerOfTwo_toNat (by omega)
  have hmaskLt : (powerOfTwo (b.m - 1)).toNat < b.q := by
    rw [hmask]; exact Nat.pow_lt_pow_right (by decide) (by omega)
  simp only [timesAlpha, BitVec.le_def, hmask]
  split
  · rw [BitVec.toNat_xor, shiftLeft_one_toNat b (xor_lt b.m hx hmaskLt), BitVec.toNat_xor, hmask]
  · exact shiftLeft_one_toNat b hx

end

/-! ## The register, position by position -/

/-- The register moved by one position: zero comes in first, the last content goes out. -/
theorem shifted_getD (reg : List Word) {r : Nat} (h1 : 1 ≤ r) (hr : r < reg.length) :
    (0 :: reg.dropLast).getD r 0 = reg.getD (r - 1) 0 := by
  obtain ⟨k, rfl⟩ : ∃ k, r = k + 1 := ⟨r - 1, by omega⟩
  have hk : k < reg.length - 1 := by omega
  rw [List.getD_cons_succ, Nat.add_sub_cancel, List.getD_eq_getElem?_getD, List.getElem?_dropLast, if_pos hk,
    List.getD_eq_getElem?_getD]

/-- The register's last content feeds back (R152). -/
theorem getLastD_eq_getD (reg : List Word) : reg.getLastD 0 = reg.getD (reg.length - 1) 0 := by
  rw [List.getLastD_eq_getLast?, List.getLast?_eq_getElem?, List.getD_eq_getElem?_getD]

/-- What position `r` of GEN injects is the power of the sum of the exponents, or nothing for UNDEF (R152). -/
theorem inject_eq (f : Field) (fe : Nat) (g : Word) :
    f.inject fe g = if g = undef then 0 else f.exp.getD ((g.toNat + fe) % f.n) 0 := by
  rw [Field.inject, ← Int.natCast_add, Field.pow_natCast_getD]

/-- An all-zero register takes a zero symbol without change (R152). -/
theorem shiftRegister_zero (f : Field) (gen : List Word) (len : Nat) :
    f.shiftRegister gen (List.replicate (len + 1) 0) 0 = List.replicate (len + 1) 0 := by
  have hfb : (0 : Word) ^^^ (List.replicate (len + 1) 0).getLastD 0 = 0 := by
    rw [List.replicate_succ', List.getLastD_concat]; rfl
  rw [Field.shiftRegister, hfb, if_pos rfl, List.dropLast_replicate, Nat.add_sub_cancel, List.replicate_succ]

end Sys2Proof.Machine

open Sys2Proof Sys2Proof.Machine

/-- Settles O11: EXP holds the powers of alpha, each the one before it times alpha. -/
theorem initLeavesTheExponentTable : Obligations.InitLeavesTheExponentTable := by
  intro s t hs h e
  obtain rfl := exec_init_running hs h
  have hm8 := s.block.m_le_eight
  have hmn := s.block.m_lt_n
  have hexp : ∀ i, i ≤ s.block.n → e i = (alphaPow s.block.toParams i).toNat := fun i hi =>
    congrArg BitVec.toNat (buildExp_getD s.block hi)
  refine ⟨buildExp_length s.block, fun i hi => ?below, ?top, fun i hmi hi => ?above, ?last⟩
  case below => rw [hexp i (by omega), alphaPow_below_m s.block hi, powerOfTwo_toNat (by omega)]
  case top => rw [hexp _ (by omega), alphaPow_m, alphaToM_toNat]
  case above =>
    obtain ⟨k, rfl⟩ : ∃ k, i = k + 1 := ⟨i - 1, by omega⟩
    rw [Nat.add_sub_cancel, hexp (k + 1) (by omega), hexp k (by omega), hexp _ (by omega), alphaPow_m, alphaPow_succ,
      timesAlpha_toNat s.block (alphaPow_lt s.block k)]
  case last => rw [hexp _ (Nat.le_refl _), hexp 0 (Nat.zero_le _), alphaPow_n]; rfl

/-- Settles O19: the register shifts, and a nonzero feedback adds what each position of GEN injects. -/
theorem shiftRegisterPositions : Obligations.ShiftRegisterPositions := by
  intro f gen reg d hne hlen next fb product
  have hpos : 0 < reg.length := List.length_pos_iff.2 hne
  have hshift : (0 :: reg.dropLast).length = reg.length := by simp; omega
  have hfb : d ^^^ reg.getLastD 0 = fb := by rw [getLastD_eq_getD]
  refine ⟨f.shiftRegister_length gen reg d reg.length hpos hlen rfl, fun h0 => ?zero, fun h0 => ?nonzero⟩
  case zero =>
    have hnext : next = 0 :: reg.dropLast := by
      show f.shiftRegister gen reg d = _
      rw [Field.shiftRegister, hfb, if_pos h0]
    rw [hnext]
    exact ⟨rfl, fun r h1 hr => shifted_getD reg h1 hr⟩
  case nonzero =>
    have hnext : next = List.zipWith gfAdd (0 :: reg.dropLast) (gen.map (f.inject (f.logOf fb))) := by
      show f.shiftRegister gen reg d = _
      rw [Field.shiftRegister, hfb, if_neg h0]
    have hget (r : Nat) (hr : r < reg.length) : next.getD r 0 = (0 :: reg.dropLast).getD r 0 ^^^ product r := by
      have hinject : (gen.map (f.inject (f.logOf fb))).getD r 0 = product r := by
        have hrg : r < gen.length := by omega
        show _ = if gen.getD r 0 = undef then 0 else _
        rw [← inject_eq]
        simp [List.getD_eq_getElem?_getD, hrg]
      rw [hnext, zipWith_gfAdd_getD (by simp; omega), hinject]
    refine ⟨?_, fun r h1 hr => by rw [hget r hr, shifted_getD reg h1 hr]⟩
    rw [hget 0 hpos]
    exact BitVec.zero_xor

/-- Settles O20: the register stays all zeros. -/
theorem zeroDataGivesZeroParity : Obligations.ZeroDataGivesZeroParity := by
  intro f gen nk len hnk
  obtain ⟨k, rfl⟩ : ∃ k, nk = k + 1 := ⟨nk - 1, by omega⟩
  have hfold : (List.replicate len 0).foldl (f.shiftRegister (gen.take (k + 1))) (List.replicate (k + 1) 0) =
      List.replicate (k + 1) 0 := by
    induction len with
    | zero => rfl
    | succ len ih => rw [List.replicate_succ (n := len), List.foldl_cons, shiftRegister_zero, ih]
  rw [Field.parity, hfold, List.reverse_replicate]

/-- Settles O21: the encoder's word is a multiple of the generator (`syndromes_encoded`). -/
theorem encodedWordHasZeroSyndromes : Obligations.EncodedWordHasZeroSyndromes :=
  fun b _ hlen hdata => syndromes_encoded b hlen hdata

end

section
/-! PROOFS. The decoder's four outcomes (R171, R187, R192, R200, R203): a nonzero syndrome gives a final degree of at least 1, what
the root search reports, and what the correction does (R195 to R198). -/

namespace Sys2Proof.Machine

/-! ## The last row of the iteration -/

/-- The row the iteration ends with (R184). -/
def lastRow (rows : List BmRow) : BmRow := rowAt rows (rows.length - 1)

theorem lastRow_eq {rows : List BmRow} {u : Nat} (h : rows.length = u + 1) : lastRow rows = rowAt rows u := by
  rw [lastRow, h, Nat.add_sub_cancel]

@[simp] theorem lastRow_concat (rows : List BmRow) (row : BmRow) : lastRow (rows ++ [row]) = row := by
  rw [lastRow_eq (u := rows.length) (by simp), rowAt_append_length]

/-- The discrepancy a step leaves, for the locator and the degree it leaves (R183). -/
theorem bmStep_d (f : Field) (nk : Nat) (synd : List Word) (rows : List BmRow) (u : Nat) : (f.bmStep nk synd rows u).d =
    if u < nk then f.discrepancy synd u (f.bmStep nk synd rows u).l (f.bmStep nk synd rows u).sigma else 0 := rfl

/-- The loop goes on while steps are left and the degree is at most `T` (R184). -/
theorem bmLoop_continue (f : Field) {nk t u : Nat} {synd : List Word} (fuel : Nat) {rows : List BmRow} (hu : u < nk)
    (hl : (f.bmStep nk synd rows u).l ≤ t) : f.bmLoop nk t synd (fuel + 1) rows u =
      f.bmLoop nk t synd fuel (rows ++ [f.bmStep nk synd rows u]) (u + 1) := by
  simp only [Field.bmLoop, if_pos (And.intro hu hl)]

/-- Otherwise it ends with the row just written. -/
theorem bmLoop_stop (f : Field) {nk t u : Nat} {synd : List Word} (fuel : Nat) {rows : List BmRow}
    (h : ¬ (u < nk ∧ (f.bmStep nk synd rows u).l ≤ t)) : f.bmLoop nk t synd (fuel + 1) rows u =
      rows ++ [f.bmStep nk synd rows u] := by
  simp only [Field.bmLoop, if_neg h]

theorem length_le_bmLoop (f : Field) (nk t : Nat) (synd : List Word) (fuel : Nat) (rows : List BmRow) (u : Nat) :
    rows.length ≤ (f.bmLoop nk t synd fuel rows u).length := by
  induction fuel generalizing rows u with
  | zero => exact Nat.le_refl _
  | succ fuel ih =>
    by_cases h : u < nk ∧ (f.bmStep nk synd rows u).l ≤ t
    · rw [bmLoop_continue f fuel h.1 h.2]
      exact Nat.le_trans (by simp) (ih _ _)
    · rw [bmLoop_stop f fuel h]
      simp

/-- A step allowed writes its row. -/
theorem length_lt_bmLoop (f : Field) (nk t : Nat) (synd : List Word) (fuel : Nat) (rows : List BmRow) (u : Nat) :
    rows.length < (f.bmLoop nk t synd (fuel + 1) rows u).length := by
  have hnext : rows.length < (rows ++ [f.bmStep nk synd rows u]).length := by simp
  by_cases h : u < nk ∧ (f.bmStep nk synd rows u).l ≤ t
  · rw [bmLoop_continue f fuel h.1 h.2]
    exact Nat.lt_of_lt_of_le hnext (length_le_bmLoop ..)
  · rw [bmLoop_stop f fuel h]
    exact hnext

/-- The final degree is at least that of the last row written so far. -/
theorem l_le_lastRow_bmLoop (f : Field) {nk : Nat} (t : Nat) (synd : List Word) (fuel : Nat) {u : Nat} {rows : List BmRow}
    (h : RowsWf nk rows) (hlen : rows.length = u + 1) :
    (rowAt rows u).l ≤ (lastRow (f.bmLoop nk t synd fuel rows u)).l := by
  induction fuel generalizing u rows with
  | zero => rw [Field.bmLoop, lastRow_eq hlen]
  | succ fuel ih =>
    obtain ⟨-, hle, -⟩ := bmStep_wf f synd h hlen
    refine Nat.le_trans hle ?_
    by_cases hc : u < nk ∧ (f.bmStep nk synd rows u).l ≤ t
    · rw [bmLoop_continue f fuel hc.1 hc.2]
      have hnew := rowAt_append_length rows (f.bmStep nk synd rows u)
      have := ih (u := u + 1) (rowsWf_append_bmStep f synd h hlen) (by simp [hlen])
      rwa [← hlen, hnew, hlen] at this
    · rw [bmLoop_stop f fuel hc, lastRow_concat]

/-- A step on a nonzero discrepancy leaves a degree of at least 1: the selected row lies before it (R182). -/
theorem bmStep_l_pos (f : Field) {nk u : Nat} (synd : List Word) {rows : List BmRow} (h : RowsWf nk rows)
    (hu : 1 ≤ u) (hd : (rowAt rows u).d ≠ 0) : 1 ≤ (f.bmStep nk synd rows u).l := by
  have hq := (latestMaximum_selectRow h.start hu).lt
  have hl : (f.bmStep nk synd rows u).l = max (rowAt rows u).l ((rowAt rows (selectRow rows u)).l + u - selectRow rows u) :=
    if_neg hd
  omega

/-- As long as the degree stays 0, each step's discrepancy is the next syndrome and has to be zero (R183). -/
theorem syndromes_zero_of_lastRow_l (f : Field) {nk : Nat} (t : Nat) (synd : List Word) (fuel : Nat) {u : Nat}
    {rows : List BmRow} (h : RowsWf nk rows) (hlen : rows.length = u + 1) (hu : 1 ≤ u) (hfuel : nk < u + fuel)
    (hd : (rowAt rows u).d = syndromeAt synd u)
    (hl : (lastRow (f.bmLoop nk t synd fuel rows u)).l = 0) : ∀ i, u ≤ i → i ≤ nk → syndromeAt synd i = 0 := by
  induction fuel generalizing u rows with
  | zero => intro i h1 h2; omega
  | succ fuel ih =>
    have hnextWf := rowsWf_append_bmStep f synd h hlen
    have hnextLen : (rows ++ [f.bmStep nk synd rows u]).length = u + 1 + 1 := by simp [hlen]
    have hnew : rowAt (rows ++ [f.bmStep nk synd rows u]) (u + 1) = f.bmStep nk synd rows u := by
      rw [← hlen, rowAt_append_length]
    have hrow : (f.bmStep nk synd rows u).l = 0 := by
      have hle := l_le_lastRow_bmLoop f t synd fuel hnextWf hnextLen
      rw [hnew] at hle
      by_cases hc : u < nk ∧ (f.bmStep nk synd rows u).l ≤ t
      · rw [bmLoop_continue f fuel hc.1 hc.2] at hl; omega
      · rw [bmLoop_stop f fuel hc, lastRow_concat] at hl; exact hl
    have hd0 : (rowAt rows u).d = 0 := by
      by_contra hne
      have := bmStep_l_pos f synd h hu hne
      omega
    intro i h1 h2
    obtain rfl | hlt := Nat.eq_or_lt_of_le h1
    · exact hd.symm.trans hd0
    · have hunk : u < nk := by omega
      have hdisc : (f.bmStep nk synd rows u).d = syndromeAt synd (u + 1) := by
        rw [bmStep_d, if_pos hunk, hrow]
        exact BitVec.xor_zero
      rw [bmLoop_continue f fuel hunk (by omega)] at hl
      exact ih hnextWf hnextLen (by omega) (by omega) (by rw [hnew, hdisc]) hl i hlt h2

/-- A nonzero syndrome makes the final degree at least 1. -/
theorem one_le_berlekampMassey_l (f : Field) {nk : Nat} (t : Nat) {synd : List Word} (hlen : synd.length = nk)
    (h : ∃ x ∈ synd, x ≠ 0) : 1 ≤ (f.berlekampMassey nk t synd).l := by
  obtain ⟨x, hx, hne⟩ := h
  obtain ⟨j, hj, rfl⟩ := List.mem_iff_getElem.1 hx
  by_contra hlt
  have hl : (lastRow (f.bmLoop nk t synd nk (startRows synd nk) 1)).l = 0 := Nat.lt_one_iff.1 (Nat.not_le.1 hlt)
  have hzero := syndromes_zero_of_lastRow_l f t synd nk (u := 1) (rowsWf_startRows synd nk) rfl (Nat.le_refl 1) (by omega) rfl hl
    (j + 1) (by omega) (by omega)
  rw [syndromeAt, Nat.add_sub_cancel, List.getD_eq_getElem _ _ hj] at hzero
  exact hne hzero

/-- Between 1 and NK steps run (R184). -/
theorem berlekampMassey_steps (f : Field) {nk : Nat} (t : Nat) (synd : List Word) (hnk : 1 ≤ nk) :
    1 ≤ (f.berlekampMassey nk t synd).steps ∧ (f.berlekampMassey nk t synd).steps ≤ nk := by
  obtain ⟨-, hle⟩ := bmRows_wf f nk t synd
  obtain ⟨k, rfl⟩ : ∃ k, nk = k + 1 := ⟨nk - 1, by omega⟩
  have hlt := length_lt_bmLoop f (k + 1) t synd k (startRows synd (k + 1)) 1
  have hstart : (startRows synd (k + 1)).length = 2 := rfl
  show 1 ≤ (f.bmLoop (k + 1) t synd (k + 1) (startRows synd (k + 1)) 1).length - 2 ∧
    (f.bmLoop (k + 1) t synd (k + 1) (startRows synd (k + 1)) 1).length - 2 ≤ k + 1
  omega

/-! ## The reported positions -/

theorem padded_getD (len : Nat) (l : List Word) (c : Nat) :
    (padded len l).getD c 0 = if c < len then l.getD c 0 else 0 := by
  have hzero (i : Nat) : (List.replicate len (0 : Word))[i]?.getD (0 : Word) = 0 :=
    List.getElem?_getD_replicate_default_eq 0 len i
  rw [padded, List.getD_eq_getElem?_getD, List.getElem?_take]
  split
  · rw [List.getElem?_append, List.getD_eq_getElem?_getD]
    split
    · rfl
    · rw [hzero, List.getElem?_eq_none (by omega)]; rfl
  · rfl

/-- What ERRPOS holds once the root search has run: the indices the roots mark, then zeros (R189, R51). -/
def Field.positions (f : Field) (t : Nat) (loc : Locator) : List Word :=
  padded t ((f.roots loc).map fun i => BitVec.ofNat 32 (f.rootIndex i))

section
variable (f : Field) (loc : Locator)

theorem roots_getD_bounds {c : Nat} (h : c < (f.roots loc).length) :
    1 ≤ (f.roots loc).getD c 0 ∧ (f.roots loc).getD c 0 ≤ f.n := by
  rw [List.getD_eq_getElem _ _ h]
  obtain ⟨h1, hn, -⟩ := Field.mem_roots.1 (List.getElem_mem h)
  exact ⟨h1, hn⟩

theorem roots_getD_lt {c d : Nat} (hcd : c < d) (hd : d < (f.roots loc).length) :
    (f.roots loc).getD c 0 < (f.roots loc).getD d 0 := by
  rw [List.getD_eq_getElem _ _ (hcd.trans hd), List.getD_eq_getElem _ _ hd]
  exact List.pairwise_iff_getElem.1 (f.roots_ascending loc) c d _ hd hcd

theorem positions_getD (t c : Nat) : (f.positions t loc).getD c 0 =
    if c < t ∧ c < (f.roots loc).length then BitVec.ofNat 32 ((f.roots loc).getD c 0 - 1) else 0 := by
  rw [Field.positions, padded_getD]
  by_cases hc : c < (f.roots loc).length
  · obtain ⟨h1, hn⟩ := roots_getD_bounds f loc hc
    rw [List.getD_eq_getElem _ _ (by simpa using hc), List.getElem_map, ← List.getD_eq_getElem _ 0 hc,
      f.rootIndex_eq h1 hn]
    simp [hc]
  · rw [List.getD_eq_default _ _ (by simpa using hc), ite_self, if_neg (not_and_of_not_right _ hc)]

/-- A reported position as an integer: the root marks the index one below its exponent (R189). -/
theorem positions_toNat {t c : Nat} (hn : f.n ≤ 255) (ht : c < t) (hc : c < (f.roots loc).length) :
    ((f.positions t loc).getD c 0).toNat = (f.roots loc).getD c 0 - 1 := by
  have := roots_getD_bounds f loc hc
  rw [positions_getD, if_pos ⟨ht, hc⟩, BitVec.toNat_ofNat]
  exact Nat.mod_eq_of_lt (by omega)

/-- The reported positions are buffer indices and ascend. -/
theorem positions_ascend {t : Nat} (hn : f.n ≤ 255) (ht : (f.roots loc).length ≤ t) :
    (∀ c < (f.roots loc).length, ((f.positions t loc).getD c 0).toNat < f.n) ∧
    (∀ c, c + 1 < (f.roots loc).length →
      ((f.positions t loc).getD c 0).toNat < ((f.positions t loc).getD (c + 1) 0).toNat) := by
  refine ⟨fun c hc => ?_, fun c hc => ?_⟩
  · have := roots_getD_bounds f loc hc
    rw [positions_toNat f loc hn (by omega) hc]
    omega
  · have := roots_getD_bounds f loc (Nat.lt_of_succ_lt hc)
    have := roots_getD_lt f loc (Nat.lt_add_one c) hc
    rw [positions_toNat f loc hn (by omega) (by omega), positions_toNat f loc hn (by omega) hc]
    omega

end

/-! ## The four outcomes -/

theorem allZero_iff (l : List Word) : allZero l = true ↔ ∀ x ∈ l, x = 0 := by
  simp [allZero]

section
variable (f : Field) {nk t : Nat} {rx : List Word}

theorem decodeWord_highDegree (hz : ¬ allZero (f.syndromes nk rx) = true)
    (hl : t < (f.berlekampMassey nk t (f.syndromes nk rx)).l) : f.decodeWord nk t rx =
      { synd := f.syndromes nk rx, outcome := .uncorrHighDegree, l := (f.berlekampMassey nk t (f.syndromes nk rx)).l,
        count := 0, steps := (f.berlekampMassey nk t (f.syndromes nk rx)).steps, errpos := List.replicate t 0,
        errval := List.replicate t 0, out := rx } := by
  simp only [Field.decodeWord, if_neg hz, if_pos hl]

theorem decodeWord_rootMismatch (hz : ¬ allZero (f.syndromes nk rx) = true) {loc : Locator}
    (hloc : f.berlekampMassey nk t (f.syndromes nk rx) = loc) (hl : ¬ t < loc.l) (hr : (f.roots loc).length ≠ loc.l) :
    f.decodeWord nk t rx =
      { synd := f.syndromes nk rx, outcome := .uncorrRootMismatch, l := loc.l, count := (f.roots loc).length,
        steps := loc.steps, errpos := f.positions t loc, errval := List.replicate t 0, out := rx } := by
  subst hloc
  simp only [Field.decodeWord, if_neg hz, if_neg hl, if_pos hr]
  rfl

theorem decodeWord_corrected (hz : ¬ allZero (f.syndromes nk rx) = true) {loc : Locator}
    (hloc : f.berlekampMassey nk t (f.syndromes nk rx) = loc) (hl : ¬ t < loc.l) (hr : (f.roots loc).length = loc.l) :
    f.decodeWord nk t rx =
      { synd := f.syndromes nk rx, outcome := .corrected, l := loc.l, count := (f.roots loc).length, steps := loc.steps,
        errpos := f.positions t loc, errval := padded t (f.magnitudes (f.syndromes nk rx) loc (f.roots loc)),
        out := f.correct rx (f.roots loc) (f.magnitudes (f.syndromes nk rx) loc (f.roots loc)) } := by
  subst hloc
  simp only [Field.decodeWord, if_neg hz, if_neg hl, hr, ne_eq, not_true_eq_false, if_false]
  rfl

/-- The outcomes in their order (R249). -/
theorem decodeWord_outcome : (f.decodeWord nk t rx).outcome =
    if allZero (f.syndromes nk rx) then .noError
    else if t < (f.berlekampMassey nk t (f.syndromes nk rx)).l then .uncorrHighDegree
    else if (f.roots (f.berlekampMassey nk t (f.syndromes nk rx))).length ≠ (f.berlekampMassey nk t (f.syndromes nk rx)).l
      then .uncorrRootMismatch
    else .corrected := by
  simp only [Field.decodeWord]
  split_ifs <;> rfl

/-- When a DECODE ends UNCORR_ROOT_MISMATCH (R192). -/
theorem of_outcome_rootMismatch (h : (f.decodeWord nk t rx).outcome = .uncorrRootMismatch) :
    ¬ allZero (f.syndromes nk rx) = true ∧ ¬ t < (f.berlekampMassey nk t (f.syndromes nk rx)).l ∧
    (f.roots (f.berlekampMassey nk t (f.syndromes nk rx))).length ≠ (f.berlekampMassey nk t (f.syndromes nk rx)).l := by
  rw [decodeWord_outcome] at h
  split_ifs at h with hz hl hr
  exact ⟨hz, hl, hr⟩

/-- When a DECODE ends CORRECTED (R193). -/
theorem of_outcome_corrected (h : (f.decodeWord nk t rx).outcome = .corrected) :
    ¬ allZero (f.syndromes nk rx) = true ∧ ¬ t < (f.berlekampMassey nk t (f.syndromes nk rx)).l ∧
    (f.roots (f.berlekampMassey nk t (f.syndromes nk rx))).length = (f.berlekampMassey nk t (f.syndromes nk rx)).l := by
  rw [decodeWord_outcome] at h
  split_ifs at h with hz hl hr
  exact ⟨hz, hl, not_not.1 hr⟩

end

end Sys2Proof.Machine

open Sys2Proof Sys2Proof.Machine

/-- Settles O29: the outcome is decided by the final degree and the number of roots; a nonzero syndrome makes the degree at least 1
(`one_le_berlekampMassey_l`), and over built tables the roots are at most as many as the degree (`roots_length_le`). -/
theorem nonzeroSyndromeOutcomes : Obligations.NonzeroSyndromeOutcomes := by
  refine ⟨?outcomes, ?mismatch⟩
  case outcomes =>
    intro f nk t rx hnk hne r roots reportsRoots
    have hz : ¬ allZero (f.syndromes nk rx) = true := fun h => by
      obtain ⟨x, hx, hx0⟩ := hne
      exact hx0 ((allZero_iff _).1 h x hx)
    have hl1 := one_le_berlekampMassey_l f t (f.syndromes_length nk rx) hne
    have hlnk := berlekampMassey_l_le f nk t (f.syndromes nk rx)
    obtain ⟨hs1, hsnk⟩ := berlekampMassey_steps f t (f.syndromes nk rx) hnk
    obtain ⟨loc, hloc⟩ : ∃ loc, f.berlekampMassey nk t (f.syndromes nk rx) = loc := ⟨_, rfl⟩
    have hroots : roots = f.roots loc := by rw [← hloc]
    have hreport (hcount : r.count = roots.length) (herrpos : r.errpos = f.positions t loc) : reportsRoots := by
      refine ⟨hcount, by rw [herrpos]; exact padded_length _ _, fun c hc => ?_⟩
      rw [herrpos, hcount, hroots]
      simp only [positions_getD, hc, true_and]
    rw [hloc] at hl1 hlnk hs1 hsnk
    by_cases hl : t < loc.l
    · have hr : r = _ := decodeWord_highDegree f hz (by rw [hloc]; exact hl)
      rw [hloc] at hr
      rw [hr]
      exact ⟨rfl, ⟨hs1, hsnk, hl1, hlnk⟩, .inr (.inl ⟨rfl, hl, rfl, rfl, rfl, rfl⟩)⟩
    · by_cases hcount : (f.roots loc).length = loc.l
      · have hr : r = _ := decodeWord_corrected f hz hloc hl hcount
        have hreports := hreport (by rw [hr, hroots]) (by rw [hr])
        rw [hr]
        exact ⟨rfl, ⟨hs1, hsnk, hl1, hlnk⟩, .inl ⟨rfl, Nat.not_lt.1 hl, hcount, hreports⟩⟩
      · have hr : r = _ := decodeWord_rootMismatch f hz hloc hl hcount
        have hreports := hreport (by rw [hr, hroots]) (by rw [hr])
        rw [hr]
        exact ⟨rfl, ⟨hs1, hsnk, hl1, hlnk⟩, .inr (.inr ⟨rfl, Nat.not_lt.1 hl, hcount, hreports, rfl, rfl⟩)⟩
  case mismatch =>
    intro b rx _ r hout
    obtain ⟨hz, hl, hne⟩ := of_outcome_rootMismatch _ hout
    have hle := roots_length_le b _ (berlekampMassey_symbols (buildField_symbols b) (Nat.lt_of_lt_of_le Nat.two_pos b.two_le_m)
      b.nk b.t ((buildField b.toParams).syndromes b.nk rx))
    obtain ⟨hlt, hascend⟩ := positions_ascend (buildField b.toParams)
      ((buildField b.toParams).berlekampMassey b.nk b.t ((buildField b.toParams).syndromes b.nk rx))
      (t := b.t) b.parameters_le.2.2.2 (hle.trans (Nat.not_lt.1 hl))
    have hr : r = _ := decodeWord_rootMismatch _ hz rfl hl hne
    rw [hr]
    exact ⟨Nat.lt_of_le_of_ne hle hne, hlt, hascend⟩

end

section
/-! PROOFS. The correction (R195 to R198): each located entry gets its magnitude XORed in, and the magnitudes are Forney's, term by
term. -/

namespace Sys2Proof.Machine

/-! ## Magnitudes into entries -/

theorem correctEntry_getD (rx : List Word) (fix : Nat × Word) (x : Nat) : (correctEntry rx fix).getD x 0 =
    if fix.1 = x ∧ x < rx.length then rx.getD x 0 ^^^ fix.2 else rx.getD x 0 := by
  rw [correctEntry, List.getD_eq_getElem?_getD, List.getElem?_set]
  by_cases hx : fix.1 = x
  · subst hx
    by_cases hlt : fix.1 < rx.length
    · simp [hlt]
    · simp [hlt]
  · simp [hx]

/-- An entry no correction names stays. -/
theorem foldl_correctEntry_of_ne {fixes : List (Nat × Word)} {x : Nat} (h : ∀ fix ∈ fixes, fix.1 ≠ x) (rx : List Word) :
    (fixes.foldl correctEntry rx).getD x 0 = rx.getD x 0 := by
  induction fixes generalizing rx with
  | nil => rfl
  | cons fix fixes ih =>
    obtain ⟨hfix, hrest⟩ := List.forall_mem_cons.1 h
    rw [List.foldl_cons, ih hrest, correctEntry_getD, if_neg fun h => hfix h.1]

/-- With each entry named once, a named entry gets its magnitude. -/
theorem foldl_correctEntry_of_mem {fixes : List (Nat × Word)} {fix : Nat × Word} (hnd : (fixes.map Prod.fst).Nodup)
    (hmem : fix ∈ fixes) {rx : List Word} (hlt : fix.1 < rx.length) :
    (fixes.foldl correctEntry rx).getD fix.1 0 = rx.getD fix.1 0 ^^^ fix.2 := by
  induction fixes generalizing rx with
  | nil => cases hmem
  | cons first fixes ih =>
    obtain ⟨hnotin, hnd⟩ := List.nodup_cons.1 hnd
    have hother : ∀ other ∈ fixes, other.1 ≠ first.1 := fun other ho e => hnotin (e ▸ List.mem_map_of_mem ho)
    rw [List.foldl_cons]
    obtain rfl | hmem := List.mem_cons.1 hmem
    · rw [foldl_correctEntry_of_ne hother, correctEntry_getD, if_pos ⟨rfl, hlt⟩]
    · have hne : first.1 ≠ fix.1 := (hother fix hmem).symm
      rw [ih hnd hmem (by rwa [correctEntry_length]), correctEntry_getD, if_neg fun h => hne h.1]

section
variable (f : Field) (loc : Locator)

theorem roots_nodup : ((f.roots loc).map f.rootIndex).Nodup := by
  refine List.Nodup.map_on (fun i hi j hj e => ?_) ((f.roots_ascending loc).imp Nat.ne_of_lt)
  obtain ⟨hi1, hin, -⟩ := Field.mem_roots.1 hi
  obtain ⟨hj1, hjn, -⟩ := Field.mem_roots.1 hj
  rw [f.rootIndex_eq hi1 hin, f.rootIndex_eq hj1 hjn] at e
  omega

/-- The entry a root marks gets the root's magnitude (R198). -/
theorem correct_getD_root {rx mags : List Word} (hrx : rx.length = f.n) (hmags : mags.length = (f.roots loc).length) {c : Nat}
    (hc : c < (f.roots loc).length) : (f.correct rx (f.roots loc) mags).getD ((f.roots loc).getD c 0 - 1) 0 =
      rx.getD ((f.roots loc).getD c 0 - 1) 0 ^^^ mags.getD c 0 := by
  obtain ⟨h1, hn⟩ := roots_getD_bounds f loc hc
  have hnd : (List.map Prod.fst (((f.roots loc).map f.rootIndex).zip mags)).Nodup := by
    rw [List.map_fst_zip (by simp [hmags])]
    exact roots_nodup f loc
  have hmem : ((f.roots loc).getD c 0 - 1, mags.getD c 0) ∈ ((f.roots loc).map f.rootIndex).zip mags := by
    refine List.mem_iff_getElem.2 ⟨c, by simp [hmags, hc], ?_⟩
    rw [List.getElem_zip, List.getElem_map, ← List.getD_eq_getElem _ 0 hc, ← List.getD_eq_getElem _ 0 (by omega),
      f.rootIndex_eq h1 hn]
  exact foldl_correctEntry_of_mem hnd hmem (by omega)

/-- An entry no root marks stays (R198). -/
theorem correct_getD_other {rx mags : List Word} {x : Nat}
    (h : ∀ c < (f.roots loc).length, (f.roots loc).getD c 0 - 1 ≠ x) :
    (f.correct rx (f.roots loc) mags).getD x 0 = rx.getD x 0 := by
  refine foldl_correctEntry_of_ne (fun fix hfix => ?_) rx
  obtain ⟨i, hi, he⟩ := List.mem_map.1 (List.of_mem_zip hfix).1
  obtain ⟨h1, hn, -⟩ := Field.mem_roots.1 hi
  obtain ⟨c, hc, rfl⟩ := List.mem_iff_getElem.1 hi
  have := h c hc
  rwa [List.getD_eq_getElem _ _ hc, ← f.rootIndex_eq h1 hn, he] at this

/-! ## Sums and products as the rules write them -/

/-- A running sum over the terms 1 to `len`. -/
theorem foldl_xor_range' (g : Nat → Word) (start : Word) (len : Nat) :
    (List.range' 1 len).foldl (fun sum j => sum ^^^ g j) start = start ^^^ xorSum len fun j => g (j + 1) := by
  induction len with
  | zero => exact BitVec.xor_zero.symm
  | succ len ih =>
    rw [List.range'_1_concat, List.foldl_append, ih, Nat.add_comm 1 len, xorSum, ← BitVec.xor_assoc]
    rfl

theorem evaluator_eq_foldl (synd : List Word) {i : Nat} (hi : 1 ≤ i) : f.evaluator synd loc i =
    (List.range' 1 (i - 1)).foldl (fun sum j => sum ^^^ f.mul (syndromeAt synd j) (coeff loc.sigma (i - j)))
      (syndromeAt synd i ^^^ coeff loc.sigma i) := by
  rw [foldl_xor_range', Field.evaluator, if_neg (by omega)]

theorem numerator_eq_foldl (synd : List Word) (root : Nat) : f.numerator synd loc root =
    (List.range' 1 loc.l).foldl (fun sum j => sum ^^^ f.mul (f.evaluator synd loc j) (f.pow (j * root : Nat))) 1 := by
  rw [foldl_xor_range', Field.numerator]

theorem denominator_eq_foldl (roots : List Nat) (c : Nat) : f.denominator roots c =
    ((List.range roots.length).filter (· ≠ c)).foldl
      (fun product j => f.mul product (1 ^^^ f.pow ((f.n - roots.getD j 0) + roots.getD c 0 : Nat))) 1 := by
  rw [Field.denominator, List.foldl_filter]
  refine List.foldl_ext _ _ _ fun product j _ => ?_
  by_cases hj : j = c <;> simp [hj]

theorem magnitudes_length (synd : List Word) (roots : List Nat) :
    (f.magnitudes synd loc roots).length = roots.length := by simp [Field.magnitudes]

theorem magnitudes_getD (synd : List Word) {roots : List Nat} {c : Nat} (hc : c < roots.length) :
    (f.magnitudes synd loc roots).getD c 0 = f.magnitude synd loc roots c := by
  simp [Field.magnitudes, List.getD_eq_getElem?_getD, hc]

end

end Sys2Proof.Machine

open Sys2Proof Sys2Proof.Machine

/-- Settles O33: the located entries are distinct, so each gets its one magnitude; the sums and the product of Forney's formula are
those of the model, with `root = ERRPOS + 1`. -/
theorem correctionAppliesTheReportedMagnitudes : Obligations.CorrectionAppliesTheReportedMagnitudes := by
  intro f nk t rx hrx hn r hout
  obtain ⟨hz, hl, hcount⟩ := of_outcome_corrected f hout
  obtain ⟨loc, hloc⟩ : ∃ loc, f.berlekampMassey nk t (f.syndromes nk rx) = loc := ⟨_, rfl⟩
  rw [hloc] at hl hcount
  have hr : r = _ := decodeWord_corrected f hz hloc hl hcount
  have hindex : ∀ c < (f.roots loc).length, ((f.positions t loc).getD c 0).toNat = (f.roots loc).getD c 0 - 1 :=
    fun c hc => positions_toNat f loc hn (by omega) hc
  have hroot : ∀ c < (f.roots loc).length, ((f.positions t loc).getD c 0).toNat + 1 = (f.roots loc).getD c 0 := fun c hc => by
    have := (roots_getD_bounds f loc hc).1
    rw [hindex c hc]
    omega
  have hmags := magnitudes_length f loc (f.syndromes nk rx) (f.roots loc)
  obtain ⟨hlt, hascend⟩ := positions_ascend f loc hn (by omega : (f.roots loc).length ≤ t)
  have hval : ∀ c, (padded t (f.magnitudes (f.syndromes nk rx) loc (f.roots loc))).getD c 0 =
      (f.magnitudes (f.syndromes nk rx) loc (f.roots loc)).getD c 0 := fun c => by
    rw [padded_getD]
    split
    · rfl
    · exact (List.getD_eq_default _ _ (by omega)).symm
  rw [hr]
  intro synd sigma index position
  have hsigma : sigma = coeff loc.sigma := by rw [← hloc]; rfl
  refine ⟨fun c hc => ⟨hlt c hc, ?located⟩, fun x hx => ?other, hascend,
    ⟨padded_length _ _, padded_length _ _, fun c (hc : (f.roots loc).length ≤ c) => ⟨?padPos, ?padVal⟩⟩,
    f.evaluator (f.syndromes nk rx) loc, rfl, fun i h1 _ => ?evaluator, fun c (hc : c < (f.roots loc).length) => ?forney⟩
  case located =>
    have hi : index c = (f.roots loc).getD c 0 - 1 := hindex c hc
    rw [hi]
    exact (correct_getD_root f loc hrx hmags hc).trans (congrArg _ (hval c).symm)
  case other => exact correct_getD_other f loc fun c hc => hindex c hc ▸ hx c hc
  case padPos => rw [positions_getD, if_neg fun h => Nat.not_lt.2 hc h.2]
  case padVal => rw [hval, List.getD_eq_default _ _ (by omega)]
  case evaluator => rw [evaluator_eq_foldl f loc _ h1, hsigma]; rfl
  case forney =>
    intro root num den
    have hroot' : root = (f.roots loc).getD c 0 := hroot c hc
    have hnum : num = f.numerator (f.syndromes nk rx) loc ((f.roots loc).getD c 0) := by
      rw [numerator_eq_foldl, ← hroot']
    have hden : den = f.denominator (f.roots loc) c := by
      rw [denominator_eq_foldl, ← hroot']
      refine List.foldl_ext _ _ _ fun product j hj => ?_
      have hjlt := List.mem_range.1 (List.mem_filter.1 hj).1
      have hplace : position j = f.n - (f.roots loc).getD j 0 := by
        show f.n - 1 - ((f.positions t loc).getD j 0).toNat = _
        have := hroot j hjlt
        omega
      rw [hplace]
    rw [hnum, hden, hval, magnitudes_getD f loc _ hc]
    rfl

end

section
/-! PROOFS. One symbol error in a codeword (R199): its syndromes are a geometric sequence, on which the iteration settles after two
steps on the locator `1 + X*x`; its one root marks the entry, and Forney's formula gives the error's value. -/

namespace Sys2Proof.Machine

section
variable (b : Block)

/-! ## Arithmetic on symbols -/

theorem mul_one_symbol {x : Word} (hx : x.toNat < b.q) : (buildField b.toParams).mul x 1 = x := by
  rw [Field.mul_comm, one_mul_symbol b hx]

theorem n_lt_two_pow_m : (buildField b.toParams).n < 2 ^ b.m := by
  have := b.n_succ
  show b.n < b.q
  omega

theorem div_one_symbol {x : Word} (hx : x.toNat < b.q) : (buildField b.toParams).div x 1 = x := by
  have hdiv : ((buildField b.toParams).div x 1).toNat < b.q := Field.div_lt (buildField_symbols b) (n_lt_two_pow_m b) x 1
  exact (mul_one_symbol b hdiv).symm.trans (div_mul_cancel_symbol b hx (one_lt_q b) (by decide))

/-- A nonzero factor cancels. -/
theorem mul_right_cancel_symbol {x y z : Word} (hx : x.toNat < b.q) (hy : y.toNat < b.q) (hz : z.toNat < b.q) (hz0 : z ≠ 0)
    (h : (buildField b.toParams).mul x z = (buildField b.toParams).mul y z) : x = y := by
  have hsum : (buildField b.toParams).mul (x ^^^ y) z = 0 := by rw [xor_mul b hz hx hy, h]; exact BitVec.xor_self
  exact BitVec.xor_eq_zero_iff.1 (((mul_eq_zero_iff_symbols b (xor_lt b.m hx hy) hz).1 hsum).resolve_right hz0)

/-- A power of alpha is 1 exactly at the multiples of N (R124). -/
theorem alphaPow_eq_one_iff (i : Nat) : alphaPow b.toParams i = 1 ↔ i % b.n = 0 := by
  rw [← alphaPow_mod]
  refine ⟨fun h => alphaPow_injOn b (Nat.mod_lt _ b.n_pos) b.n_pos h, fun h => by rw [h]; rfl⟩

/-! ## The syndromes of one error -/

/-- A sum in which one term has a word added. -/
theorem xorSum_xor_single {len p : Nat} (hp : p < len) {g h : Nat → Word} {w : Word} (hsame : ∀ i < len, i ≠ p → g i = h i)
    (hat : g p = h p ^^^ w) : xorSum len g = xorSum len h ^^^ w := by
  induction len with
  | zero => omega
  | succ len ih =>
    rw [xorSum, xorSum]
    obtain rfl | hlt := Nat.eq_or_lt_of_le (Nat.le_of_lt_succ hp)
    · rw [hat, xorSum_congr p g h fun i hi => hsame i (by omega) (by omega), BitVec.xor_assoc]
    · rw [ih hlt fun i hi => hsame i (by omega), hsame len (by omega) (by omega)]
      ac_rfl

/-- An error in entry `p` adds its product by `alpha^(i*(N-1-p))` to the syndrome `i` (R172). -/
theorem syndrome_set {code : List Word} (hlen : code.length = b.n) (hcode : AllSymbols b.m code) {p : Nat} (hp : p < b.n)
    {e : Word} (he : e.toNat < b.q) (i : Nat) :
    (buildField b.toParams).syndrome (code.set p (code.getD p 0 ^^^ e)) i =
      (buildField b.toParams).syndrome code i ^^^
        (buildField b.toParams).mul e (alphaPow b.toParams (i * (b.n - 1 - p))) := by
  refine xorSum_xor_single hp (fun s _ hne => ?_) ?_
  · rw [List.getD_eq_getElem?_getD, List.getElem?_set_ne (Ne.symm hne), ← List.getD_eq_getElem?_getD]
  · have hset : (code.set p (code.getD p 0 ^^^ e)).getD p 0 = code.getD p 0 ^^^ e := by
      simp [List.getD_eq_getElem?_getD, hlen, hp]
    rw [hset, pow_natCast]
    exact xor_mul b (alphaPow_lt b _) (coeff_lt hcode p) he

/-- The syndromes of an error of value `e` at the position whose power is `x`: `S_i = e * x^i`, each `x` times the one before. -/
structure ErrorSyndromes (nk : Nat) (synd : List Word) (e x : Word) : Prop where
  value : e.toNat < b.q
  value_ne_zero : e ≠ 0
  place : x.toNat < b.q
  place_ne_zero : x ≠ 0
  first : syndromeAt synd 1 = (buildField b.toParams).mul e x
  next : ∀ u, 1 ≤ u → u < nk → syndromeAt synd (u + 1) = (buildField b.toParams).mul x (syndromeAt synd u)

theorem errorSyndromes_of_mul {nk k : Nat} {synd : List Word} {e : Word} (he : e.toNat < b.q) (he0 : e ≠ 0) (hnk : 1 ≤ nk)
    (h : ∀ i, 1 ≤ i → i ≤ nk → syndromeAt synd i = (buildField b.toParams).mul e (alphaPow b.toParams (i * k))) :
    ErrorSyndromes b nk synd e (alphaPow b.toParams k) where
  value := he
  value_ne_zero := he0
  place := alphaPow_lt b k
  place_ne_zero := alphaPow_ne_zero b k
  first := by rw [h 1 (Nat.le_refl 1) hnk, Nat.one_mul]
  next u h1 hu := by
    rw [h (u + 1) (by omega) hu, h u h1 (by omega), mul_mul b (alphaPow_lt b k) he (alphaPow_lt b _), mul_alphaPow,
      Nat.succ_mul, Nat.add_comm]

/-- The row of the error's locator: degree 1, linear coefficient `x`, nothing left to correct. -/
structure Located (x : Word) (row : BmRow) : Prop where
  degree : row.l = 1
  linear : coeff row.sigma 1 = x
  settled : row.d = 0

/-- At step 2 the latest row with a nonzero discrepancy, row 1, is no worse than row 0 (R179). -/
theorem selectRow_two {nk : Nat} {synd : List Word} {row : BmRow} (h1 : syndromeAt synd 1 ≠ 0) : selectRow (startRows synd nk ++ [row]) 2 = 1 := by
  have hlatest : latestNonzero (startRows synd nk ++ [row]) 1 = 1 := if_neg h1
  have himprove : improveRow (startRows synd nk ++ [row]) 1 1 = 1 :=
    if_neg fun ⟨_, (hul : (0 : Int) < -1)⟩ => by omega
  rw [selectRow]
  exact (congrArg (fun q => improveRow (startRows synd nk ++ [row]) q q) hlatest).trans himprove

section
variable {b} {nk t : Nat} {synd : List Word} {e x : Word} (h : ErrorSyndromes b nk synd e x)
include h

theorem ErrorSyndromes.first_lt : (syndromeAt synd 1).toNat < b.q := by
  rw [h.first]; exact Field.mul_lt (buildField_symbols b) _ _

theorem ErrorSyndromes.first_ne_zero : syndromeAt synd 1 ≠ 0 := by
  rw [h.first]
  exact fun h0 => ((mul_eq_zero_iff_symbols b h.value h.place).1 h0).elim h.value_ne_zero h.place_ne_zero

/-! ## The iteration on one error -/

/-- With the locator `1 + x * X` the next discrepancy is zero (R183). -/
theorem ErrorSyndromes.discrepancy_eq_zero {u : Nat} (h1 : 1 ≤ u) (hu : u < nk) {sigma : List Word} (hs : coeff sigma 1 = x) :
    (buildField b.toParams).discrepancy synd u 1 sigma = 0 := by
  show syndromeAt synd (u + 1) ^^^ (0 ^^^ (buildField b.toParams).mul (syndromeAt synd u) (coeff sigma 1)) = 0
  rw [h.next u h1 hu, hs, Field.mul_comm]
  exact (congrArg _ BitVec.zero_xor).trans BitVec.xor_self

/-- A row of degree 1 with the error's linear coefficient has a zero discrepancy. -/
theorem ErrorSyndromes.located_bmStep {rows : List BmRow} {u : Nat} (h1 : 1 ≤ u)
    (hl : ((buildField b.toParams).bmStep nk synd rows u).l = 1)
    (hs : coeff ((buildField b.toParams).bmStep nk synd rows u).sigma 1 = x) :
    Located x ((buildField b.toParams).bmStep nk synd rows u) := by
  refine ⟨hl, hs, ?_⟩
  rw [bmStep_d, hl]
  split
  next hu => exact h.discrepancy_eq_zero h1 hu hs
  next => rfl

/-- A step on a settled row keeps it (R178). -/
theorem ErrorSyndromes.located_next {rows : List BmRow} {u : Nat} (h1 : 1 ≤ u) (hrow : Located x (rowAt rows u)) :
    Located x ((buildField b.toParams).bmStep nk synd rows u) := by
  have hsigma : ((buildField b.toParams).bmStep nk synd rows u).sigma = (rowAt rows u).sigma := if_pos hrow.settled
  have hl : ((buildField b.toParams).bmStep nk synd rows u).l = (rowAt rows u).l := if_pos hrow.settled
  exact h.located_bmStep h1 (hl.trans hrow.degree) (by rw [hsigma, hrow.linear])

/-- Once settled the iteration runs to step NK and ends with the error's locator (R184). -/
theorem ErrorSyndromes.located_bmLoop (ht : 1 ≤ t) {rows : List BmRow} {u : Nat} (fuel : Nat) (hlen : rows.length = u + 1)
    (h1 : 1 ≤ u) (hfuel : u + fuel = nk) (hnext : Located x ((buildField b.toParams).bmStep nk synd rows u)) :
    Located x (lastRow ((buildField b.toParams).bmLoop nk t synd (fuel + 1) rows u)) ∧
      ((buildField b.toParams).bmLoop nk t synd (fuel + 1) rows u).length = nk + 2 := by
  induction fuel generalizing rows u with
  | zero =>
    rw [bmLoop_stop _ 0 (by omega), lastRow_concat]
    exact ⟨hnext, by simp; omega⟩
  | succ fuel ih =>
    rw [bmLoop_continue _ (fuel + 1) (by omega) (by rw [hnext.degree]; exact ht)]
    refine ih (by simp [hlen]) (by omega) (by omega) (h.located_next (by omega) ?_)
    rwa [← hlen, rowAt_append_length]

/-- Step 1 takes row 0 for the selected row: degree 1 and the linear coefficient `S_1` (R179, R181). -/
theorem ErrorSyndromes.bmStep_one (hnk : 1 ≤ nk) :
    ((buildField b.toParams).bmStep nk synd (startRows synd nk) 1).l = 1 ∧
    coeff ((buildField b.toParams).bmStep nk synd (startRows synd nk) 1).sigma 1 = syndromeAt synd 1 := by
  have hd : (rowAt (startRows synd nk) 1).d ≠ 0 := h.first_ne_zero
  have hl : ((buildField b.toParams).bmStep nk synd (startRows synd nk) 1).l = 1 := if_neg hd
  have hsigma : ((buildField b.toParams).bmStep nk synd (startRows synd nk) 1).sigma =
      (buildField b.toParams).newLocator nk 1 0 (rowAt (startRows synd nk) 1) (rowAt (startRows synd nk) 0) := if_neg hd
  have hdegree : ¬ 1 ≤ (rowAt (startRows synd nk) 1).l := Nat.not_succ_le_zero 0
  refine ⟨hl, ?_⟩
  rw [hsigma, coeff_newLocator _ 1 0 _ _ hnk, if_pos ⟨Nat.le_refl 1, Nat.zero_le _⟩, if_neg hdegree]
  exact BitVec.xor_zero.trans (div_mul_cancel_symbol b h.first_lt (one_lt_q b) (show (1 : Word) ≠ 0 by decide))

/-- The discrepancy after step 1 is `(x + S_1) * S_1`. -/
theorem ErrorSyndromes.discrepancy_one (hnk : 2 ≤ nk) {sigma : List Word} (hs : coeff sigma 1 = syndromeAt synd 1) :
    (buildField b.toParams).discrepancy synd 1 1 sigma =
      (buildField b.toParams).mul (x ^^^ syndromeAt synd 1) (syndromeAt synd 1) := by
  rw [xor_mul b h.first_lt h.place h.first_lt, ← h.next 1 (Nat.le_refl 1) hnk]
  show syndromeAt synd 2 ^^^ (0 ^^^ (buildField b.toParams).mul (syndromeAt synd 1) (coeff sigma 1)) = _
  rw [hs]
  exact congrArg _ BitVec.zero_xor

/-- Step 2 corrects the linear coefficient to `x`, taking row 1 for the selected row if the discrepancy is not zero. -/
theorem ErrorSyndromes.located_bmStep_two (hnk : 2 ≤ nk) {row : BmRow} (hl : row.l = 1)
    (hs : coeff row.sigma 1 = syndromeAt synd 1) (hd : row.d = (buildField b.toParams).discrepancy synd 1 1 row.sigma) :
    Located x ((buildField b.toParams).bmStep nk synd (startRows synd nk ++ [row]) 2) := by
  have hrow : rowAt (startRows synd nk ++ [row]) 2 = row := rowAt_append_length (startRows synd nk) row
  have hS := h.first_lt
  have hxS : (x ^^^ syndromeAt synd 1).toNat < b.q := xor_lt b.m h.place hS
  have hd := hd.trans (h.discrepancy_one hnk hs)
  have hq := selectRow_two (nk := nk) (row := row) h.first_ne_zero
  by_cases hd0 : row.d = 0
  · have hkeep : (rowAt (startRows synd nk ++ [row]) 2).d = 0 := by rw [hrow, hd0]
    have hsigma : ((buildField b.toParams).bmStep nk synd (startRows synd nk ++ [row]) 2).sigma = _ := if_pos hkeep
    have hdeg : ((buildField b.toParams).bmStep nk synd (startRows synd nk ++ [row]) 2).l = _ := if_pos hkeep
    have hplace : x = syndromeAt synd 1 :=
      BitVec.xor_eq_zero_iff.1
        (((mul_eq_zero_iff_symbols b hxS hS).1 (hd.symm.trans hd0)).resolve_right h.first_ne_zero)
    exact h.located_bmStep (by omega) (by rw [hdeg, hrow, hl]) (by rw [hsigma, hrow, hs, ← hplace])
  · have hstep : (rowAt (startRows synd nk ++ [row]) 2).d ≠ 0 := by rw [hrow]; exact hd0
    have hsigma : ((buildField b.toParams).bmStep nk synd (startRows synd nk ++ [row]) 2).sigma = _ := if_neg hstep
    have hdeg : ((buildField b.toParams).bmStep nk synd (startRows synd nk ++ [row]) 2).l = _ := if_neg hstep
    have hquot : (buildField b.toParams).div row.d (syndromeAt synd 1) = x ^^^ syndromeAt synd 1 := by
      have hdlt : row.d.toNat < b.q := by rw [hd]; exact Field.mul_lt (buildField_symbols b) _ _
      have hcancel := div_mul_cancel_symbol b hdlt hS h.first_ne_zero
      have hdiv : ((buildField b.toParams).div row.d (syndromeAt synd 1)).toNat < b.q :=
        Field.div_lt (buildField_symbols b) (n_lt_two_pow_m b) _ _
      exact mul_right_cancel_symbol b hdiv hxS hS h.first_ne_zero (hcancel.trans hd)
    refine h.located_bmStep (by omega) ?_ ?_
    · rw [hdeg, hrow, hq, hl]; rfl
    · rw [hsigma, hrow, hq, coeff_newLocator _ 2 1 _ _ (by omega), if_pos ⟨Nat.le_refl 1, Nat.zero_le _⟩,
        if_pos (Nat.le_of_eq hl.symm), hs]
      show (buildField b.toParams).mul ((buildField b.toParams).div row.d (syndromeAt synd 1)) 1 ^^^ _ = x
      rw [hquot, mul_one_symbol b hxS, BitVec.xor_assoc, BitVec.xor_self]
      exact BitVec.xor_zero

/-- The iteration on one error ends after NK steps with the locator `1 + x * X`. -/
theorem ErrorSyndromes.berlekampMassey_eq (ht : 1 ≤ t) (hnk : 2 ≤ nk) :
    ((buildField b.toParams).berlekampMassey nk t synd).l = 1 ∧
    coeff ((buildField b.toParams).berlekampMassey nk t synd).sigma 1 = x ∧
    ((buildField b.toParams).berlekampMassey nk t synd).steps = nk := by
  obtain ⟨fuel, rfl⟩ : ∃ fuel, nk = fuel + 2 := ⟨nk - 2, by omega⟩
  obtain ⟨hl, hs⟩ := h.bmStep_one (by omega)
  have hd : ((buildField b.toParams).bmStep (fuel + 2) synd (startRows synd (fuel + 2)) 1).d =
      (buildField b.toParams).discrepancy synd 1 1
        ((buildField b.toParams).bmStep (fuel + 2) synd (startRows synd (fuel + 2)) 1).sigma := by
    rw [bmStep_d, hl]; exact if_pos (by omega)
  have hloop := h.located_bmLoop ht fuel rfl (by omega) (by omega) (h.located_bmStep_two hnk hl hs hd)
  rw [← bmLoop_continue _ (fuel + 1) (by omega) (by rw [hl]; exact ht)] at hloop
  obtain ⟨⟨hdegree, hlinear, -⟩, hlen⟩ := hloop
  refine ⟨hdegree, hlinear, ?_⟩
  show ((buildField b.toParams).bmLoop (fuel + 2) t synd (fuel + 2) (startRows synd (fuel + 2)) 1).length - 2 = fuel + 2
  rw [hlen]; rfl

end

/-! ## The root and the magnitude -/

/-- The locator of an error at the position `k = N-1-p` has the one root `p+1` (R188, R189). -/
theorem roots_of_linear {loc : Locator} {p : Nat} (hp : p < b.n) (hl : loc.l = 1)
    (hs : coeff loc.sigma 1 = alphaPow b.toParams (b.n - 1 - p)) : (buildField b.toParams).roots loc = [p + 1] := by
  have hvalue (i : Nat) : (buildField b.toParams).locatorValue loc i = 1 ^^^ alphaPow b.toParams (b.n - 1 - p + i) := by
    rw [Field.locatorValue, hl]
    show 1 ^^^ (0 ^^^ (buildField b.toParams).mul (coeff loc.sigma 1) _) = _
    rw [hs, pow_natCast, mul_alphaPow, Nat.zero_add, Nat.mul_one]
    exact congrArg _ BitVec.zero_xor
  have hmem : ∀ i, i ∈ (buildField b.toParams).roots loc ↔ i ∈ [p + 1] := fun i => by
    have hone (y : Word) : 1 ^^^ y = 0 ↔ y = 1 := BitVec.xor_eq_zero_iff.trans eq_comm
    rw [Field.mem_roots, hvalue, hone, alphaPow_eq_one_iff, List.mem_singleton,
      buildField_n]
    constructor
    · rintro ⟨h1, hn, hmod⟩
      obtain ⟨c, hc⟩ := Nat.dvd_of_mod_eq_zero hmod
      have hc1 : c = 1 := by
        have hlt : b.n * c < b.n * 2 := by omega
        have hpos : 0 < b.n * c := by omega
        have := Nat.lt_of_mul_lt_mul_left hlt
        have := Nat.pos_of_mul_pos_left hpos
        omega
      subst hc1
      omega
    · rintro rfl
      exact ⟨by omega, by omega, by rw [show b.n - 1 - p + (p + 1) = b.n by omega, Nat.mod_self]⟩
  have hnodup : ((buildField b.toParams).roots loc).Nodup :=
    ((buildField b.toParams).roots_ascending loc).imp Nat.ne_of_lt
  exact List.perm_singleton.1 ((List.perm_ext_iff_of_nodup hnodup (List.nodup_singleton _)).2 hmem)

/-- Forney's magnitude of one error is its value (R195 to R198). -/
theorem magnitude_of_linear {loc : Locator} {nk p : Nat} {synd : List Word} {e : Word} (hp : p < b.n)
    (h : ErrorSyndromes b nk synd e (alphaPow b.toParams (b.n - 1 - p))) (hl : loc.l = 1)
    (hs : coeff loc.sigma 1 = alphaPow b.toParams (b.n - 1 - p)) :
    (buildField b.toParams).magnitude synd loc [p + 1] 0 = e := by
  have hpow := alphaPow_lt b
  have hround : alphaPow b.toParams (b.n - 1 - p + (p + 1)) = 1 := by
    rw [show b.n - 1 - p + (p + 1) = b.n by omega, alphaPow_n]
  have heval : (buildField b.toParams).evaluator synd loc 1 =
      (buildField b.toParams).mul e (alphaPow b.toParams (b.n - 1 - p)) ^^^ alphaPow b.toParams (b.n - 1 - p) := by
    rw [← h.first, ← hs]
    exact BitVec.xor_zero
  have hnum : (buildField b.toParams).numerator synd loc (p + 1) = e := by
    rw [Field.numerator, hl]
    show 1 ^^^ (0 ^^^ (buildField b.toParams).mul ((buildField b.toParams).evaluator synd loc 1) _) = e
    rw [heval, pow_natCast, Nat.zero_add, Nat.one_mul, xor_mul b (hpow _) (Field.mul_lt (buildField_symbols b) _ _) (hpow _),
      mul_assoc_symbols b h.value (hpow _) (hpow _), mul_alphaPow, hround, mul_one_symbol b h.value]
    calc (1 : Word) ^^^ (0 ^^^ (e ^^^ 1)) = (1 ^^^ 1) ^^^ (0 ^^^ e) := by ac_rfl
      _ = e := by rw [BitVec.xor_self]; simp
  have hden : (buildField b.toParams).denominator [p + 1] 0 = 1 := rfl
  have hmag : (buildField b.toParams).magnitude synd loc [p + 1] 0 =
      if (buildField b.toParams).numerator synd loc (p + 1) = 0 then 0
      else (buildField b.toParams).div ((buildField b.toParams).numerator synd loc (p + 1))
        ((buildField b.toParams).denominator [p + 1] 0) := rfl
  rw [hmag, hnum, hden, if_neg h.value_ne_zero, div_one_symbol b h.value]

/-- Correcting the entry that has an error restores the word. -/
theorem correctEntry_set (code : List Word) (p : Nat) (e : Word) :
    correctEntry (code.set p (code.getD p 0 ^^^ e)) (p, e) = code := by
  apply List.ext_getElem?
  intro i
  rw [correctEntry, List.set_set, List.getElem?_set]
  split
  next hp =>
    subst hp
    by_cases hlt : p < code.length
    · have hset : (code.set p (code.getD p 0 ^^^ e)).getD p 0 = code.getD p 0 ^^^ e := by
        simp [List.getD_eq_getElem?_getD, hlt]
      rw [if_pos hlt, hset, BitVec.xor_assoc, BitVec.xor_self, List.getD_eq_getElem _ _ hlt, List.getElem?_eq_getElem hlt]
      exact congrArg some BitVec.xor_zero
    · rw [if_neg hlt, List.getElem?_eq_none (Nat.not_lt.1 hlt)]
  next => rfl

/-- The syndromes of an encoder output with one error (R154, R172). -/
theorem errorSyndromes_encoded {data : List Word} (hlen : data.length = b.k) (hdata : AllSymbols b.m data) {p : Nat}
    (hp : p < b.n) {e : Word} (he0 : e ≠ 0) (he : e.toNat < b.q) {code : List Word}
    (hcode : code = data ++ (buildField b.toParams).parity (buildGen b.toParams) b.nk data) :
    ErrorSyndromes b b.nk ((buildField b.toParams).syndromes b.nk (code.set p (code.getD p 0 ^^^ e))) e
      (alphaPow b.toParams (b.n - 1 - p)) := by
  have hparity := (buildField b.toParams).parity_length (buildGen b.toParams) b.nk data (nk_pos b) (by simp)
  have hword : code.length = b.n := by rw [hcode, List.length_append, hlen, hparity, b.nk_add_k]
  have hsym : AllSymbols b.m code := by
    rw [hcode]
    exact List.forall_mem_append.2 ⟨hdata, Field.parity_lt (buildField_symbols b) _ _ _⟩
  have hzero := syndromes_encoded b hlen hdata
  rw [← hcode] at hzero
  refine errorSyndromes_of_mul b he he0 (nk_pos b) fun i h1 hi => ?_
  obtain ⟨j, rfl⟩ : ∃ j, i = j + 1 := ⟨i - 1, by omega⟩
  have hat (rx : List Word) : syndromeAt ((buildField b.toParams).syndromes b.nk rx) (j + 1) =
      (buildField b.toParams).syndrome rx (j + 1) := by
    have hj : j < b.nk := hi
    simp [syndromeAt, Field.syndromes, List.getD_eq_getElem?_getD, hj]
  have hclean : (buildField b.toParams).syndrome code (j + 1) = 0 := by
    rw [← hat, hzero]
    exact List.getElem?_getD_replicate_default_eq (0 : Word) b.nk j
  rw [hat, syndrome_set b hword hsym hp he, hclean]
  exact BitVec.zero_xor

end

end Sys2Proof.Machine

open Sys2Proof Sys2Proof.Machine

/-- Settles O34: the syndromes are those of one error, on which the iteration settles after two steps; the locator's one root marks
the entry, and the magnitude is the error's value. -/
theorem singleErrorIsCorrected : Obligations.SingleErrorIsCorrected := by
  intro b data p e hlen hdata hp he0 he f code r
  have ht := b.one_le_t
  have hnk : 2 ≤ b.nk := by rw [b.nk_eq]; omega
  have herr := errorSyndromes_encoded b hlen hdata hp he0 he (code := code) rfl
  obtain ⟨hl, hs, hsteps⟩ := herr.berlekampMassey_eq (t := b.t) ht hnk
  generalize hloc : f.berlekampMassey b.nk b.t (f.syndromes b.nk (code.set p (code.getD p 0 ^^^ e))) = loc at hl hs hsteps
  have hroots := roots_of_linear b hp hl hs
  have hz : ¬ allZero (f.syndromes b.nk (code.set p (code.getD p 0 ^^^ e))) = true := fun hzero => by
    refine herr.first_ne_zero ?_
    have hj : 0 < (f.syndromes b.nk (code.set p (code.getD p 0 ^^^ e))).length := by rw [Field.syndromes_length]; omega
    exact (List.getD_eq_getElem _ 0 hj).trans ((allZero_iff _).1 hzero _ (List.getElem_mem hj))
  have hmags : f.magnitudes (f.syndromes b.nk (code.set p (code.getD p 0 ^^^ e))) loc [p + 1] = [e] :=
    congrArg (fun w => [w]) (magnitude_of_linear b hp herr hl hs)
  have hr : r = _ := decodeWord_corrected f hz hloc (by omega) (by rw [hroots, hl]; rfl)
  have hindex : f.rootIndex (p + 1) = p := f.rootIndex_eq (by omega) hp
  rw [hr]
  refine ⟨rfl, hl, by rw [hroots]; rfl, hsteps, ?out, ?position, ?value⟩
  case out =>
    rw [hroots, hmags]
    show correctEntry _ (f.rootIndex (p + 1), e) = code
    rw [hindex]
    exact correctEntry_set code p e
  case position =>
    rw [positions_getD, hroots, if_pos ⟨ht, Nat.one_pos⟩]
    rfl
  case value =>
    rw [hroots, hmags, padded_getD, if_pos (show 0 < b.t from ht)]
    rfl

end
